-- ==== Sys2Proof/Word.lean ====
section
/-! DEFINITION. The widths HUFCORE's values have (spec/00_scope.md R7 and R9): the 32-bit word of every register and host
access, the 8-bit byte that is also a symbol, and the 24-bit host byte address. Every value is unsigned (R9). -/

namespace Sys2Proof

/-- WORD_BITS = 32, "the width of every register and every host access" (R7). -/
abbrev Word := BitVec 32

/-- A frame byte, and a symbol: SYMBOL_BITS = 8 (R7). -/
abbrev Byte := BitVec 8

/-- ADDR_BITS = 24, "the width of a host byte address" (R7). -/
abbrev Addr := BitVec 24

end Sys2Proof
end

