-- ==== Sys2Proof/Syntax.lean ====
section
/-! DEFINITION. The 17 commands of spec/30_encoding.md R95, one constructor per row of spec/opcode_table.json. An operand
has the type of the field that holds it (R94): a symbol is 8 bits, the operand of WBIT is one bit. FREQ.SET and WOPEN take
their second operand from ARG, which is state and no part of the command word. -/

namespace Sys2Proof

/-- A HUFCORE command (R95). -/
inductive Instr where
  /-- NOP, OP 0x00, R230. -/
  | nop
  /-- SRST, OP 0x01, R231. -/
  | srst
  /-- CLRFAULT, OP 0x02, R232. -/
  | clrfault
  /-- FREQ.CLR, OP 0x10, R111. -/
  | freqClr
  /-- FREQ.INC sym, OP 0x11, R112. -/
  | freqInc (sym : Byte)
  /-- FREQ.SET sym, OP 0x12, R113. -/
  | freqSet (sym : Byte)
  /-- FREQ.GET sym, OP 0x13, R114. -/
  | freqGet (sym : Byte)
  /-- BUILD, OP 0x20, R131. -/
  | build
  /-- DERIVE, OP 0x21, R140. -/
  | deriveTable
  /-- WOPEN, OP 0x30, R161. -/
  | wopen
  /-- WBIT b, OP 0x31, R164. -/
  | wbit (b : Bool)
  /-- WCLOSE, OP 0x32, R165. -/
  | wclose
  /-- ENCODE sym, OP 0x33, R169. -/
  | encodeSym (sym : Byte)
  /-- ROPEN, OP 0x40, R191. -/
  | ropen
  /-- RBIT, OP 0x41, R196. -/
  | rbit
  /-- RHASNEXT, OP 0x42, R197. -/
  | rhasnext
  /-- DECODE, OP 0x43, R201. -/
  | decodeSym
deriving DecidableEq, Repr

end Sys2Proof
end

