-- ==== Sys2Proof/Decode.lean ====
section
/-! DEFINITION. The command encoding of spec/30_encoding.md: the fields of a command word (R90), the three formats (R91 to
R93), the opcode map (R95), the decoder (R96), which rejects by name what R97 calls illegal, and the encoder, written from
the same tables. -/

namespace Sys2Proof

/-- The three command formats: N (R91), S (R92) and B (R93). -/
inductive Format where
  /-- no operand: OPD must be 0 -/
  | n
  /-- a symbol operand: every OPD value is legal -/
  | s
  /-- a bit operand: OPD[7:1] must be 0 -/
  | b
deriving DecidableEq, Repr

/-- The mnemonics of R95's OP column. -/
inductive Opcode where
  | nop | srst | clrfault | freqClr | freqInc | freqSet | freqGet | build | deriveTable
  | wopen | wbit | wclose | encodeSym | ropen | rbit | rhasnext | decodeSym
deriving DecidableEq, Repr

/-- Why a word names no command (R96, R97). -/
inductive Reject where
  /-- OP is not in R95's OP column -/
  | unassignedOpcode
  /-- RSV, w[23:8], is not 0 -/
  | reservedNotZero
  /-- OPD of format N is not 0 -/
  | operandNotZero
  /-- OPD[7:1] of format B is not 0 -/
  | bitOperandTooWide
deriving DecidableEq, Repr

/-- OP, bits 31:24 of a command word (R90). -/
def opField (w : Word) : BitVec 8 := w.extractLsb' 24 8

/-- RSV, bits 23:8 of a command word (R90). -/
def rsvField (w : Word) : BitVec 16 := w.extractLsb' 8 16

/-- OPD, bits 7:0 of a command word (R90). -/
def opdField (w : Word) : BitVec 8 := w.extractLsb' 0 8

/-- R95's rows, in the table's order. -/
def Opcode.all : List Opcode :=
  [.nop, .srst, .clrfault, .freqClr, .freqInc, .freqSet, .freqGet, .build, .deriveTable,
    .wopen, .wbit, .wclose, .encodeSym, .ropen, .rbit, .rhasnext, .decodeSym]

/-- R95's OP column. -/
def Opcode.code : Opcode → BitVec 8
  | .nop => 0x00
  | .srst => 0x01
  | .clrfault => 0x02
  | .freqClr => 0x10
  | .freqInc => 0x11
  | .freqSet => 0x12
  | .freqGet => 0x13
  | .build => 0x20
  | .deriveTable => 0x21
  | .wopen => 0x30
  | .wbit => 0x31
  | .wclose => 0x32
  | .encodeSym => 0x33
  | .ropen => 0x40
  | .rbit => 0x41
  | .rhasnext => 0x42
  | .decodeSym => 0x43

/-- R95's format column. -/
def Opcode.format : Opcode → Format
  | .freqInc | .freqSet | .freqGet | .encodeSym => .s
  | .wbit => .b
  | .nop | .srst | .clrfault | .freqClr | .build | .deriveTable => .n
  | .wopen | .wclose | .ropen | .rbit | .rhasnext | .decodeSym => .n

/-- The row of R95 whose OP is `op`. -/
def Opcode.ofCode (op : BitVec 8) : Option Opcode := Opcode.all.find? fun o => o.code == op

/-- The command of a row of R95 with operand field `opd`: sym = OPD in format S, b = OPD[0] in format B (R94). -/
def Opcode.instr (o : Opcode) (opd : BitVec 8) : Instr :=
  match o with
  | .nop => .nop
  | .srst => .srst
  | .clrfault => .clrfault
  | .freqClr => .freqClr
  | .freqInc => .freqInc opd
  | .freqSet => .freqSet opd
  | .freqGet => .freqGet opd
  | .build => .build
  | .deriveTable => .deriveTable
  | .wopen => .wopen
  | .wbit => .wbit (opd.getLsbD 0)
  | .wclose => .wclose
  | .encodeSym => .encodeSym opd
  | .ropen => .ropen
  | .rbit => .rbit
  | .rhasnext => .rhasnext
  | .decodeSym => .decodeSym

/-- The operand check of a format (R91 to R93). -/
def Format.check (f : Format) (opd : BitVec 8) : Option Reject :=
  match f with
  | .n => if opd ≠ 0 then some .operandNotZero else none
  | .s => none
  | .b => if opd.extractLsb' 1 7 ≠ 0 then some .bitOperandTooWide else none

/-- R96's decode, check by check in its order. -/
def decode (w : Word) : Except Reject Instr :=
  match Opcode.ofCode (opField w) with
  | none => .error .unassignedOpcode
  | some o =>
    if rsvField w ≠ 0 then .error .reservedNotZero
    else
      match o.format.check (opdField w) with
      | some r => .error r
      | none => .ok (o.instr (opdField w))

/-- The row of R95 that a command stands in. -/
def Instr.opcode : Instr → Opcode
  | .nop => .nop
  | .srst => .srst
  | .clrfault => .clrfault
  | .freqClr => .freqClr
  | .freqInc _ => .freqInc
  | .freqSet _ => .freqSet
  | .freqGet _ => .freqGet
  | .build => .build
  | .deriveTable => .deriveTable
  | .wopen => .wopen
  | .wbit _ => .wbit
  | .wclose => .wclose
  | .encodeSym _ => .encodeSym
  | .ropen => .ropen
  | .rbit => .rbit
  | .rhasnext => .rhasnext
  | .decodeSym => .decodeSym

/-- A command's OPD field (R94). -/
def Instr.operand : Instr → BitVec 8
  | .freqInc sym | .freqSet sym | .freqGet sym | .encodeSym sym => sym
  | .wbit b => (BitVec.ofBool b).setWidth 8
  | .nop | .srst | .clrfault | .freqClr | .build | .deriveTable => 0
  | .wopen | .wclose | .ropen | .rbit | .rhasnext | .decodeSym => 0

/-- A command's word: OP in bits 31:24, RSV = 0 in bits 23:8, OPD in bits 7:0 (R90). -/
def encode (i : Instr) : Word := i.opcode.code ++ (0 : BitVec 16) ++ i.operand

/-- The command the decoder reads from a table row's bits. A command is one 32-bit word (R98), so the bits above the row's
are 0; HUFCORE holds no word in a byte-addressed memory, so no byte order enters (R70). -/
def decodeTableWord (nbits w : Nat) : Option Instr :=
  (decode (BitVec.ofNat 32 (w % 2 ^ nbits))).toOption

end Sys2Proof
end

