-- ==== Sys2Proof/Config.lean ====
section
/-! DEFINITION. What an implementation of HUFCORE fixes (spec/00_scope.md R7): the three parameters, the constants derived
from SYMBOL_BITS, and the free value the spec leaves open (the buffers' contents after a hardware reset, R50 and R272). -/

namespace Sys2Proof

/-- The three parameters of R7: "A model takes COUNT_BITS, IBUF_SIZE and OBUF_SIZE as arguments". The model carries them in
State.cfg, which no step writes (notes/assumptions/1.md). -/
structure Config where
  /-- COUNT_BITS, 1..32: the width of each frequency count (R7). -/
  countBits : Nat
  /-- IBUF_SIZE, 2..2^20: the byte capacity of the input frame buffer (R7). -/
  ibufSize : Nat
  /-- OBUF_SIZE, 2..2^20: the byte capacity of the output frame buffer (R7). -/
  obufSize : Nat
deriving DecidableEq, Repr

/-- The parameters `State.reset` carries. COUNT_BITS = 32 is R7's default. DESIGN CHOICE (notes/assumptions/1.md), unsafe:
the spec leaves the two sizes OPEN; 64 is what 95_test_vectors.md runs its vectors with. No statement rests on these
values. -/
def Config.standard : Config := { countBits := 32, ibufSize := 64, obufSize := 64 }

/-- ALPHA = 256 (R7). -/
abbrev alpha : Nat := 256

/-- NODE_COUNT = 511 = 2·ALPHA − 1 (R7). -/
abbrev nodeCount : Nat := 511

/-- The byte a buffer location holds after a hardware reset and before anything is written there: "a draw, each byte any
value" (R50), "A model draws each byte freely" (R272). A free value: it has no body, so no proof can depend on it. The
first argument numbers the hardware reset that drew it, the second is the location's host address
(notes/assumptions/2.md). Safe. -/
opaque Config.freeByte : Nat → Nat → Byte

end Sys2Proof
end

