-- ==== Sys2Proof/Machine/State.lean ====
section
/-! DEFINITION. HUFCORE's state: the whole tuple of spec/10_state.md R20 as plain data, and beside it the model's own
fields: the parameters (R7), the number of hardware resets that drew the buffers' contents, and the host's side of the bus
(the accesses it has still to issue, the words its reads returned). Then the reasons a step can stop, and reset (R50). -/

namespace Sys2Proof.Machine

/-- The fault codes of R241; `FaultCode.code` (Flags.lean) gives their numbers. Codes 0x10 to 0xFF are never raised (R241)
and have no name here. -/
inductive FaultCode where
  | noFault
  | format
  | endOfStream
  | emptyInput
  | capacityExceeded
  | ioFailure
  | illegalCommand
  | badAccess
  | badArgument
  | writerState
  | readerState
  | noTree
  | noTable
  | unknownSymbol
  | noChild
  | countOverflow
deriving DecidableEq, Repr

/-- TSTATE: NONE, EMPTY or VALID (R32). -/
inductive TState where
  | none | empty | valid
deriving DecidableEq, Repr

/-- WSTATE: IDLE, OPEN, CLOSED or FAILED (R37). -/
inductive WState where
  | idle | opened | closed | failed
deriving DecidableEq, Repr

/-- RSTATE: IDLE, OPEN or FAILED (R41). -/
inductive RState where
  | idle | opened | failed
deriving DecidableEq, Repr

/-- KIND of a node record (R30). -/
inductive NodeKind where
  | unused | leaf | internal
deriving DecidableEq, Repr

/-- The index of a node record, 0..510 (R30). -/
abbrev NodeIx := Fin nodeCount

/-- A node record (R30). FREQ is FREQ_BITS wide, at most 32 + 8 = 40 bits (R7); the model holds 40
(notes/assumptions/6.md). -/
structure NodeRec where
  kind : NodeKind
  sym : Byte
  freq : BitVec 40
  left : Option NodeIx
  right : Option NodeIx
deriving DecidableEq, Repr

/-- An UNUSED record: SYM = 0, FREQ = 0, no children (R30). -/
def NodeRec.unused : NodeRec := { kind := .unused, sym := 0, freq := 0, left := none, right := none }

/-- A code-table entry (R35): VALID, LEN (8 bits) and CODE (255 bits). -/
structure CtEntry where
  valid : Bool
  len : BitVec 8
  code : BitVec 255
deriving DecidableEq, Repr

/-- The entry "VALID = 0, LEN = 0, CODE = 0" (R35). -/
def CtEntry.empty : CtEntry := { valid := false, len := 0, code := 0 }

/-- A frame buffer's contents: the bytes written since the last hardware reset, by their index in the buffer, in strictly
rising order. An index that is not listed has not been written since then and holds the byte the reset drew
(notes/assumptions/2.md); the canonical form is `Memory.wf` (Ops.lean). -/
abbrev Memory := List Host.Cell

/-- What the world outside does to HUFCORE (R13, R62, R270). `size` is the access width in bytes: the host's MemRead and
MemWrite use 4, any other width is a bad access (R62, notes/assumptions/8.md). -/
inductive BusOp where
  /-- a host read: MemRead(addr, size) -/
  | read (addr : Addr) (size : Nat)
  /-- a host write: MemWrite(addr, size, value) -/
  | write (addr : Addr) (size : Nat) (value : Word)
  /-- the hardware reset input (R270 (a)) -/
  | hardwareReset
deriving DecidableEq, Repr

/-- HUFCORE's state (R20) and the model's own fields. -/
structure State where
  /-- COUNT_BITS, IBUF_SIZE and OBUF_SIZE: configuration, written by nothing (R20, R23) -/
  cfg : Config
  /-- ARG (R25) -/
  arg : Word
  /-- RESULT (R26) -/
  result : Word
  /-- FAULT (R28) -/
  fault : FaultCode
  /-- FAULT_INFO0 (R28) -/
  faultInfo0 : Word
  /-- FAULT_INFO1 (R28) -/
  faultInfo1 : Word
  /-- FAULT_CMD (R28) -/
  faultCmd : Word
  /-- FREQ[0..255], counts of COUNT_BITS ≤ 32 bits (R29; notes/assumptions/6.md) -/
  freq : Vector Word alpha
  /-- NODE[0..510] (R30) -/
  node : Vector NodeRec nodeCount
  /-- TSTATE (R32) -/
  tstate : TState
  /-- ROOT, a node index (R32) -/
  root : NodeIx
  /-- NNODES (R32) -/
  nnodes : BitVec 10
  /-- NSYM (R32) -/
  nsym : BitVec 9
  /-- Q, the set of roots a BUILD in progress still has to merge (R33); a list with no repeats -/
  q : List NodeIx
  /-- CURSOR, a node index (R34) -/
  cursor : NodeIx
  /-- CT[0..255] (R35) -/
  ct : Vector CtEntry alpha
  /-- TVALID (R36) -/
  tvalid : Bool
  /-- WSTATE (R37) -/
  wstate : WState
  /-- WACC (R37) -/
  wacc : BitVec 8
  /-- WN (R37) -/
  wn : BitVec 3
  /-- OLEN (R38) -/
  olen : BitVec 21
  /-- WLIMIT (R38) -/
  wlimit : BitVec 21
  /-- OBUF (R39) -/
  obuf : Memory
  /-- CUR (R40) -/
  cur : BitVec 8
  /-- NXT (R40) -/
  nxt : BitVec 8
  /-- AFT (R40) -/
  aft : BitVec 8
  /-- AFTV (R40) -/
  aftv : Bool
  /-- REM (R40) -/
  rem : BitVec 4
  /-- RSTATE (R41) -/
  rstate : RState
  /-- RLEN (R41) -/
  rlen : BitVec 21
  /-- RBASE (R41) -/
  rbase : BitVec 21
  /-- ILEN (R43) -/
  ilen : BitVec 21
  /-- IBUF (R43) -/
  ibuf : Memory
  /-- the model's own: how many hardware resets came before the one that drew the buffers' contents; it selects the free
  bytes `Config.freeByte` gives (notes/assumptions/2.md) -/
  epoch : Nat
  /-- the model's own: the accesses the host has still to issue, the next one first (R74, R100; notes/assumptions/3.md) -/
  bus : List BusOp
  /-- the model's own: the words the host's reads returned, oldest first (R64; notes/assumptions/3.md) -/
  reads : List Word
deriving DecidableEq, Repr

/-- Why the model stops. HUFCORE itself never does: a fault of R241 "never stops the host" (R240) and is a next state whose
fault registers hold it. -/
inductive Fault where
  /-- Raised by DERIVE and DECODE alone, when a walk through NODE passes more than NODE_COUNT = 511 records: only where the
  child links form a cycle, which no tree that BUILD makes has (R31; "No command can hang", R14). No run from reset reaches
  such a state. Safe (notes/assumptions/5.md). -/
  | treeWalkUnbounded
deriving DecidableEq, Repr

/-- Why an instruction has no meaning in the model. -/
inductive Refusal where
  /-- Raised by an arm of `exec` whose instruction is not modelled; no arm is. Safe. -/
  | notModelled (mnemonic : String)
deriving DecidableEq, Repr

/-- How a step, or a command, ends. -/
abbrev Result := Host.Outcome State Fault Refusal

/-- Every element at its value of R50, with parameters `cfg`, the buffers' contents as the reset number `epoch` drew them,
and a host that issues no access. -/
def State.resetWith (cfg : Config) (epoch : Nat) : State where
  cfg := cfg
  arg := 0
  result := 0
  fault := .noFault
  faultInfo0 := 0
  faultInfo1 := 0
  faultCmd := 0
  freq := Vector.replicate alpha 0
  node := Vector.replicate nodeCount NodeRec.unused
  tstate := .none
  root := 0
  nnodes := 0
  nsym := 0
  q := []
  cursor := 0
  ct := Vector.replicate alpha CtEntry.empty
  tvalid := false
  wstate := .idle
  wacc := 0
  wn := 0
  olen := 0
  wlimit := 0
  obuf := []
  cur := 0
  nxt := 0
  aft := 0
  aftv := false
  rem := 0
  rstate := .idle
  rlen := 0
  rbase := 0
  ilen := 0
  ibuf := []
  epoch := epoch
  bus := []
  reads := []

/-- The machine right after a hardware reset (R50, R271). -/
def State.reset : State := State.resetWith Config.standard 0

end Sys2Proof.Machine
end

