-- ==== Sys2Proof/Machine/Ops.lean ====
section
/-! DEFINITION. The named operations over HUFCORE's registers, tables and buffers, and the fault mechanism of
spec/60_exceptions.md: latching a fault (R244, R246), dropping a command while faulted (R245), clearing the record (R232,
R248), and how a command ends (R14). -/

namespace Sys2Proof.Machine

/-! ## Words -/

/-- zext_32(v) (R10). -/
def zext32 {n : Nat} (v : BitVec n) : Word := v.setWidth 32

/-- A register field: `v` placed with its bit 0 at bit `lo` of a word (R9). -/
def field {n : Nat} (v : BitVec n) (lo : Nat) : Word := zext32 v <<< lo

/-- A node index as a word: the 9-bit index zero-extended (R45). -/
def ixWord (i : NodeIx) : Word := BitVec.ofNat 32 i.val

/-- Every symbol, ascending (R110, R132). -/
def allSymbols : List Byte := (List.range alpha).map (BitVec.ofNat 8)

/-! ## Buffers (R39, R43) -/

/-- The byte written last at index `k`, if any has been since the hardware reset. -/
def Memory.read : Memory → Nat → Option Byte
  | [], _ => none
  | (a, v) :: m, k => if k = a then some v else Memory.read m k

/-- Write one byte, keeping the list's indices strictly rising. -/
def Memory.write : Memory → Nat → Byte → Memory
  | [], k, v => [(k, v)]
  | (a, u) :: m, k, v =>
    if k < a then (k, v) :: (a, u) :: m
    else if k = a then (k, v) :: m
    else (a, u) :: Memory.write m k v

/-- The canonical form: indices strictly rising. An index that is not listed reads as no byte, so no entry can equal what
an unlisted index reads as. -/
def Memory.wf : Memory → Bool
  | [] => true
  | (a, _) :: m => m.all (fun c => a < c.1) && Memory.wf m

/-- Every listed index is below the buffer's size. -/
def Memory.below (m : Memory) (size : Nat) : Bool := m.all fun c => c.1 < size

/-- The host address of IBUF[k] (R61, R65). -/
def ibufAddr (k : Nat) : Nat := 0x400000 + 4 * k

/-- The host address of OBUF[k] (R61, R66). -/
def obufAddr (k : Nat) : Nat := 0x800000 + 4 * k

/-- IBUF[k]: the byte written there last, or the one the hardware reset drew (R43, R82, R272). -/
def State.ibufByte (s : State) (k : Nat) : Byte :=
  (Memory.read s.ibuf k).getD (Config.freeByte s.epoch (ibufAddr k))

/-- OBUF[k]: the byte written there last, or the one the hardware reset drew (R39, R66, R272). -/
def State.obufByte (s : State) (k : Nat) : Byte :=
  (Memory.read s.obuf k).getD (Config.freeByte s.epoch (obufAddr k))

/-- IBUF[k] <- v (R65). -/
def State.setIbuf (s : State) (k : Nat) (v : Byte) : State := { s with ibuf := Memory.write s.ibuf k v }

/-- OBUF[k] <- v (R162). -/
def State.setObuf (s : State) (k : Nat) (v : Byte) : State := { s with obuf := Memory.write s.obuf k v }

/-! ## Tables (R29, R30, R35) -/

/-- FREQ[c]. -/
def State.freqAt (s : State) (c : Byte) : Word := s.freq[c.toNat]'c.isLt

/-- FREQ[c] <- v. -/
def State.setFreq (s : State) (c : Byte) (v : Word) : State := { s with freq := s.freq.set c.toNat v c.isLt }

/-- NODE[i]. -/
def State.nodeAt (s : State) (i : NodeIx) : NodeRec := s.node[i.val]'i.isLt

/-- NODE[i] <- r. -/
def State.setNode (s : State) (i : NodeIx) (r : NodeRec) : State := { s with node := s.node.set i.val r i.isLt }

/-- The node index of a number; every number BUILD uses is below NODE_COUNT (R133). -/
def nodeIx (n : Nat) : NodeIx := Fin.ofNat nodeCount n

/-- CT[c]. -/
def State.ctAt (s : State) (c : Byte) : CtEntry := s.ct[c.toNat]'c.isLt

/-- CT[c] <- e. -/
def State.setCt (s : State) (c : Byte) (e : CtEntry) : State := { s with ct := s.ct.set c.toNat e c.isLt }

/-- "for s in 0..255: CT[s] <- (VALID 0, LEN 0, CODE 0)" (R131, R140). -/
def State.clearCt (s : State) : State := { s with ct := Vector.replicate alpha CtEntry.empty }

/-! ## The fault mechanism -/

/-- `raise F(i0, i1)` inside the command with word `w` (R244), and raiseBus with `w` = 0 (R246): the first fault is kept,
and nothing else is saved. That the command ends is said by `Ran.raised`. -/
def raise (f : FaultCode) (i0 i1 w : Word) (s : State) : State :=
  if s.fault = .noFault then { s with fault := f, faultInfo0 := i0, faultInfo1 := i1, faultCmd := w } else s

/-- raiseBus(F, i0, i1) (R246): FAULT_CMD becomes 0. -/
def raiseBus (f : FaultCode) (i0 i1 : Word) (s : State) : State := raise f i0 i1 0 s

/-- The return from a fault (R232, R248): the record is cleared, no unit's state is restored. -/
def clearFault (s : State) : State :=
  { s with fault := .noFault, faultInfo0 := 0, faultInfo1 := 0, faultCmd := 0 }

/-- The faulted-state drop (R245), the first check of every command but SRST and CLRFAULT (R247): while FAULT ≠ 0 the
command changes no state and raises no fault. -/
def unlessFaulted (s : State) (body : State → Result) : Result :=
  if s.fault = .noFault then body s else .next s

/-- How an internal step ends: in a state from which the command goes on, or in the state a raise left (R12, R244). -/
inductive Ran where
  | ok (s : State)
  | raised (s : State)
deriving DecidableEq, Repr

/-- Go on with `f` unless a fault ended the command: "A call that raises a fault raises it from the command that made the
call" (R12). -/
def Ran.andThen (r : Ran) (f : State → Ran) : Ran :=
  match r with
  | .ok s => f s
  | .raised s => .raised s

/-- The state a step leaves: what was written before a raise stays written (R10, R244). -/
def Ran.state : Ran → State
  | .ok s => s
  | .raised s => s

/-- A command's end: completing and raising are both a next state (R14). -/
def Ran.outcome (r : Ran) : Result := .next r.state

end Sys2Proof.Machine
end

