-- ==== Sys2Proof/Machine/Flags.lean ====
section
/-! DEFINITION. HUFCORE's flags. STATUS stores nothing: every bit of it is computed from other state (spec/10_state.md
R27). Beside it the codes its fields and the fault registers show (R30, R32, R37, R41, R241), hasNext (R42), and the words
DECODE leaves in RESULT (R26). -/

namespace Sys2Proof.Machine

/-- The code of a fault (R241). -/
def FaultCode.code : FaultCode → BitVec 8
  | .noFault => 0x00
  | .format => 0x01
  | .endOfStream => 0x02
  | .emptyInput => 0x03
  | .capacityExceeded => 0x04
  | .ioFailure => 0x05
  | .illegalCommand => 0x06
  | .badAccess => 0x07
  | .badArgument => 0x08
  | .writerState => 0x09
  | .readerState => 0x0A
  | .noTree => 0x0B
  | .noTable => 0x0C
  | .unknownSymbol => 0x0D
  | .noChild => 0x0E
  | .countOverflow => 0x0F

/-- TSTATE's 2-bit code (R32). -/
def TState.code : TState → BitVec 2
  | .none => 0
  | .empty => 1
  | .valid => 2

/-- WSTATE's 2-bit code (R37). -/
def WState.code : WState → BitVec 2
  | .idle => 0
  | .opened => 1
  | .closed => 2
  | .failed => 3

/-- RSTATE's 2-bit code (R41). -/
def RState.code : RState → BitVec 2
  | .idle => 0
  | .opened => 1
  | .failed => 2

/-- KIND's 2-bit code (R30). -/
def NodeKind.code : NodeKind → BitVec 2
  | .unused => 0
  | .leaf => 1
  | .internal => 2

/-- hasNext() (R42). -/
def State.hasNext (s : State) : Bool := s.rstate = .opened && (s.aftv || 0 < s.rem.toNat)

/-- STATUS.RFINAL: final-byte mode of an open reader (R27, R193). -/
def State.rfinal (s : State) : Bool := s.rstate = .opened && !s.aftv

/-- STATUS.DPARTIAL: the cursor stands below the root of a tree (R27). -/
def State.dpartial (s : State) : Bool := s.tstate = .valid && s.cursor ≠ s.root

/-- STATUS.FAULTED (R27). -/
def State.faulted (s : State) : Bool := s.fault ≠ .noFault

/-- STATUS (R27). -/
def State.status (s : State) : Word :=
  field s.tstate.code 0 ||| field (BitVec.ofBool s.tvalid) 2 ||| field s.wstate.code 4 |||
    field s.rstate.code 6 ||| field (BitVec.ofBool s.hasNext) 8 ||| field (BitVec.ofBool s.rfinal) 9 |||
    field (BitVec.ofBool s.dpartial) 10 ||| field (BitVec.ofBool s.faulted) 11

/-- RESULT after DECODE decoded symbol `c`: VALID = 1 (R26, R202). -/
def decodedResult (c : Byte) : Word := 0x80000000#32 ||| zext32 c

/-- RESULT after DECODE found no more bits: DONE = 1, and PARTIAL = 1 when the cursor is below the root (R26, R201,
R204). -/
def doneResult (cursor root : NodeIx) : Word :=
  0x40000000#32 ||| (if cursor ≠ root then 0x20000000#32 else 0)

end Sys2Proof.Machine
end

