-- ==== Sys2Proof/Machine/Operands.lean ====
section
/-! DEFINITION. The operand forms of spec/30_encoding.md R94. A symbol and a bit come from the command word and are typed in
`Instr`; the second operand of FREQ.SET and WOPEN is ARG "taken as 32 bits unsigned"; ROPEN's is ILEN (R191). With them the
ranges the operands are checked against, and the bits a code-table entry stands for (R35). -/

namespace Sys2Proof.Machine

/-- FREQ.SET's count (R94, R113). -/
def State.countOperand (s : State) : Word := s.arg

/-- WOPEN's output limit (R94, R161). -/
def State.limitOperand (s : State) : Word := s.arg

/-- The largest count, 2^COUNT_BITS − 1 (R112, R113). -/
def countMax (c : Config) : Nat := 2 ^ c.countBits - 1

/-- v[COUNT_BITS−1:0] (R113). -/
def truncCount (c : Config) (v : Word) : Word := BitVec.ofNat 32 (v.toNat % 2 ^ c.countBits)

/-- The path bits of a code-table entry, root side first: p_i = CODE[LEN−1−i] (R35, R169). -/
def CtEntry.bits (e : CtEntry) : List Bool :=
  (List.range e.len.toNat).map fun i => e.code.getLsbD (e.len.toNat - 1 - i)

/-- The number a path stands for: Σ p_i · 2^(L−1−i) (R142). -/
def pathValue (p : List Bool) : Nat := p.foldl (fun v b => 2 * v + b.toNat) 0

/-- The entry DERIVE writes for a leaf at path `p` (R141). -/
def CtEntry.ofPath (p : List Bool) : CtEntry :=
  { valid := true, len := BitVec.ofNat 8 p.length, code := BitVec.ofNat 255 (pathValue p) }

end Sys2Proof.Machine
end

