-- ==== Sys2Proof/Machine/Control.lean ====
section
/-! DEFINITION. The control family of spec/45_control.md: NOP, SRST and CLRFAULT, and the hardware reset of
spec/70_reset_and_hazards.md R270. -/

namespace Sys2Proof.Machine

/-- NOP (R230). -/
def execNop (s : State) : Result := unlessFaulted s fun s => .next s

/-- "set every state element to its value in R50, except IBUF and OBUF contents" (R231). The parameters, the draw and the
host's side of the bus are no state elements of R20. -/
def softReset (s : State) : State :=
  { State.resetWith s.cfg s.epoch with
    ibuf := s.ibuf
    obuf := s.obuf
    bus := s.bus
    reads := s.reads }

/-- SRST (R231): it runs even while FAULT ≠ 0. -/
def execSrst (s : State) : Result := .next (softReset s)

/-- CLRFAULT (R232): it runs even while FAULT ≠ 0. -/
def execClrfault (s : State) : Result := .next (clearFault s)

/-- The hardware reset input (R270): every element at its value of R50, the buffers' contents drawn anew (R272). The host's
side of the bus is not HUFCORE's and stays. -/
def hardReset (s : State) : State :=
  { State.resetWith s.cfg (s.epoch + 1) with
    bus := s.bus
    reads := s.reads }

end Sys2Proof.Machine
end

