-- ==== Sys2Proof/Machine/Freq.lean ====
section
/-! DEFINITION. The FREQ family of spec/41_frequency.md: the frequency table. -/

namespace Sys2Proof.Machine

/-- FREQ.CLR (R111). -/
def execFreqClr (s : State) : Result :=
  unlessFaulted s fun s => .next { s with freq := Vector.replicate alpha 0 }

/-- FREQ.INC sym (R112): a count at its largest value faults and is not changed. -/
def execFreqInc (sym : Byte) (s : State) : Result :=
  unlessFaulted s fun s =>
    if (s.freqAt sym).toNat = countMax s.cfg then
      .next (raise .countOverflow (zext32 sym) (s.freqAt sym) (encode (.freqInc sym)) s)
    else .next (s.setFreq sym (s.freqAt sym + 1))

/-- FREQ.SET sym (R113): the count is ARG. -/
def execFreqSet (sym : Byte) (s : State) : Result :=
  unlessFaulted s fun s =>
    if countMax s.cfg < s.countOperand.toNat then
      .next (raise .badArgument s.countOperand (BitVec.ofNat 32 (countMax s.cfg)) (encode (.freqSet sym)) s)
    else .next (s.setFreq sym (truncCount s.cfg s.countOperand))

/-- FREQ.GET sym (R114). -/
def execFreqGet (sym : Byte) (s : State) : Result :=
  unlessFaulted s fun s => .next { s with result := s.freqAt sym }

end Sys2Proof.Machine
end

