-- ==== Sys2Proof/Machine/Reader.lean ====
section
/-! DEFINITION. The RD family of spec/44_reader.md: the BitReader with its 3-byte lookahead, and the symbol decoder. Each
internal step takes the word of the command that runs it, which a raise records in FAULT_CMD (R244). -/

namespace Sys2Proof.Machine

/-- fetch(k) (R192): the reader's only read of IBUF. -/
def State.fetch (s : State) (k : Nat) : Option Byte :=
  if k < s.rlen.toNat then some (s.ibufByte k) else none

/-- "RSTATE <- FAILED; raise FORMAT(i0, i1)" (R191, R195). -/
def raiseFormat (w i0 i1 : Word) (s : State) : State := raise .format i0 i1 w { s with rstate := .failed }

/-- The end of a window move, shared by ROPEN and advance (R191, R195): AFT takes the byte two positions on, or the end of
input makes NXT, at index `tail`, the trailing byte, which is checked and becomes REM (R199). -/
def fillWindow (w : Word) (aft : Option Byte) (tail : Word) (s : State) : Ran :=
  match aft with
  | some a => .ok { s with aft := a, aftv := true, rem := 8 }
  | none =>
    let s := { s with aft := 0, aftv := false }
    if 8 < s.nxt.toNat then .raised (raiseFormat w tail (zext32 s.nxt) s)
    else .ok { s with rem := s.nxt.extractLsb' 0 4 }

/-- advance() (R195). -/
def advance (w : Word) (s : State) : Ran :=
  let s := { s with cur := s.nxt, nxt := s.aft, rbase := s.rbase + 1 }
  fillWindow w (s.fetch (s.rbase.toNat + 2)) (zext32 (s.rbase + 1)) s

/-- The bit readBitCore returns: CUR[7] (R194). -/
def State.nextBit (s : State) : Bool := s.cur.getLsbD 7

/-- readBitCore() after its result is taken (R194): the bit is consumed, and the eighth bit of a byte moves the window. -/
def readBitCore (w : Word) (s : State) : Ran :=
  let s := { s with cur := s.cur <<< 1, rem := s.rem - 1 }
  if s.aftv && s.rem = 0 then advance w s else .ok s

/-- "raise READER_STATE(zext_32(RSTATE), 0)" (R196, R197, R201). -/
def raiseReaderState (w : Word) (s : State) : State := raise .readerState (zext32 s.rstate.code) 0 w s

/-- ROPEN's effect (R191). -/
def openReader (w : Word) (s : State) : Ran :=
  let s := { s with rlen := s.ilen }
  if s.rlen.toNat < 2 then .raised (raiseFormat w 0 (zext32 s.rlen) s)
  else
    let s := { s with cur := s.ibufByte 0, nxt := s.ibufByte 1, rbase := 0 }
    (fillWindow w (s.fetch 2) 1 s).andThen fun s =>
      .ok { s with rstate := .opened, cursor := if s.tstate ≠ .none then s.root else 0 }

/-- ROPEN (R191). -/
def execRopen (s : State) : Result := unlessFaulted s fun s => (openReader (encode .ropen) s).outcome

/-- RBIT (R196). -/
def execRbit (s : State) : Result :=
  unlessFaulted s fun s =>
    if s.rstate ≠ .opened then .next (raiseReaderState (encode .rbit) s)
    else if s.hasNext = false then
      .next (raise .endOfStream (zext32 s.rbase) (zext32 s.rlen) (encode .rbit) s)
    else (readBitCore (encode .rbit) { s with result := zext32 (BitVec.ofBool s.nextBit) }).outcome

/-- RHASNEXT (R197). -/
def execRhasnext (s : State) : Result :=
  unlessFaulted s fun s =>
    if s.rstate ≠ .opened then .next (raiseReaderState (encode .rhasnext) s)
    else .next { s with result := zext32 (BitVec.ofBool s.hasNext) }

/-! ## The symbol decoder -/

/-- The child of node `i` on path bit `b`: RIGHT for 1, LEFT for 0 (R202). -/
def State.childOf (s : State) (i : NodeIx) (b : Bool) : Option NodeIx :=
  if b then (s.nodeAt i).right else (s.nodeAt i).left

/-- How decodeStep ends (R202). -/
inductive Walked where
  | emitted (s : State)
  | moved (s : State)
  | raised (s : State)
deriving DecidableEq, Repr

/-- decodeStep(b) (R202, R205). -/
def decodeStep (w : Word) (b : Bool) (s : State) : Walked :=
  match s.childOf s.cursor b with
  | none => .raised (raise .noChild (ixWord s.cursor) (zext32 (BitVec.ofBool b)) w s)
  | some c =>
    if (s.nodeAt c).kind = .leaf then
      .emitted { s with result := decodedResult (s.nodeAt c).sym, cursor := s.root }
    else .moved { s with cursor := c }

/-- DECODE's loop (R201), with a bound on its rounds: a round that does not return moves the cursor one level down, so
NODE_COUNT rounds are enough in every tree BUILD makes (R14). The fault stands for a bound that ran out, which happens only
where the child links form a cycle (notes/assumptions/5.md). -/
def decodeLoop (w : Word) : Nat → State → Result
  | 0, _ => .fault .treeWalkUnbounded
  | fuel + 1, s =>
    if s.hasNext = false then .next { s with result := doneResult s.cursor s.root }
    else
      match readBitCore w s with
      | .raised t => .next t
      | .ok t =>
        match decodeStep w s.nextBit t with
        | .raised u => .next u
        | .emitted u => .next u
        | .moved u => decodeLoop w fuel u

/-- DECODE (R201). -/
def execDecode (s : State) : Result :=
  unlessFaulted s fun s =>
    match s.tstate with
    | .none => .next (raise .noTree 0 0 (encode .decodeSym) s)
    | .empty =>
      if s.rstate ≠ .opened then .next (raiseReaderState (encode .decodeSym) s)
      else .next { s with result := 0x40000000 }
    | .valid =>
      if s.rstate ≠ .opened then .next (raiseReaderState (encode .decodeSym) s)
      else decodeLoop (encode .decodeSym) nodeCount s

end Sys2Proof.Machine
end

