-- ==== Sys2Proof/Machine/Tree.lean ====
section
/-! DEFINITION. The TREE and CTAB family of spec/42_tree.md: BUILD, the lowest-two merge over the priority structure Q, and
DERIVE, the pre-order traversal that fills the code table. -/

namespace Sys2Proof.Machine

/-! ## BUILD -/

/-- The symbols of the frequency table, ascending: [s for s in 0..255 if FREQ[s] > 0] (R131). -/
def State.presentSymbols (s : State) : List Byte := allSymbols.filter fun c => s.freqAt c ≠ 0

/-- The record of a leaf: SYM c, its count zero-extended to FREQ_BITS (R132). -/
def NodeRec.leafOf (c : Byte) (count : Word) : NodeRec :=
  { kind := .leaf, sym := c, freq := count.setWidth 40, left := none, right := none }

/-- The record of an internal node: SYM 0 (R134, R135, R136). -/
def NodeRec.internalOf (freq : BitVec 40) (left right : Option NodeIx) : NodeRec :=
  { kind := .internal, sym := 0, freq := freq, left := left, right := right }

/-- "NODE[i] <- LEAF(SYM S[i], FREQ zext(FREQ[S[i]]))" for the symbols of a list, from index `i` on (R131, R132). -/
def writeLeaves : List Byte → Nat → State → State
  | [], _, s => s
  | c :: cs, i, s => writeLeaves cs (i + 1) (s.setNode (nodeIx i) (NodeRec.leafOf c (s.freqAt c)))

/-- The order of Q: node i comes before node j when (NODE[i].FREQ, i) < (NODE[j].FREQ, j), lexicographically (R134). -/
def State.keyLt (s : State) (i j : NodeIx) : Bool :=
  (s.nodeAt i).freq < (s.nodeAt j).freq || ((s.nodeAt i).freq = (s.nodeAt j).freq && i < j)

/-- "the i in Q with the smallest key" (R134), of a list of node indices. -/
def State.minOf (s : State) : List NodeIx → Option NodeIx
  | [] => none
  | i :: is =>
    match s.minOf is with
    | none => some i
    | some j => if s.keyLt j i then some j else some i

/-- Q <- Q \ {i}. -/
def State.dequeue (s : State) (i : NodeIx) : State := { s with q := s.q.filter (· ≠ i) }

/-- Q <- Q ∪ {i}. -/
def State.enqueue (s : State) (i : NodeIx) : State := { s with q := s.q ++ [i] }

/-- merge(next) (R134): the two nodes with the smallest keys leave Q and become the left and the right child of a new
internal node, which enters Q. mergeAll calls it only while |Q| > 1, so both are there. -/
def merge (next : Nat) (s : State) : State :=
  match s.minOf s.q with
  | none => s
  | some a =>
    match (s.dequeue a).minOf (s.dequeue a).q with
    | none => s
    | some b =>
      (((s.dequeue a).dequeue b).setNode (nodeIx next)
        (NodeRec.internalOf ((s.nodeAt a).freq + (s.nodeAt b).freq) (some a) (some b))).enqueue (nodeIx next)

/-- mergeAll's loop "while |Q| > 1" (R133), with a bound on its rounds: each round makes Q one smaller, so |Q| rounds are
enough. -/
def mergeLoop : Nat → Nat → State → State
  | 0, _, s => s
  | fuel + 1, next, s => if 1 < s.q.length then mergeLoop fuel (next + 1) (merge next s) else s

/-- ROOT, NNODES, NSYM, TSTATE and CURSOR of a finished tree (R133, R135, R136): "CURSOR <- ROOT". -/
def State.finishTree (s : State) (t : TState) (root : NodeIx) (nnodes nsym : Nat) : State :=
  { s with
    tstate := t
    root := root
    nnodes := BitVec.ofNat 10 nnodes
    nsym := BitVec.ofNat 9 nsym
    cursor := root }

/-- mergeAll(k), for k ≥ 2 (R133). -/
def mergeAll (k : Nat) (s : State) : State :=
  let s := { s with q := (List.range k).map nodeIx }
  let s := mergeLoop k k s
  let root := s.q.headD 0
  { s with q := [] }.finishTree .valid root (2 * k - 1) k

/-- buildDegenerate (R135): the wrapper of the single leaf. -/
def buildDegenerate (s : State) : State :=
  (s.setNode (nodeIx 1) (NodeRec.internalOf (s.nodeAt (nodeIx 0)).freq (some (nodeIx 0)) none)).finishTree
    .valid (nodeIx 1) 2 1

/-- buildSentinel (R136): the root without children. -/
def buildSentinel (s : State) : State :=
  (s.setNode (nodeIx 0) (NodeRec.internalOf 0 none none)).finishTree .empty (nodeIx 0) 1 0

/-- What BUILD clears first: every record UNUSED, every code-table entry empty, TVALID = 0 (R131). -/
def State.clearTree (s : State) : State :=
  { s with node := Vector.replicate nodeCount NodeRec.unused, tvalid := false }.clearCt

/-- BUILD's effect (R131). -/
def buildTree (s : State) : State :=
  let syms := s.presentSymbols
  let k := syms.length
  let s := s.clearTree
  if k = 0 then buildSentinel s
  else
    let s := writeLeaves syms 0 s
    if k = 1 then buildDegenerate s else mergeAll k s

/-- BUILD (R131). -/
def execBuild (s : State) : Result := unlessFaulted s fun s => .next (buildTree s)

/-! ## DERIVE -/

/-- preorder(n, p) (R141) over a code table: a leaf's path goes into its symbol's entry, then the left subtree with path
bit 0, then the right one with path bit 1. The first argument bounds the depth: `none` when it runs out, which happens only
where the child links form a cycle (notes/assumptions/5.md). -/
def preorder (s : State) : Nat → NodeIx → List Bool → Vector CtEntry alpha → Option (Vector CtEntry alpha)
  | 0, _, _, _ => none
  | fuel + 1, n, p, ct =>
    let r := s.nodeAt n
    if r.kind = .leaf then some (ct.set r.sym.toNat (CtEntry.ofPath p) r.sym.isLt)
    else
      (r.left.elim (some ct) fun l => preorder s fuel l (p ++ [false]) ct).bind fun ct =>
        r.right.elim (some ct) fun d => preorder s fuel d (p ++ [true]) ct

/-- DERIVE (R140). -/
def execDerive (s : State) : Result :=
  unlessFaulted s fun s =>
    match s.tstate with
    | .none => .next (raise .noTree 0 0 (encode .deriveTable) s)
    | .empty => .next { s.clearCt with tvalid := true }
    | .valid =>
      match preorder s nodeCount s.root [] s.clearCt.ct with
      | none => .fault .treeWalkUnbounded
      | some ct => .next { s with ct := ct, tvalid := true }

end Sys2Proof.Machine
end

