-- ==== Sys2Proof/Machine/Writer.lean ====
section
/-! DEFINITION. The WR family of spec/43_writer.md: the BitWriter and the symbol encoder. Each internal step takes the word
of the command that runs it, which a raise records in FAULT_CMD (R244). -/

namespace Sys2Proof.Machine

/-- emitByte(v) (R162): the capacity guard runs before the byte is stored. -/
def emitByte (w : Word) (v : Byte) (s : State) : Ran :=
  if s.wlimit ≤ s.olen then
    .raised (raise .capacityExceeded (zext32 s.olen) (zext32 s.wlimit) w { s with wstate := .failed })
  else .ok { s.setObuf s.olen.toNat v with olen := s.olen + 1 }

/-- writeBitCore(b) (R163): WACC[6:0] ++ b; the eighth bit emits the byte, and a fault there leaves WACC and WN. -/
def writeBitCore (w : Word) (b : Bool) (s : State) : Ran :=
  let v : Byte := s.wacc.extractLsb' 0 7 ++ BitVec.ofBool b
  if s.wn = 7 then (emitByte w v s).andThen fun s => .ok { s with wacc := 0, wn := 0 }
  else .ok { s with wacc := v, wn := s.wn + 1 }

/-- writeBitCore on the bits of a list in order (R169). -/
def writeBits (w : Word) : List Bool → State → Ran
  | [], s => .ok s
  | b :: bs, s => (writeBitCore w b s).andThen (writeBits w bs)

/-- "raise WRITER_STATE(zext_32(WSTATE), 0)" (R164, R165, R169). -/
def raiseWriterState (w : Word) (s : State) : State := raise .writerState (zext32 s.wstate.code) 0 w s

/-- WOPEN (R161): the limit is ARG. -/
def execWopen (s : State) : Result :=
  unlessFaulted s fun s =>
    if s.cfg.obufSize < s.limitOperand.toNat then
      .next (raise .badArgument s.limitOperand (BitVec.ofNat 32 s.cfg.obufSize) (encode .wopen) s)
    else
      .next { s with wacc := 0, wn := 0, olen := 0, wlimit := s.limitOperand.extractLsb' 0 21, wstate := .opened }

/-- WBIT b (R164). -/
def execWbit (b : Bool) (s : State) : Result :=
  unlessFaulted s fun s =>
    if s.wstate ≠ .opened then .next (raiseWriterState (encode (.wbit b)) s)
    else (writeBitCore (encode (.wbit b)) b s).outcome

/-- The partial byte: (WACC << (8 − WN))[7:0], left-aligned, pad bits 0 (R165, R166). -/
def State.partialByte (s : State) : Byte := s.wacc <<< (8 - s.wn.toNat)

/-- WCLOSE's effect on an open writer (R165): the partial byte, then its count of valid bits. -/
def closeWriter (w : Word) (s : State) : Ran :=
  ((emitByte w s.partialByte s).andThen fun s => emitByte w (s.wn.setWidth 8) s).andThen fun s =>
    .ok { s with wacc := 0, wn := 0, wstate := .closed }

/-- WCLOSE (R165). -/
def execWclose (s : State) : Result :=
  unlessFaulted s fun s =>
    if s.wstate ≠ .opened then .next (raiseWriterState (encode .wclose) s)
    else (closeWriter (encode .wclose) s).outcome

/-- ENCODE sym (R169): the code's bits, root side first. -/
def execEncode (sym : Byte) (s : State) : Result :=
  unlessFaulted s fun s =>
    if s.tvalid = false then .next (raise .noTable 0 0 (encode (.encodeSym sym)) s)
    else if s.wstate ≠ .opened then .next (raiseWriterState (encode (.encodeSym sym)) s)
    else if (s.ctAt sym).valid = false then
      .next (raise .unknownSymbol (zext32 sym) 0 (encode (.encodeSym sym)) s)
    else (writeBits (encode (.encodeSym sym)) (s.ctAt sym).bits s).outcome

end Sys2Proof.Machine
end

