-- ==== Sys2Proof/Machine/Dispatch.lean ====
section
/-! DEFINITION. One arm per command (spec/30_encoding.md R95): a CMD write of the command's word, at a given state. -/

namespace Sys2Proof.Machine

def exec (i : Instr) (s : State) : Host.Outcome State Fault Refusal :=
  match i with
  | .nop => Sys2Proof.Machine.execNop s
  | .srst => Sys2Proof.Machine.execSrst s
  | .clrfault => Sys2Proof.Machine.execClrfault s
  | .freqClr => Sys2Proof.Machine.execFreqClr s
  | .freqInc sym => Sys2Proof.Machine.execFreqInc sym s
  | .freqSet sym => Sys2Proof.Machine.execFreqSet sym s
  | .freqGet sym => Sys2Proof.Machine.execFreqGet sym s
  | .build => Sys2Proof.Machine.execBuild s
  | .deriveTable => Sys2Proof.Machine.execDerive s
  | .wopen => Sys2Proof.Machine.execWopen s
  | .wbit b => Sys2Proof.Machine.execWbit b s
  | .wclose => Sys2Proof.Machine.execWclose s
  | .encodeSym sym => Sys2Proof.Machine.execEncode sym s
  | .ropen => Sys2Proof.Machine.execRopen s
  | .rbit => Sys2Proof.Machine.execRbit s
  | .rhasnext => Sys2Proof.Machine.execRhasnext s
  | .decodeSym => Sys2Proof.Machine.execDecode s

end Sys2Proof.Machine
end

