-- ==== Sys2Proof/Machine/Bus.lean ====
section
/-! DEFINITION. The host's side: the register block (spec/10_state.md R21 to R28, R44 to R47), the address map and the
access rules (spec/20_memory.md R61 to R69), CMD writes (R24, R96), and what each access does. -/

namespace Sys2Proof.Machine

/-! ## The register block (R21) -/

/-- The registers of R21. -/
inductive Reg where
  | id | cfgCountBits | cfgIbufSize | cfgObufSize | cmd | arg | result | status
  | fault | faultInfo0 | faultInfo1 | faultCmd | olen | wlimit | ilen | rbase
  | rlen | root | nnodes | nsym | cursor | wacc | rwin
deriving DecidableEq, Repr

/-- R21's rows, in the table's order. -/
def Reg.all : List Reg :=
  [.id, .cfgCountBits, .cfgIbufSize, .cfgObufSize, .cmd, .arg, .result, .status,
    .fault, .faultInfo0, .faultInfo1, .faultCmd, .olen, .wlimit, .ilen, .rbase,
    .rlen, .root, .nnodes, .nsym, .cursor, .wacc, .rwin]

/-- R21's offset column. -/
def Reg.offset : Reg → Nat
  | .id => 0x000
  | .cfgCountBits => 0x004
  | .cfgIbufSize => 0x008
  | .cfgObufSize => 0x00C
  | .cmd => 0x010
  | .arg => 0x014
  | .result => 0x018
  | .status => 0x01C
  | .fault => 0x020
  | .faultInfo0 => 0x024
  | .faultInfo1 => 0x028
  | .faultCmd => 0x02C
  | .olen => 0x030
  | .wlimit => 0x034
  | .ilen => 0x038
  | .rbase => 0x03C
  | .rlen => 0x040
  | .root => 0x044
  | .nnodes => 0x048
  | .nsym => 0x04C
  | .cursor => 0x050
  | .wacc => 0x054
  | .rwin => 0x058

/-- R21's access column. -/
inductive Access where
  /-- a host write raises BAD_ACCESS -/
  | ro
  /-- a read returns 0 -/
  | wo
  /-- the host can read and write -/
  | rw
deriving DecidableEq, Repr

/-- R21's access column: CMD is write-only, ARG and ILEN are read/write, every other register is read-only. -/
def Reg.access : Reg → Access
  | .cmd => .wo
  | .arg | .ilen => .rw
  | .id | .cfgCountBits | .cfgIbufSize | .cfgObufSize | .result | .status => .ro
  | .fault | .faultInfo0 | .faultInfo1 | .faultCmd | .olen | .wlimit | .rbase => .ro
  | .rlen | .root | .nnodes | .nsym | .cursor | .wacc | .rwin => .ro

/-- The register at an offset of the register block, if one is listed (R21). -/
def Reg.ofOffset (off : Nat) : Option Reg := Reg.all.find? fun r => r.offset == off

/-- The WACC register: WACC in bits 7:0, WN in bits 10:8 (R44). -/
def State.waccWord (s : State) : Word := field s.wacc 0 ||| field s.wn 8

/-- The RWIN register: CUR, NXT, AFT, REM and AFTV (R44). -/
def State.rwinWord (s : State) : Word :=
  field s.cur 0 ||| field s.nxt 8 ||| field s.aft 16 ||| field s.rem 24 ||| field (BitVec.ofBool s.aftv) 28

/-- What a read of a register returns (R21 to R28, R38, R41, R43 to R45). No read has a side effect (R69). -/
def Reg.value (r : Reg) (s : State) : Word :=
  match r with
  | .id => 0x48554631
  | .cfgCountBits => BitVec.ofNat 32 s.cfg.countBits
  | .cfgIbufSize => BitVec.ofNat 32 s.cfg.ibufSize
  | .cfgObufSize => BitVec.ofNat 32 s.cfg.obufSize
  | .cmd => 0
  | .arg => s.arg
  | .result => s.result
  | .status => s.status
  | .fault => zext32 s.fault.code
  | .faultInfo0 => s.faultInfo0
  | .faultInfo1 => s.faultInfo1
  | .faultCmd => s.faultCmd
  | .olen => zext32 s.olen
  | .wlimit => zext32 s.wlimit
  | .ilen => zext32 s.ilen
  | .rbase => zext32 s.rbase
  | .rlen => zext32 s.rlen
  | .root => ixWord s.root
  | .nnodes => zext32 s.nnodes
  | .nsym => zext32 s.nsym
  | .cursor => ixWord s.cursor
  | .wacc => s.waccWord
  | .rwin => s.rwinWord

/-! ## The windows -/

/-- A child link as a word: bit 31 says whether there is one, bits 8:0 hold it (R46). -/
def linkWord (l : Option NodeIx) : Word :=
  match l with
  | none => 0
  | some i => 0x80000000#32 ||| ixWord i

/-- Word `w` of a node record (R46). -/
def NodeRec.word (r : NodeRec) (w : Nat) : Word :=
  match w with
  | 0 => field r.kind.code 0 ||| field r.sym 8
  | 1 => linkWord r.left
  | 2 => linkWord r.right
  | 3 => r.freq.extractLsb' 0 32
  | 4 => zext32 (r.freq.extractLsb' 32 8)
  | _ => 0

/-- Word `w` of a code-table entry (R47): words 1 to 8 hold CODE, 32 bits each. -/
def CtEntry.word (e : CtEntry) (w : Nat) : Word :=
  if w = 0 then field (BitVec.ofBool e.valid) 31 ||| field e.len 0
  else if w ≤ 8 then e.code.extractLsb' (32 * (w - 1)) 32
  else 0

/-! ## The address map (R61) -/

/-- What a mapped word address names. -/
inductive Target where
  | reg (r : Reg)
  | nodeWord (i : NodeIx) (w : Nat)
  | ctWord (c : Byte) (w : Nat)
  | ibuf (k : Nat)
  | obuf (k : Nat)
deriving DecidableEq, Repr

/-- R61's regions for an aligned 32-bit access; `none` for an unmapped or misaligned address and for an unlisted offset
of the register block (R62, R63). -/
def targetOf (c : Config) (a : Addr) : Option Target :=
  let n := a.toNat
  if n % 4 ≠ 0 then none
  else if n < 0x100 then (Reg.ofOffset n).map .reg
  else if 0x010000 ≤ n ∧ n < 0x013FE0 then
    some (.nodeWord (nodeIx ((n - 0x010000) / 32)) ((n - 0x010000) % 32 / 4))
  else if 0x020000 ≤ n ∧ n < 0x024000 then
    some (.ctWord (BitVec.ofNat 8 ((n - 0x020000) / 64)) ((n - 0x020000) % 64 / 4))
  else if 0x400000 ≤ n ∧ n < 0x400000 + 4 * c.ibufSize then some (.ibuf ((n - 0x400000) / 4))
  else if 0x800000 ≤ n ∧ n < 0x800000 + 4 * c.obufSize then some (.obuf ((n - 0x800000) / 4))
  else none

/-- The target of an access of `size` bytes: a width other than 4 is bad (R62). -/
def accessTarget (c : Config) (a : Addr) (size : Nat) : Option Target :=
  if size = 4 then targetOf c a else none

/-- "the word defined for addr by rule R65..R69" (R64). -/
def Target.value (t : Target) (s : State) : Word :=
  match t with
  | .reg r => r.value s
  | .nodeWord i w => (s.nodeAt i).word w
  | .ctWord c w => (s.ctAt c).word w
  | .ibuf k => zext32 (s.ibufByte k)
  | .obuf k => zext32 (s.obufByte k)

/-! ## Accesses -/

/-- A read's word goes back to the host (R64). -/
def State.returnWord (s : State) (v : Word) : State := { s with reads := s.reads ++ [v] }

/-- MemRead (R64): a bad read returns 0 and raises BAD_ACCESS(addr, 0) (R63). -/
def busRead (a : Addr) (size : Nat) (s : State) : State :=
  match accessTarget s.cfg a size with
  | some t => s.returnWord (t.value s)
  | none => (raiseBus .badAccess (zext32 a) 0 s).returnWord 0

/-- A CMD write (R24, R96): the command of the word runs to completion. Each command but SRST and CLRFAULT starts with the
faulted-state drop of R245; here it stands before ILLEGAL_COMMAND, as R247 orders them. -/
def cmdWrite (w : Word) (s : State) : Result :=
  match decode w with
  | .ok i => exec i s
  | .error _ => unlessFaulted s fun s => .next (raise .illegalCommand 0 0 w s)

/-- An ILEN write (R43, R246): a value above IBUF_SIZE is refused. -/
def ilenWrite (v : Word) (s : State) : State :=
  if s.cfg.ibufSize < v.toNat then raiseBus .badArgument v (BitVec.ofNat 32 s.cfg.ibufSize) s
  else { s with ilen := v.extractLsb' 0 21 }

/-- A bad write: BAD_ACCESS(addr, 1), no other effect (R63). -/
def badWrite (a : Addr) (s : State) : State := raiseBus .badAccess (zext32 a) 1 s

/-- MemWrite (R64): what a write of `v` to its target does (R65, R69); a write to a read-only register or window is bad
(R63). -/
def busWrite (a : Addr) (size : Nat) (v : Word) (s : State) : Result :=
  match accessTarget s.cfg a size with
  | some (.reg .cmd) => cmdWrite v s
  | some (.reg .arg) => .next { s with arg := v }
  | some (.reg .ilen) => .next (ilenWrite v s)
  | some (.ibuf k) => .next (s.setIbuf k (v.extractLsb' 0 8))
  | some (.reg _) => .next (badWrite a s)
  | some (.nodeWord _ _) => .next (badWrite a s)
  | some (.ctWord _ _) => .next (badWrite a s)
  | some (.obuf _) => .next (badWrite a s)
  | none => .next (badWrite a s)

/-- One event on HUFCORE's inputs. -/
def busOp (op : BusOp) (s : State) : Result :=
  match op with
  | .read a size => .next (busRead a size s)
  | .write a size v => busWrite a size v s
  | .hardwareReset => .next (hardReset s)

/-- The host's CMD write of a command word (R100). -/
def BusOp.command (w : Word) : BusOp := .write 0x010 4 w

end Sys2Proof.Machine
end

