-- ==== Sys2Proof/Machine/Step.lean ====
section
/-! DEFINITION. One step: the host's next access, done whole ("HUFCORE has no step of its own: every state change happens
inside a host access", spec/00_scope.md R13; "Every access is single-copy atomic", spec/20_memory.md R64). With no access
left HUFCORE is idle and "keeps all state while idle" (R256). -/

namespace Sys2Proof.Machine

/-- The next host access, or idling. -/
def step (s : State) : Host.Outcome State Fault Refusal :=
  match s.bus with
  | [] => .next s
  | op :: rest => busOp op { s with bus := rest }

/-- `s` with a host that next writes the command word `w` to CMD: HUFCORE fetches nothing (R11), a command is what the host
writes to CMD (R24). The bits above `nbits` are 0 (notes/assumptions/3.md). -/
def State.withFetchWord (s : State) (nbits w : Nat) : State :=
  { s with bus := BusOp.command (BitVec.ofNat 32 (w % 2 ^ nbits)) :: s.bus }

end Sys2Proof.Machine
end

