-- ==== Sys2Proof/WellFormed.lean ====
section
/-! DEFINITION. The checks a term of the model must pass. The parameters have the ranges of spec/00_scope.md R7. A command
needs no check of its own: its operands are typed at the width of their fields (R94), so every `Instr` is well formed; the
words that name no command are refused by the decoder (R97). -/

namespace Sys2Proof

/-- COUNT_BITS is "1..32" (R7). -/
def Config.countBitsOk (c : Config) : Bool := 1 ≤ c.countBits && c.countBits ≤ 32

/-- IBUF_SIZE is "2..2^20" (R7). -/
def Config.ibufSizeOk (c : Config) : Bool := 2 ≤ c.ibufSize && c.ibufSize ≤ 2 ^ 20

/-- OBUF_SIZE is "2..2^20" (R7). -/
def Config.obufSizeOk (c : Config) : Bool := 2 ≤ c.obufSize && c.obufSize ≤ 2 ^ 20

/-- The parameters are in the ranges of R7. -/
def Config.wf (c : Config) : Bool := c.countBitsOk && c.ibufSizeOk && c.obufSizeOk

/-- A command is well formed when its operand fits its field (R92, R93). -/
def Instr.wf : Instr → Bool
  | .nop | .srst | .clrfault | .freqClr | .build | .deriveTable => true
  | .wopen | .wclose | .ropen | .rbit | .rhasnext | .decodeSym => true
  | .freqInc sym | .freqSet sym | .freqGet sym | .encodeSym sym => sym.toNat < 2 ^ 8
  | .wbit b => b.toNat < 2

end Sys2Proof
end

