-- ==== Sys2Proof/Safety.lean ====
section
/-! DEFINITION. What a good state and a successful run are, in the terms the statements use: the invariants HUFCORE's rules
give (R31, R32, R35 to R43, and the bounds of spec/00_scope.md R17), the outcome of a run (R280), and the abstract views of
the writer, the reader and the tree as bit sequences (R72, R141, R168, R198, R202). Nothing here is used by `step`. -/

namespace Sys2Proof.Machine

/-! ## Invariants -/

/-- Both buffers are in canonical form and list only indices inside the buffer (R39, R43). -/
abbrev BuffersOk (s : State) : Prop :=
  Memory.wf s.ibuf = true ∧ Memory.wf s.obuf = true ∧ Memory.below s.ibuf s.cfg.ibufSize = true ∧
    Memory.below s.obuf s.cfg.obufSize = true

/-- Every count fits COUNT_BITS (R29). -/
abbrev CountsOk (s : State) : Prop := ∀ c : Byte, (s.freqAt c).toNat ≤ countMax s.cfg

/-- With no fault recorded the other fault registers are 0 (R28, R232), and the two codes R241 never raises are not there. -/
abbrev FaultRecordOk (s : State) : Prop :=
  (s.fault = .noFault → s.faultInfo0 = 0 ∧ s.faultInfo1 = 0 ∧ s.faultCmd = 0) ∧
    s.fault ≠ .emptyInput ∧ s.fault ≠ .ioFailure

/-- The writer's bounds: OLEN ≤ WLIMIT ≤ OBUF_SIZE, WACC is 0 from bit WN on, and no bit is pending in an idle or a closed
writer (R37, R38, R165). -/
abbrev WriterOk (s : State) : Prop :=
  s.olen.toNat ≤ s.wlimit.toNat ∧ s.wlimit.toNat ≤ s.cfg.obufSize ∧ s.wacc.toNat < 2 ^ s.wn.toNat ∧
    (s.wstate = .idle ∨ s.wstate = .closed → s.wn = 0)

/-- The reader's bounds (R17, R40, R41, R43, R193): the window of an open reader lies inside the frame; outside final-byte
mode at least one bit of CUR is left and the afterNext byte is a frame byte; in final-byte mode NXT is the trailing byte, at
most 8, and REM counts down from it. -/
abbrev ReaderOk (s : State) : Prop :=
  s.ilen.toNat ≤ s.cfg.ibufSize ∧ s.rlen.toNat ≤ s.cfg.ibufSize ∧ s.rem.toNat ≤ 8 ∧
    (s.rstate = .opened → s.aftv = true → 1 ≤ s.rem.toNat ∧ s.rbase.toNat + 3 ≤ s.rlen.toNat) ∧
    (s.rstate = .opened → s.aftv = false →
      s.rbase.toNat + 2 = s.rlen.toNat ∧ s.aft = 0 ∧ s.nxt.toNat ≤ 8 ∧ s.rem.toNat ≤ s.nxt.toNat)

/-- A child link to a lower index: BUILD joins nodes that exist already (R132, R134). -/
def linksBelow (i : NodeIx) (l : Option NodeIx) : Bool :=
  match l with
  | none => false
  | some c => c < i

/-- The layout of NODE that BUILD leaves (R132, R133, R135): leaves first, then internal nodes, whose children have lower
indices, then UNUSED records; the degenerate tree's root has no right child; ROOT is the last node. -/
abbrev ValidLayout (s : State) : Prop :=
  1 ≤ s.nsym.toNat ∧ s.nsym.toNat ≤ 256 ∧
    s.nnodes.toNat = (if s.nsym.toNat = 1 then 2 else 2 * s.nsym.toNat - 1) ∧ s.root.val + 1 = s.nnodes.toNat ∧
    (∀ i : NodeIx, i.val < s.nsym.toNat →
      (s.nodeAt i).kind = .leaf ∧ (s.nodeAt i).left = none ∧ (s.nodeAt i).right = none) ∧
    (∀ i : NodeIx, s.nsym.toNat ≤ i.val → i.val < s.nnodes.toNat →
      (s.nodeAt i).kind = .internal ∧ (s.nodeAt i).sym = 0 ∧ linksBelow i (s.nodeAt i).left = true ∧
        if s.nsym.toNat = 1 then (s.nodeAt i).right = none else linksBelow i (s.nodeAt i).right = true) ∧
    (∀ i : NodeIx, s.nnodes.toNat ≤ i.val → s.nodeAt i = NodeRec.unused)

/-- The tree registers, the arena and the cursor agree with TSTATE (R30, R32, R34, R136). -/
abbrev TreeOk (s : State) : Prop :=
  (s.tstate = .none → s.root = 0 ∧ s.nnodes = 0 ∧ s.nsym = 0 ∧ s.cursor = 0 ∧ s.tvalid = false ∧
    ∀ i : NodeIx, s.nodeAt i = NodeRec.unused) ∧
  (s.tstate = .empty → s.root = 0 ∧ s.nnodes = 1 ∧ s.nsym = 0 ∧ s.cursor = 0 ∧
    s.nodeAt 0 = NodeRec.internalOf 0 none none ∧ ∀ i : NodeIx, i ≠ 0 → s.nodeAt i = NodeRec.unused) ∧
  (s.tstate = .valid → ValidLayout s ∧ (s.nodeAt s.cursor).kind = .internal)

/-- Every aggregate frequency fits FREQ_BITS = COUNT_BITS + 8 (R7, R30, R138). -/
abbrev AggregatesOk (s : State) : Prop := ∀ i : NodeIx, (s.nodeAt i).freq.toNat < 2 ^ (s.cfg.countBits + 8)

/-- What every reachable state satisfies: the parameters are legal, Q is empty between commands (R33), and each unit is
inside its bounds. -/
abbrev Inv (s : State) : Prop :=
  s.cfg.wf = true ∧ s.q = [] ∧ BuffersOk s ∧ CountsOk s ∧ FaultRecordOk s ∧ WriterOk s ∧ ReaderOk s ∧ TreeOk s ∧
    AggregatesOk s

/-! ## The tree (R31) -/

/-- Every child link of the records in use. -/
def State.links (s : State) : List NodeIx :=
  (List.range s.nnodes.toNat).flatMap fun n =>
    (s.nodeAt (nodeIx n)).left.toList ++ (s.nodeAt (nodeIx n)).right.toList

/-- R31 (a) and (b) hold by `ValidLayout`; this is R31 (c) and the first half of (d): every node but ROOT is the child of
exactly one node, ROOT of none, and the leaves hold pairwise distinct symbols. -/
abbrev TreeShape (s : State) : Prop :=
  s.tstate = .valid →
    (∀ i : NodeIx, i.val < s.nnodes.toNat → s.links.count i = if i = s.root then 0 else 1) ∧
    (∀ i j : NodeIx, i.val < s.nsym.toNat → j.val < s.nsym.toNat →
      (s.nodeAt i).sym = (s.nodeAt j).sym → i = j)

/-- The node a path leads to from node `n`: RIGHT for 1, LEFT for 0 (R202). -/
def State.walk (s : State) : NodeIx → List Bool → Option NodeIx
  | n, [] => some n
  | n, b :: p =>
    match s.childOf n b with
    | none => none
    | some c => s.walk c p

/-- The path leads from ROOT to a leaf that holds symbol `c`. -/
def State.leadsTo (s : State) (p : List Bool) (c : Byte) : Bool :=
  match s.walk s.root p with
  | none => false
  | some i => (s.nodeAt i).kind = .leaf && (s.nodeAt i).sym = c

/-- CT against the tree (R35, R36, R141): empty while TVALID = 0; otherwise the entries of the leaf symbols are valid, each
holding its leaf's path, and every other entry is empty. -/
abbrev TableOk (s : State) : Prop :=
  (∀ c : Byte, (s.ctAt c).valid = false → s.ctAt c = CtEntry.empty) ∧
    (∀ c : Byte, (s.ctAt c).valid = true →
      s.tvalid = true ∧ s.tstate = .valid ∧ 1 ≤ (s.ctAt c).len.toNat ∧
        (s.ctAt c).code.toNat < 2 ^ (s.ctAt c).len.toNat ∧ s.leadsTo (s.ctAt c).bits c = true) ∧
    (s.tvalid = true → ∀ i : NodeIx, (s.nodeAt i).kind = .leaf → (s.ctAt (s.nodeAt i).sym).valid = true)

/-! ## Bit sequences -/

/-- The first `n` bits of a frame byte, bit 7 first (R71). -/
def topBits (n : Nat) (v : Byte) : List Bool := (List.range n).map fun i => v.getLsbD (7 - i)

/-- The bits a frame carries (R72): all eight of each content byte but the last, and as many of the last one as the
trailing byte says. Bytes whose last is above 8 are no frame; of them these are the bits a reader takes until it finds that
out, the last content byte's not among them (R195, R199). -/
def frameBits : List Byte → List Bool
  | [] => []
  | [_] => []
  | [d, c] => if c.toNat ≤ 8 then topBits c.toNat d else []
  | d :: e :: f :: rest => topBits 8 d ++ frameBits (e :: f :: rest)

/-- The bytes emitted since the last WOPEN: OBUF[0..OLEN−1] (R38). -/
def State.outputFrame (s : State) : List Byte := (List.range s.olen.toNat).map s.obufByte

/-- The frame the host has placed: IBUF[0..ILEN−1] (R43). -/
def State.inputFrame (s : State) : List Byte := (List.range s.ilen.toNat).map s.ibufByte

/-- The bits pending in WACC, oldest first (R37). -/
def State.pendingBits (s : State) : List Bool :=
  (List.range s.wn.toNat).map fun i => s.wacc.getLsbD (s.wn.toNat - 1 - i)

/-- Every bit passed to writeBitCore since WOPEN, in order (R168). -/
def State.writerBits (s : State) : List Bool := s.outputFrame.flatMap (topBits 8) ++ s.pendingBits

/-- The frame bytes after CUR that an open reader still has: NXT, then AFT and the bytes of IBUF it has not fetched when
there are any (R40, R80, R192). -/
def State.bytesAhead (s : State) : List Byte :=
  if s.aftv then
    s.nxt :: s.aft ::
      (List.range (s.rlen.toNat - (s.rbase.toNat + 3))).map fun j => s.ibufByte (s.rbase.toNat + 3 + j)
  else [s.nxt]

/-- The bits an open reader still has to deliver: what is left of CUR, then the bits of the bytes ahead (R193, R198). -/
def State.readerBits (s : State) : List Bool := topBits s.rem.toNat s.cur ++ frameBits s.bytesAhead

/-- The frame's trailing byte as the open reader sees it or will see it (R193, R199). -/
def State.trailingByte (s : State) : Byte := s.bytesAhead.getLastD 0

/-- The reader's next bit is the one whose advance raises FORMAT: the last of CUR, with a trailing byte above 8 in AFT
(R195, R199 (b)). -/
abbrev State.formatNext (s : State) : Prop :=
  s.aftv = true ∧ s.rem = 1 ∧ s.rbase.toNat + 3 = s.rlen.toNat ∧ 8 < s.aft.toNat

/-- How a decode of a bit sequence from a node ends (R200 to R205). -/
inductive Decoded where
  /-- a leaf was reached: its symbol, and the bits left -/
  | symbol (c : Byte) (rest : List Bool)
  /-- the bits ended at this node -/
  | ended (at_ : NodeIx)
  /-- this node has no child for this bit; the bits left -/
  | noChild (at_ : NodeIx) (b : Bool) (rest : List Bool)
deriving DecidableEq, Repr

/-- One symbol's decode, bit by bit from a node (R200, R202). -/
def State.decodeFrom (s : State) : NodeIx → List Bool → Decoded
  | n, [] => .ended n
  | n, b :: bs =>
    match s.childOf n b with
    | none => .noChild n b bs
    | some c => if (s.nodeAt c).kind = .leaf then .symbol (s.nodeAt c).sym bs else s.decodeFrom c bs

/-! ## Words and addresses the rules single out -/

/-- The words R97 calls illegal: OP outside R95's column, or a non-zero bit in a field that must be 0 (RSV, the OPD of
format N, OPD[7:1] of format B). -/
abbrev illegalWord (w : Word) : Prop :=
  w.extractLsb' 24 8 ∉ [0x00#8, 0x01#8, 0x02#8, 0x10#8, 0x11#8, 0x12#8, 0x13#8, 0x20#8, 0x21#8, 0x30#8, 0x31#8, 0x32#8,
      0x33#8, 0x40#8, 0x41#8, 0x42#8, 0x43#8] ∨
    w.extractLsb' 8 16 ≠ 0 ∨
    (w.extractLsb' 24 8 ∉ [0x11#8, 0x12#8, 0x13#8, 0x33#8, 0x31#8] ∧ w.extractLsb' 0 8 ≠ 0) ∨
    (w.extractLsb' 24 8 = 0x31#8 ∧ w.extractLsb' 1 7 ≠ 0)

/-- The addresses a 32-bit read may use (R21, R61, R62). -/
abbrev readableAddr (c : Config) (n : Nat) : Prop :=
  n % 4 = 0 ∧
    (n ≤ 0x058 ∨ (0x010000 ≤ n ∧ n ≤ 0x013FDF) ∨ (0x020000 ≤ n ∧ n ≤ 0x023FFF) ∨
      (0x400000 ≤ n ∧ n < 0x400000 + 4 * c.ibufSize) ∨ (0x800000 ≤ n ∧ n < 0x800000 + 4 * c.obufSize))

/-- The addresses a 32-bit write may use: CMD, ARG, ILEN and the IBUF window (R21, R61, R62). -/
abbrev writableAddr (c : Config) (n : Nat) : Prop :=
  n % 4 = 0 ∧ (n = 0x010 ∨ n = 0x014 ∨ n = 0x038 ∨ (0x400000 ≤ n ∧ n < 0x400000 + 4 * c.ibufSize))

/-! ## Runs -/

/-- "A run is successful iff FAULT = 0 at its end" (R280). -/
abbrev State.succeeded (s : State) : Prop := s.fault = .noFault

/-- "For a compress run, success also requires WSTATE = CLOSED" (R280); only then is OBUF[0..OLEN−1] a frame (R73). -/
abbrev State.compressed (s : State) : Prop := s.succeeded ∧ s.wstate = .closed

/-- The host's next access is a CMD write of a command that `P` holds of. -/
def State.runsCommand (s : State) (P : Instr → Prop) : Prop :=
  ∃ i rest, s.bus = BusOp.command (encode i) :: rest ∧ P i

/-- A hardware reset comes next. -/
def State.resetsNext (s : State) : Prop := ∃ rest, s.bus = .hardwareReset :: rest

end Sys2Proof.Machine
end

