-- ==== Sys2Proof/Certificates/Slice0/Obligations.lean ====
section
/-! DEFINITION. The statements for the provers, from the numbered rules of spec/. Each docstring names the rule. Where a
statement speaks of every state, its hypotheses name what the rule presupposes: no fault recorded (R245), and the
invariants of Safety.lean, which `ResetHasInvariant` and `StepKeepsInvariant` state on their own. The parameters are
arbitrary throughout (R7). -/

open Sys2Proof Sys2Proof.Machine

/-! ## Encoding and decoding -/

/-- R96, R97: a word names a command exactly when it is that command's encoding, with every operand at every value. -/
def Obligations.DecodeAcceptsExactlyEncodedWords : Prop :=
  ∀ (w : Word) (i : Instr), decode w = .ok i ↔ w = encode i

/-- R102: the words the spec writes out, and what they decode to. -/
def Obligations.WrittenOutWordsDecode : Prop :=
  (decode 0x00000000 = .ok .nop ∧ decode 0x01000000 = .ok .srst ∧ decode 0x02000000 = .ok .clrfault ∧
    decode 0x10000000 = .ok .freqClr ∧ decode 0x11000061 = .ok (.freqInc 0x61) ∧
    decode 0x12000061 = .ok (.freqSet 0x61) ∧ decode 0x13000061 = .ok (.freqGet 0x61) ∧
    decode 0x20000000 = .ok .build ∧ decode 0x21000000 = .ok .deriveTable ∧ decode 0x30000000 = .ok .wopen ∧
    decode 0x31000000 = .ok (.wbit false) ∧ decode 0x31000001 = .ok (.wbit true) ∧
    decode 0x32000000 = .ok .wclose ∧ decode 0x33000061 = .ok (.encodeSym 0x61) ∧
    decode 0x40000000 = .ok .ropen ∧ decode 0x41000000 = .ok .rbit ∧ decode 0x42000000 = .ok .rhasnext ∧
    decode 0x43000000 = .ok .decodeSym) ∧
  (encode .nop = 0x00000000 ∧ encode .srst = 0x01000000 ∧ encode .clrfault = 0x02000000 ∧
    encode .freqClr = 0x10000000 ∧ encode (.freqInc 0x61) = 0x11000061 ∧ encode (.freqSet 0x61) = 0x12000061 ∧
    encode (.freqGet 0x61) = 0x13000061 ∧ encode .build = 0x20000000 ∧ encode .deriveTable = 0x21000000 ∧
    encode .wopen = 0x30000000 ∧ encode (.wbit false) = 0x31000000 ∧ encode (.wbit true) = 0x31000001 ∧
    encode .wclose = 0x32000000 ∧ encode (.encodeSym 0x61) = 0x33000061 ∧ encode .ropen = 0x40000000 ∧
    encode .rbit = 0x41000000 ∧ encode .rhasnext = 0x42000000 ∧ encode .decodeSym = 0x43000000)

/-- R97, with R96: an illegal word raises ILLEGAL_COMMAND and has no other effect; every other word is the encoding of one
command, which the step runs. -/
def Obligations.IllegalWordsRaiseIllegalCommand : Prop :=
  ∀ (s : State) (w : Word) (rest : List BusOp), s.bus = BusOp.command w :: rest → s.fault = .noFault →
    (illegalWord w →
      step s = .next { s with
        bus := rest, fault := .illegalCommand, faultInfo0 := 0, faultInfo1 := 0, faultCmd := w }) ∧
    (¬ illegalWord w →
      ∃ i, w = encode i ∧ (∀ j, w = encode j → j = i) ∧ step s = exec i { s with bus := rest })

/-! ## Steps and host accesses -/

/-- R24, R64, R256: when the host's next access is a CMD write of a word that decodes to command `i`, the step is `exec i` at
the state from which that access is gone; with no access left HUFCORE is idle and keeps all state. -/
def Obligations.StepRunsDecodedCommand : Prop :=
  (∀ (s : State) (w : Word) (rest : List BusOp) (i : Instr), s.bus = BusOp.command w :: rest → decode w = .ok i →
    step s = exec i { s with bus := rest }) ∧
  ∀ s : State, s.bus = [] → step s = .next s

/-- R245: while FAULT ≠ 0 a CMD write of any word but SRST and CLRFAULT changes nothing, those two still run, and every
other access works normally. -/
def Obligations.CommandsAreDroppedWhileFaulted : Prop :=
  ∀ (s : State) (rest : List BusOp), s.fault ≠ .noFault →
    (∀ w, s.bus = BusOp.command w :: rest → w ≠ 0x01000000 → w ≠ 0x02000000 →
      step s = .next { s with bus := rest }) ∧
    (s.bus = BusOp.command 0x01000000 :: rest → ∃ t, step s = .next t ∧ t.fault = .noFault) ∧
    (s.bus = BusOp.command 0x02000000 :: rest → ∃ t, step s = .next t ∧ t.fault = .noFault) ∧
    (∀ a t, s.bus = .read a 4 :: rest → targetOf s.cfg a = some t →
      step s = .next { s with bus := rest, reads := s.reads ++ [t.value s] }) ∧
    (∀ v, s.bus = .write 0x014 4 v :: rest → step s = .next { s with bus := rest, arg := v }) ∧
    (∀ v, s.bus = .write 0x038 4 v :: rest → v.toNat ≤ s.cfg.ibufSize →
      step s = .next { s with bus := rest, ilen := v.extractLsb' 0 21 }) ∧
    (∀ k v, s.cfg.wf = true → k < s.cfg.ibufSize →
      s.bus = .write (BitVec.ofNat 24 (0x400000 + 4 * k)) 4 v :: rest →
        ∃ t, step s = .next t ∧ t = { s with bus := rest, ibuf := t.ibuf } ∧
          t.ibufByte k = v.extractLsb' 0 8 ∧ ∀ j, j ≠ k → t.ibufByte j = s.ibufByte j)

/-- R22, R23: ID and the three configuration registers read their constants, a write to one is a bad access, and no step
changes the configuration. -/
def Obligations.ConfigurationRegistersAreConstant : Prop :=
  ∀ s : State,
    (∀ rest, s.bus = .read 0x000 4 :: rest →
      step s = .next { s with bus := rest, reads := s.reads ++ [0x48554631] }) ∧
    (∀ rest, s.bus = .read 0x004 4 :: rest →
      step s = .next { s with bus := rest, reads := s.reads ++ [BitVec.ofNat 32 s.cfg.countBits] }) ∧
    (∀ rest, s.bus = .read 0x008 4 :: rest →
      step s = .next { s with bus := rest, reads := s.reads ++ [BitVec.ofNat 32 s.cfg.ibufSize] }) ∧
    (∀ rest, s.bus = .read 0x00C 4 :: rest →
      step s = .next { s with bus := rest, reads := s.reads ++ [BitVec.ofNat 32 s.cfg.obufSize] }) ∧
    (∀ a v rest, a = 0x000 ∨ a = 0x004 ∨ a = 0x008 ∨ a = 0x00C → s.bus = .write a 4 v :: rest →
      (s.fault = .noFault →
        step s = .next { s with
          bus := rest, fault := .badAccess, faultInfo0 := a.setWidth 32, faultInfo1 := 1, faultCmd := 0 }) ∧
      (s.fault ≠ .noFault → step s = .next { s with bus := rest })) ∧
    (∀ t, step s = .next t → t.cfg = s.cfg)

/-- R21, R27, R44, R45, R241: the fields of the STATUS word, bit by bit, and what a read of each state register returns, with
the codes of FAULT and the layout of WACC and RWIN. -/
def Obligations.StatusAndStateRegisters : Prop :=
  (∀ s : State,
    s.status.extractLsb' 0 2 = (match s.tstate with | .none => 0#2 | .empty => 1#2 | .valid => 2#2) ∧
    s.status.getLsbD 2 = s.tvalid ∧
    s.status.getLsbD 3 = false ∧
    s.status.extractLsb' 4 2 =
      (match s.wstate with | .idle => 0#2 | .opened => 1#2 | .closed => 2#2 | .failed => 3#2) ∧
    s.status.extractLsb' 6 2 = (match s.rstate with | .idle => 0#2 | .opened => 1#2 | .failed => 2#2) ∧
    (s.status.getLsbD 8 = true ↔ s.rstate = .opened ∧ (s.aftv = true ∨ 0 < s.rem.toNat)) ∧
    (s.status.getLsbD 9 = true ↔ s.rstate = .opened ∧ s.aftv = false) ∧
    (s.status.getLsbD 10 = true ↔ s.tstate = .valid ∧ s.cursor ≠ s.root) ∧
    (s.status.getLsbD 11 = true ↔ s.fault ≠ .noFault) ∧
    s.status.extractLsb' 12 20 = 0 ∧
    ∀ rest, s.bus = .read 0x01C 4 :: rest →
      step s = .next { s with bus := rest, reads := s.reads ++ [s.status] }) ∧
  ∀ (s : State) (rest : List BusOp) (a : Addr), s.bus = .read a 4 :: rest →
    ∀ v : Word,
      ((a = 0x010 ∧ v = 0) ∨ (a = 0x014 ∧ v = s.arg) ∨ (a = 0x018 ∧ v = s.result) ∨
        (a = 0x020 ∧ v = (match s.fault with
          | .noFault => 0x00#32 | .format => 0x01#32 | .endOfStream => 0x02#32 | .emptyInput => 0x03#32
          | .capacityExceeded => 0x04#32 | .ioFailure => 0x05#32 | .illegalCommand => 0x06#32 | .badAccess => 0x07#32
          | .badArgument => 0x08#32 | .writerState => 0x09#32 | .readerState => 0x0A#32 | .noTree => 0x0B#32
          | .noTable => 0x0C#32 | .unknownSymbol => 0x0D#32 | .noChild => 0x0E#32 | .countOverflow => 0x0F#32)) ∨
        (a = 0x024 ∧ v = s.faultInfo0) ∨
        (a = 0x028 ∧ v = s.faultInfo1) ∨ (a = 0x02C ∧ v = s.faultCmd) ∨
        (a = 0x030 ∧ v = s.olen.setWidth 32) ∨ (a = 0x034 ∧ v = s.wlimit.setWidth 32) ∨
        (a = 0x038 ∧ v = s.ilen.setWidth 32) ∨ (a = 0x03C ∧ v = s.rbase.setWidth 32) ∨
        (a = 0x040 ∧ v = s.rlen.setWidth 32) ∨ (a = 0x044 ∧ v = BitVec.ofNat 32 s.root.val) ∨
        (a = 0x048 ∧ v = s.nnodes.setWidth 32) ∨ (a = 0x04C ∧ v = s.nsym.setWidth 32) ∨
        (a = 0x050 ∧ v = BitVec.ofNat 32 s.cursor.val) ∨
        (a = 0x054 ∧ v = (0#21 ++ s.wn) ++ s.wacc) ∨
        (a = 0x058 ∧
          v = (((((0#3 ++ BitVec.ofBool s.aftv) ++ s.rem) ++ s.aft) ++ s.nxt) ++ s.cur : BitVec 32))) →
      step s = .next { s with bus := rest, reads := s.reads ++ [v] }

/-- R62, R63: a misaligned, wrong-width or unmapped access, a read of an unlisted offset and a write to a read-only place
change nothing but the fault registers, which keep an earlier fault; a bad read returns 0; a good read raises nothing and
changes no state of HUFCORE. -/
def Obligations.BadAccessesAreRefused : Prop :=
  ∀ (s : State) (a : Addr) (size : Nat) (rest : List BusOp),
    (s.bus = .read a size :: rest → ¬ (size = 4 ∧ readableAddr s.cfg a.toNat) →
      (s.fault = .noFault →
        step s = .next { s with
          bus := rest, reads := s.reads ++ [0], fault := .badAccess, faultInfo0 := a.setWidth 32, faultInfo1 := 0,
          faultCmd := 0 }) ∧
      (s.fault ≠ .noFault → step s = .next { s with bus := rest, reads := s.reads ++ [0] })) ∧
    (∀ v, s.bus = .write a size v :: rest → ¬ (size = 4 ∧ writableAddr s.cfg a.toNat) →
      (s.fault = .noFault →
        step s = .next { s with
          bus := rest, fault := .badAccess, faultInfo0 := a.setWidth 32, faultInfo1 := 1, faultCmd := 0 }) ∧
      (s.fault ≠ .noFault → step s = .next { s with bus := rest })) ∧
    (s.bus = .read a size :: rest → size = 4 ∧ readableAddr s.cfg a.toNat →
      ∃ v, step s = .next { s with bus := rest, reads := s.reads ++ [v] })

/-- R65, R66: the IBUF window is read and written byte by byte at any time, even while FAULT ≠ 0; the OBUF window reads any
byte of OBUF, whatever OLEN is, and cannot be written. -/
def Obligations.BufferWindowsHoldOneByteAWord : Prop :=
  ∀ (s : State) (k : Nat) (rest : List BusOp), s.cfg.wf = true →
    (k < s.cfg.ibufSize → s.bus = .read (BitVec.ofNat 24 (0x400000 + 4 * k)) 4 :: rest →
      step s = .next { s with bus := rest, reads := s.reads ++ [(s.ibufByte k).setWidth 32] }) ∧
    (∀ v, k < s.cfg.ibufSize → s.bus = .write (BitVec.ofNat 24 (0x400000 + 4 * k)) 4 v :: rest →
      ∃ t, step s = .next t ∧ t = { s with bus := rest, ibuf := t.ibuf } ∧ t.ibufByte k = v.extractLsb' 0 8 ∧
        ∀ j, j ≠ k → t.ibufByte j = s.ibufByte j) ∧
    (k < s.cfg.obufSize → s.bus = .read (BitVec.ofNat 24 (0x800000 + 4 * k)) 4 :: rest →
      step s = .next { s with bus := rest, reads := s.reads ++ [(s.obufByte k).setWidth 32] }) ∧
    (∀ v, k < s.cfg.obufSize → s.bus = .write (BitVec.ofNat 24 (0x800000 + 4 * k)) 4 v :: rest →
      (s.fault = .noFault →
        step s = .next { s with
          bus := rest, fault := .badAccess, faultInfo0 := BitVec.ofNat 32 (0x800000 + 4 * k), faultInfo1 := 1,
          faultCmd := 0 }) ∧
      (s.fault ≠ .noFault → step s = .next { s with bus := rest }))

/-- R46, R47, R67, R68: word `w` of node record `i`, field by field, an UNUSED record reading as zero words; and word `w` of
CT[c], with bit j of CODE at bit j mod 32 of word 1 + j / 32. -/
def Obligations.NodeAndCodeTableWindows : Prop :=
  (∀ (s : State) (i : NodeIx) (w : Nat) (rest : List BusOp), w < 8 →
    s.bus = .read (BitVec.ofNat 24 (0x010000 + 32 * i.val + 4 * w)) 4 :: rest →
      ∃ v : Word, step s = .next { s with bus := rest, reads := s.reads ++ [v] } ∧
        (w = 0 →
          v.extractLsb' 0 2 = (match (s.nodeAt i).kind with | .unused => 0#2 | .leaf => 1#2 | .internal => 2#2) ∧
            v.extractLsb' 2 6 = 0 ∧ v.extractLsb' 8 8 = (s.nodeAt i).sym ∧ v.extractLsb' 16 16 = 0) ∧
        (w = 1 →
          v.getLsbD 31 = (s.nodeAt i).left.isSome ∧ v.extractLsb' 9 22 = 0 ∧
            (v.extractLsb' 0 9).toNat = ((s.nodeAt i).left.map Fin.val).getD 0) ∧
        (w = 2 →
          v.getLsbD 31 = (s.nodeAt i).right.isSome ∧ v.extractLsb' 9 22 = 0 ∧
            (v.extractLsb' 0 9).toNat = ((s.nodeAt i).right.map Fin.val).getD 0) ∧
        (w = 3 → v = (s.nodeAt i).freq.extractLsb' 0 32) ∧
        (w = 4 → v = ((s.nodeAt i).freq.extractLsb' 32 8).setWidth 32) ∧
        (5 ≤ w → v = 0) ∧
        (s.nodeAt i = NodeRec.unused → v = 0)) ∧
  ∀ (s : State) (c : Byte) (w : Nat) (rest : List BusOp), w < 16 →
    s.bus = .read (BitVec.ofNat 24 (0x020000 + 64 * c.toNat + 4 * w)) 4 :: rest →
      ∃ v : Word, step s = .next { s with bus := rest, reads := s.reads ++ [v] } ∧
        (w = 0 →
          v.getLsbD 31 = (s.ctAt c).valid ∧ v.extractLsb' 8 23 = 0 ∧ v.extractLsb' 0 8 = (s.ctAt c).len) ∧
        (1 ≤ w → w ≤ 8 → ∀ j, j < 32 → v.getLsbD j = (s.ctAt c).code.getLsbD (32 * (w - 1) + j)) ∧
        (9 ≤ w → v = 0)

/-- R25, R43, R246: writes to ARG and to ILEN; an ILEN write above IBUF_SIZE is refused. -/
def Obligations.ArgAndIlenWrites : Prop :=
  ∀ (s : State) (v : Word) (rest : List BusOp),
    (s.bus = .write 0x014 4 v :: rest → step s = .next { s with bus := rest, arg := v }) ∧
    (s.bus = .write 0x038 4 v :: rest →
      (v.toNat ≤ s.cfg.ibufSize → step s = .next { s with bus := rest, ilen := v.extractLsb' 0 21 }) ∧
      (s.cfg.ibufSize < v.toNat → s.fault = .noFault →
        step s = .next { s with
          bus := rest, fault := .badArgument, faultInfo0 := v, faultInfo1 := BitVec.ofNat 32 s.cfg.ibufSize,
          faultCmd := 0 }) ∧
      (s.cfg.ibufSize < v.toNat → s.fault ≠ .noFault → step s = .next { s with bus := rest }))

/-! ## Which access may change which state -/

/-- R28, R244: once a fault is recorded, only SRST, CLRFAULT and a hardware reset change the record. -/
def Obligations.FirstFaultIsKept : Prop :=
  ∀ s t : State, s.fault ≠ .noFault → step s = .next t →
    (t.fault = s.fault ∧ t.faultInfo0 = s.faultInfo0 ∧ t.faultInfo1 = s.faultInfo1 ∧ t.faultCmd = s.faultCmd) ∨
      s.runsCommand (fun i => i = .srst ∨ i = .clrfault) ∨ s.resetsNext

/-- R25, R26, R29: only the FREQ commands that write the table, SRST and a hardware reset change FREQ; only FREQ.GET, RBIT,
RHASNEXT, DECODE and the resets change RESULT; only an ARG write and the resets change ARG. -/
def Obligations.OnlyTheirWritersChangeFreqResultAndArg : Prop :=
  ∀ s t : State, step s = .next t →
    (t.freq ≠ s.freq →
      s.runsCommand (fun i => i = .freqClr ∨ (∃ c, i = .freqInc c) ∨ (∃ c, i = .freqSet c) ∨ i = .srst) ∨
        s.resetsNext) ∧
    (t.result ≠ s.result →
      s.runsCommand (fun i => (∃ c, i = .freqGet c) ∨ i = .rbit ∨ i = .rhasnext ∨ i = .decodeSym ∨ i = .srst) ∨
        s.resetsNext) ∧
    (t.arg ≠ s.arg →
      (∃ v rest, s.bus = .write 0x014 4 v :: rest) ∨ s.runsCommand (fun i => i = .srst) ∨ s.resetsNext)

/-- R30, R32: only BUILD, SRST and a hardware reset write NODE and the four tree registers. -/
def Obligations.OnlyBuildAndResetsChangeTheTree : Prop :=
  ∀ s t : State, step s = .next t →
    (t.node ≠ s.node ∨ t.tstate ≠ s.tstate ∨ t.root ≠ s.root ∨ t.nnodes ≠ s.nnodes ∨ t.nsym ≠ s.nsym) →
      s.runsCommand (fun i => i = .build ∨ i = .srst) ∨ s.resetsNext

/-- R144, R36: CT and TVALID change only by DERIVE, which rewrites CT, and by BUILD, SRST and a hardware reset, which clear
both. -/
def Obligations.OnlyDeriveBuildAndResetsChangeTheCodeTable : Prop :=
  ∀ s t : State, step s = .next t → (t.ct ≠ s.ct ∨ t.tvalid ≠ s.tvalid) →
    s.runsCommand (fun i => i = .deriveTable) ∨
      ((s.runsCommand (fun i => i = .build ∨ i = .srst) ∨ s.resetsNext) ∧
        (∀ c, t.ctAt c = CtEntry.empty) ∧ t.tvalid = false)

/-- R37, R38, R39: only WOPEN, WBIT, WCLOSE, ENCODE and the resets change the writer; no byte of OBUF changes but by WBIT,
WCLOSE, ENCODE and a hardware reset. -/
def Obligations.OnlyWriterCommandsChangeTheWriter : Prop :=
  ∀ s t : State, step s = .next t →
    ((t.wstate ≠ s.wstate ∨ t.wacc ≠ s.wacc ∨ t.wn ≠ s.wn ∨ t.olen ≠ s.olen ∨ t.wlimit ≠ s.wlimit) →
      s.runsCommand (fun i =>
          i = .wopen ∨ (∃ b, i = .wbit b) ∨ i = .wclose ∨ (∃ c, i = .encodeSym c) ∨ i = .srst) ∨
        s.resetsNext) ∧
    ((∃ k, t.obufByte k ≠ s.obufByte k) →
      s.runsCommand (fun i => (∃ b, i = .wbit b) ∨ i = .wclose ∨ ∃ c, i = .encodeSym c) ∨ s.resetsNext)

/-- R34, R40, R41, R43: only ROPEN, RBIT, DECODE and the resets change the reader; CURSOR changes also by BUILD; ILEN only by
an ILEN write and the resets; no byte of IBUF changes but by a host write and a hardware reset. -/
def Obligations.OnlyReaderCommandsChangeTheReader : Prop :=
  ∀ s t : State, step s = .next t →
    ((t.cur ≠ s.cur ∨ t.nxt ≠ s.nxt ∨ t.aft ≠ s.aft ∨ t.aftv ≠ s.aftv ∨ t.rem ≠ s.rem ∨ t.rstate ≠ s.rstate ∨
        t.rlen ≠ s.rlen ∨ t.rbase ≠ s.rbase) →
      s.runsCommand (fun i => i = .ropen ∨ i = .rbit ∨ i = .decodeSym ∨ i = .srst) ∨ s.resetsNext) ∧
    (t.cursor ≠ s.cursor →
      s.runsCommand (fun i => i = .build ∨ i = .ropen ∨ i = .decodeSym ∨ i = .srst) ∨ s.resetsNext) ∧
    (t.ilen ≠ s.ilen →
      (∃ v rest, s.bus = .write 0x038 4 v :: rest) ∨ s.runsCommand (fun i => i = .srst) ∨ s.resetsNext) ∧
    ((∃ k, t.ibufByte k ≠ s.ibufByte k) →
      (∃ a v rest, s.bus = .write a 4 v :: rest ∧ 0x400000 ≤ a.toNat ∧ a.toNat < 0x400000 + 4 * s.cfg.ibufSize) ∨
        s.resetsNext)

/-! ## Reset and control -/

/-- R50, R271: what a hardware reset leaves, for every choice of the parameters, in every element the rule gives a value;
the buffers' contents are unspecified. -/
def Obligations.HardwareResetLeavesTheResetValues : Prop :=
  ∀ (s : State) (rest : List BusOp), s.bus = .hardwareReset :: rest →
    ∃ t, step s = .next t ∧ t.arg = 0 ∧ t.result = 0 ∧ t.fault = .noFault ∧ t.faultInfo0 = 0 ∧ t.faultInfo1 = 0 ∧
      t.faultCmd = 0 ∧ (∀ c, t.freqAt c = 0) ∧ (∀ i, t.nodeAt i = NodeRec.unused) ∧ t.tstate = .none ∧ t.root = 0 ∧
      t.nnodes = 0 ∧ t.nsym = 0 ∧ t.cursor = 0 ∧ t.q = [] ∧ (∀ c, t.ctAt c = CtEntry.empty) ∧ t.tvalid = false ∧
      t.wstate = .idle ∧ t.wacc = 0 ∧ t.wn = 0 ∧ t.olen = 0 ∧ t.wlimit = 0 ∧ t.rstate = .idle ∧ t.cur = 0 ∧
      t.nxt = 0 ∧ t.aft = 0 ∧ t.aftv = false ∧ t.rem = 0 ∧ t.rlen = 0 ∧ t.rbase = 0 ∧ t.ilen = 0 ∧ t.cfg = s.cfg ∧
      t.status = 0

/-- R231, R50: SRST gives every element its reset value, faulted or not, and keeps the contents of IBUF and OBUF. -/
def Obligations.SrstResetsAllButTheBuffers : Prop :=
  encode .srst = 0x01000000 ∧
  ∀ s : State,
    ∃ t, exec .srst s = .next t ∧ t.arg = 0 ∧ t.result = 0 ∧ t.fault = .noFault ∧ t.faultInfo0 = 0 ∧
      t.faultInfo1 = 0 ∧ t.faultCmd = 0 ∧ (∀ c, t.freqAt c = 0) ∧ (∀ i, t.nodeAt i = NodeRec.unused) ∧
      t.tstate = .none ∧ t.root = 0 ∧ t.nnodes = 0 ∧ t.nsym = 0 ∧ t.cursor = 0 ∧ t.q = [] ∧
      (∀ c, t.ctAt c = CtEntry.empty) ∧ t.tvalid = false ∧ t.wstate = .idle ∧ t.wacc = 0 ∧ t.wn = 0 ∧ t.olen = 0 ∧
      t.wlimit = 0 ∧ t.rstate = .idle ∧ t.cur = 0 ∧ t.nxt = 0 ∧ t.aft = 0 ∧ t.aftv = false ∧ t.rem = 0 ∧ t.rlen = 0 ∧
      t.rbase = 0 ∧ t.ilen = 0 ∧ t.status = 0 ∧ t.cfg = s.cfg ∧ t.bus = s.bus ∧ t.reads = s.reads ∧
      (∀ k, t.ibufByte k = s.ibufByte k) ∧ ∀ k, t.obufByte k = s.obufByte k

/-- R230, R232, R248: NOP changes nothing, and 0x00000001 is not NOP but raises ILLEGAL_COMMAND; CLRFAULT clears the fault
record and nothing else, and with no fault recorded it has no effect. Both run faulted or not. -/
def Obligations.NopAndClrfaultChangeNoUnit : Prop :=
  encode .nop = 0x00000000 ∧ (∀ s : State, exec .nop s = .next s) ∧
  (∀ (s : State) (rest : List BusOp), s.bus = BusOp.command 0x00000001 :: rest → s.fault = .noFault →
    step s = .next { s with
      bus := rest, fault := .illegalCommand, faultInfo0 := 0, faultInfo1 := 0, faultCmd := 0x00000001 }) ∧
  encode .clrfault = 0x02000000 ∧
  (∀ s : State, exec .clrfault s =
    .next { s with fault := .noFault, faultInfo0 := 0, faultInfo1 := 0, faultCmd := 0 }) ∧
  ∀ s : State, Inv s → s.fault = .noFault → exec .clrfault s = .next s

/-! ## FREQ -/

/-- R111: FREQ.CLR empties the table and touches nothing else. -/
def Obligations.FreqClrEmptiesTheTable : Prop :=
  encode .freqClr = 0x10000000 ∧
  ∀ s : State, s.fault = .noFault →
    ∃ t, exec .freqClr s = .next t ∧ (∀ c, t.freqAt c = 0) ∧ t = { s with freq := t.freq }

/-- R112: FREQ.INC adds 1 to one count; a count at 2^COUNT_BITS − 1 raises COUNT_OVERFLOW(sym, count) and stays. -/
def Obligations.FreqIncCountsOrOverflows : Prop :=
  ∀ (s : State) (sym : Byte), s.fault = .noFault → Inv s →
    encode (.freqInc sym) = 0x11000000#32 ||| sym.setWidth 32 ∧
    ((s.freqAt sym).toNat ≠ 2 ^ s.cfg.countBits - 1 →
      ∃ t, exec (.freqInc sym) s = .next t ∧ (t.freqAt sym).toNat = (s.freqAt sym).toNat + 1 ∧
        (∀ c, c ≠ sym → t.freqAt c = s.freqAt c) ∧ t = { s with freq := t.freq }) ∧
    ((s.freqAt sym).toNat = 2 ^ s.cfg.countBits - 1 →
      exec (.freqInc sym) s = .next { s with
        fault := .countOverflow, faultInfo0 := sym.setWidth 32, faultInfo1 := s.freqAt sym,
        faultCmd := 0x11000000#32 ||| sym.setWidth 32 })

/-- R113: FREQ.SET loads ARG as a count, or raises BAD_ARGUMENT(ARG, 2^COUNT_BITS − 1); after the largest count is loaded a
FREQ.INC of that symbol overflows. -/
def Obligations.FreqSetLoadsArgOrRefuses : Prop :=
  ∀ (s : State) (sym : Byte), s.fault = .noFault →
    encode (.freqSet sym) = 0x12000000#32 ||| sym.setWidth 32 ∧
    (s.arg.toNat ≤ 2 ^ s.cfg.countBits - 1 →
      ∃ t, exec (.freqSet sym) s = .next t ∧ t.freqAt sym = s.arg ∧ (∀ c, c ≠ sym → t.freqAt c = s.freqAt c) ∧
        t = { s with freq := t.freq }) ∧
    (2 ^ s.cfg.countBits - 1 < s.arg.toNat →
      exec (.freqSet sym) s = .next { s with
        fault := .badArgument, faultInfo0 := s.arg, faultInfo1 := BitVec.ofNat 32 (2 ^ s.cfg.countBits - 1),
        faultCmd := 0x12000000#32 ||| sym.setWidth 32 }) ∧
    (s.arg.toNat = 2 ^ s.cfg.countBits - 1 → ∀ t, exec (.freqSet sym) s = .next t →
      ∃ u, exec (.freqInc sym) t = .next u ∧ u.fault = .countOverflow)

/-- R114: FREQ.GET reads a count into RESULT. -/
def Obligations.FreqGetReadsTheCount : Prop :=
  ∀ (s : State) (sym : Byte),
    encode (.freqGet sym) = 0x13000000#32 ||| sym.setWidth 32 ∧
    (s.fault = .noFault → exec (.freqGet sym) s = .next { s with result := s.freqAt sym })

/-! ## BUILD -/

/-- R136: BUILD of an empty table makes the sentinel and raises nothing. -/
def Obligations.BuildOfEmptyTableMakesTheSentinel : Prop :=
  ∀ s : State, s.fault = .noFault → (∀ c, s.freqAt c = 0) →
    ∃ t, exec .build s = .next t ∧
      t.nodeAt 0 = { kind := .internal, sym := 0, freq := 0, left := none, right := none } ∧
      (∀ i : NodeIx, i ≠ 0 → t.nodeAt i = NodeRec.unused) ∧ (∀ c, t.ctAt c = CtEntry.empty) ∧
      t = { s with
        node := t.node, ct := t.ct, tvalid := false, tstate := .empty, root := 0, nnodes := 1, nsym := 0,
        cursor := 0 }

/-- R135: BUILD of a one-symbol table makes the degenerate tree. -/
def Obligations.BuildOfOneSymbolMakesTheDegenerateTree : Prop :=
  ∀ (s : State) (z : Byte), s.fault = .noFault → s.freqAt z ≠ 0 → (∀ c, c ≠ z → s.freqAt c = 0) →
    ∃ t, exec .build s = .next t ∧
      t.nodeAt 0 = { kind := .leaf, sym := z, freq := (s.freqAt z).setWidth 40, left := none, right := none } ∧
      t.nodeAt 1 =
        { kind := .internal, sym := 0, freq := (s.freqAt z).setWidth 40, left := some 0, right := none } ∧
      (∀ i : NodeIx, 2 ≤ i.val → t.nodeAt i = NodeRec.unused) ∧ (∀ c, t.ctAt c = CtEntry.empty) ∧
      t = { s with
        node := t.node, ct := t.ct, tvalid := false, tstate := .valid, root := 1, nnodes := 2, nsym := 1,
        cursor := 1 }

/-- R131, R137: BUILD always completes; CT is cleared, TVALID becomes 0, CURSOR becomes the new ROOT, and WR, RD, OBUF, IBUF,
FREQ and every other element are unchanged. TVALID then stays 0, and ENCODE raises NO_TABLE, until DERIVE runs. -/
def Obligations.BuildReplacesOnlyTreeAndTable : Prop :=
  (∀ s : State, s.fault = .noFault → s.q = [] →
    ∃ t, exec .build s = .next t ∧
      t = { s with
        node := t.node, tstate := t.tstate, root := t.root, nnodes := t.nnodes, nsym := t.nsym, cursor := t.root,
        ct := t.ct, tvalid := false } ∧
      (∀ c, t.ctAt c = CtEntry.empty) ∧
      (t.tstate = .empty ↔ ∀ c, s.freqAt c = 0) ∧ (t.tstate = .valid ↔ ∃ c, s.freqAt c ≠ 0)) ∧
  (∀ t u : State, t.tvalid = false → step t = .next u → ¬ t.runsCommand (fun i => i = .deriveTable) →
    u.tvalid = false) ∧
  ∀ (t : State) (sym : Byte), t.fault = .noFault → t.tvalid = false → exec (.encodeSym sym) t = .next { t with
    fault := .noTable, faultInfo0 := 0, faultInfo1 := 0, faultCmd := encode (.encodeSym sym) }

/-- R132: the leaves stand in NODE[0..k−1] in ascending symbol order, each with its count zero-extended. -/
def Obligations.BuildWritesLeavesInSymbolOrder : Prop :=
  ∀ s : State, s.fault = .noFault → (∃ c, s.freqAt c ≠ 0) →
    ∃ t, exec .build s = .next t ∧
      t.nsym.toNat = ((List.range 256).filter fun n => s.freqAt (BitVec.ofNat 8 n) ≠ 0).length ∧
      ∀ (i : NodeIx) (n : Nat), ((List.range 256).filter fun n => s.freqAt (BitVec.ofNat 8 n) ≠ 0)[i.val]? = some n →
        t.nodeAt i =
          { kind := .leaf, sym := BitVec.ofNat 8 n, freq := (s.freqAt (BitVec.ofNat 8 n)).setWidth 40, left := none,
            right := none }

/-- R134: one merge takes the node A with the smallest key (FREQ, index) out of Q, then B with the smallest key left, joins
them under a new internal node with A left and B right, and puts it into Q. -/
def Obligations.MergeJoinsTheTwoSmallestKeys : Prop :=
  ∀ (s : State) (next : NodeIx), s.q.Nodup → 2 ≤ s.q.length → next ∉ s.q →
    ∃ a b : NodeIx, a ∈ s.q ∧ b ∈ s.q ∧ a ≠ b ∧
      (∀ j ∈ s.q, (s.nodeAt a).freq.toNat < (s.nodeAt j).freq.toNat ∨
        ((s.nodeAt a).freq.toNat = (s.nodeAt j).freq.toNat ∧ a.val ≤ j.val)) ∧
      (∀ j ∈ s.q, j ≠ a → (s.nodeAt b).freq.toNat < (s.nodeAt j).freq.toNat ∨
        ((s.nodeAt b).freq.toNat = (s.nodeAt j).freq.toNat ∧ b.val ≤ j.val)) ∧
      (merge next.val s).nodeAt next =
        { kind := .internal, sym := 0, freq := (s.nodeAt a).freq + (s.nodeAt b).freq, left := some a,
          right := some b } ∧
      (∀ i, i ≠ next → (merge next.val s).nodeAt i = s.nodeAt i) ∧
      (∀ i, i ∈ (merge next.val s).q ↔ i = next ∨ (i ∈ s.q ∧ i ≠ a ∧ i ≠ b)) ∧ (merge next.val s).q.Nodup ∧
      merge next.val s = { s with node := (merge next.val s).node, q := (merge next.val s).q }

/-- R31, R132, R133: BUILD of a non-empty table makes a tree: the layout of leaves and internal nodes, every node but ROOT
the child of exactly one node, and leaves that hold exactly the symbols with FREQ > 0, each once. -/
def Obligations.BuildMakesATree : Prop :=
  ∀ s : State, s.fault = .noFault → (∃ c, s.freqAt c ≠ 0) →
    ∃ t, exec .build s = .next t ∧ t.tstate = .valid ∧ ValidLayout t ∧ TreeShape t ∧
      ∀ c, s.freqAt c ≠ 0 ↔ ∃ i : NodeIx, (t.nodeAt i).kind = .leaf ∧ (t.nodeAt i).sym = c

/-- R138: the additions of BUILD never wrap: an internal node's FREQ is the sum of its children's as natural numbers, ROOT's
is the sum of all counts, and that is below 2^FREQ_BITS. -/
def Obligations.BuildFrequenciesNeverWrap : Prop :=
  ∀ s t : State, s.fault = .noFault → Inv s → exec .build s = .next t → t.tstate = .valid →
    (∀ i : NodeIx, (t.nodeAt i).kind = .internal →
      ∃ l, (t.nodeAt i).left = some l ∧
        (t.nodeAt i).freq.toNat =
          (t.nodeAt l).freq.toNat + ((t.nodeAt i).right.map fun r => (t.nodeAt r).freq.toNat).getD 0) ∧
    (t.nodeAt t.root).freq.toNat = ((List.range 256).map fun n => (s.freqAt (BitVec.ofNat 8 n)).toNat).sum ∧
    (t.nodeAt t.root).freq.toNat ≤ 256 * (2 ^ s.cfg.countBits - 1) ∧
    256 * (2 ^ s.cfg.countBits - 1) < 2 ^ (s.cfg.countBits + 8)

/-- R139: BUILD is a function of FREQ alone. -/
def Obligations.BuildDependsOnFreqAlone : Prop :=
  ∀ s₁ s₂ t₁ t₂ : State, s₁.fault = .noFault → s₂.fault = .noFault → s₁.freq = s₂.freq →
    exec .build s₁ = .next t₁ → exec .build s₂ = .next t₂ →
      t₁.node = t₂.node ∧ t₁.root = t₂.root ∧ t₁.nnodes = t₂.nnodes ∧ t₁.nsym = t₂.nsym

/-! ## DERIVE -/

/-- R140, R141: on a VALID tree DERIVE completes; every leaf's symbol gets the entry whose path leads from ROOT to that leaf,
every other symbol's entry is empty, TVALID becomes 1, and nothing else changes. -/
def Obligations.DeriveRecordsEachLeafPath : Prop :=
  ∀ s : State, s.fault = .noFault → Inv s → TreeShape s → s.tstate = .valid →
    ∃ t, exec .deriveTable s = .next t ∧ t = { s with ct := t.ct, tvalid := true } ∧
      (∀ i : NodeIx, (s.nodeAt i).kind = .leaf →
        (t.ctAt (s.nodeAt i).sym).valid = true ∧ 1 ≤ (t.ctAt (s.nodeAt i).sym).len.toNat ∧
          (t.ctAt (s.nodeAt i).sym).code.toNat < 2 ^ (t.ctAt (s.nodeAt i).sym).len.toNat ∧
          s.walk s.root (t.ctAt (s.nodeAt i).sym).bits = some i) ∧
      ∀ c, (∀ i : NodeIx, (s.nodeAt i).kind = .leaf → (s.nodeAt i).sym ≠ c) → t.ctAt c = CtEntry.empty

/-- R140, R143: without a tree DERIVE raises NO_TREE(0, 0); on the sentinel it leaves a valid, empty table. -/
def Obligations.DeriveWithoutLeaves : Prop :=
  ∀ s : State, s.fault = .noFault →
    (s.tstate = .none → exec .deriveTable s = .next { s with
      fault := .noTree, faultInfo0 := 0, faultInfo1 := 0, faultCmd := 0x21000000 }) ∧
    (s.tstate = .empty → ∃ t, exec .deriveTable s = .next t ∧ (∀ c, t.ctAt c = CtEntry.empty) ∧
      t = { s with ct := t.ct, tvalid := true })

/-- R145 (a), (b): after DERIVE on a VALID tree an entry is valid iff its symbol is a leaf's, and no valid code is a prefix
of another. -/
def Obligations.DerivedCodesArePrefixFree : Prop :=
  ∀ s t : State, s.fault = .noFault → Inv s → TreeShape s → s.tstate = .valid → exec .deriveTable s = .next t →
    (∀ c, (t.ctAt c).valid = true ↔ ∃ i : NodeIx, (s.nodeAt i).kind = .leaf ∧ (s.nodeAt i).sym = c) ∧
    ∀ a b, a ≠ b → (t.ctAt a).valid = true → (t.ctAt b).valid = true → ¬ (t.ctAt a).bits <+: (t.ctAt b).bits

/-- R142: LEN ≤ NSYM − 1 when NSYM ≥ 2, LEN = 1 when NSYM = 1, so LEN ≤ 255; bits of CODE at or above LEN are 0. -/
def Obligations.CodeLengthsAreBounded : Prop :=
  ∀ (s : State) (c : Byte), Inv s → TableOk s → (s.ctAt c).valid = true →
    (2 ≤ s.nsym.toNat → (s.ctAt c).len.toNat ≤ s.nsym.toNat - 1) ∧
    (s.nsym.toNat = 1 → (s.ctAt c).len.toNat = 1) ∧ (s.ctAt c).len.toNat ≤ 255 ∧
    ∀ j, (s.ctAt c).len.toNat ≤ j → (s.ctAt c).code.getLsbD j = false

/-- R145 (c): a symbol counted more often never gets a longer code. -/
def Obligations.MoreFrequentSymbolsGetNoLongerCodes : Prop :=
  ∀ (s t u : State) (a b : Byte), s.fault = .noFault → Inv s → exec .build s = .next t →
    exec .deriveTable t = .next u → (s.freqAt b).toNat < (s.freqAt a).toNat → s.freqAt b ≠ 0 →
      (u.ctAt a).len.toNat ≤ (u.ctAt b).len.toNat

/-! ## The writer -/

/-- R161: WOPEN starts a frame with limit ARG in any writer state, or raises BAD_ARGUMENT(ARG, OBUF_SIZE); OBUF is not
cleared. A limit of 0 or 1 is legal, and a writer with it cannot close without CAPACITY_EXCEEDED. -/
def Obligations.WopenStartsAFrameOrRefuses : Prop :=
  encode .wopen = 0x30000000 ∧
  ∀ s : State, s.fault = .noFault →
    (s.arg.toNat ≤ s.cfg.obufSize → exec .wopen s = .next { s with
      wacc := 0, wn := 0, olen := 0, wlimit := s.arg.extractLsb' 0 21, wstate := .opened }) ∧
    (s.cfg.obufSize < s.arg.toNat → exec .wopen s = .next { s with
      fault := .badArgument, faultInfo0 := s.arg, faultInfo1 := BitVec.ofNat 32 s.cfg.obufSize,
      faultCmd := 0x30000000 }) ∧
    (s.wstate = .opened → s.wlimit.toNat ≤ 1 → ∃ t, exec .wclose s = .next t ∧ t.fault = .capacityExceeded)

/-- R163, R164, R71: WBIT on an open writer with room appends its bit; the eighth bit of a byte stores the byte at
OBUF[OLEN], most significant bit first. -/
def Obligations.WbitAppendsItsBit : Prop :=
  ∀ (s : State) (b : Bool), s.fault = .noFault → Inv s → s.wstate = .opened →
    (s.wn = 7 → s.olen.toNat < s.wlimit.toNat) →
    ∃ t, exec (.wbit b) s = .next t ∧ t.writerBits = s.writerBits ++ [b] ∧
      t = { s with wacc := t.wacc, wn := t.wn, olen := t.olen, obuf := t.obuf } ∧
      (s.wn ≠ 7 → t.wn.toNat = s.wn.toNat + 1 ∧ t.olen = s.olen ∧ ∀ k, t.obufByte k = s.obufByte k) ∧
      (s.wn = 7 → t.wn = 0 ∧ t.wacc = 0 ∧ t.olen.toNat = s.olen.toNat + 1 ∧
        t.obufByte s.olen.toNat = s.wacc.extractLsb' 0 7 ++ BitVec.ofBool b ∧
        ∀ k, k ≠ s.olen.toNat → t.obufByte k = s.obufByte k)

/-- R165, R166, R72: WCLOSE with room for two bytes stores the left-aligned partial byte and its bit count; OBUF[0..OLEN−1]
is then a frame that carries exactly the bits written. -/
def Obligations.WcloseCompletesTheFrame : Prop :=
  ∀ s : State, s.fault = .noFault → Inv s → s.wstate = .opened → s.olen.toNat + 2 ≤ s.wlimit.toNat →
    ∃ t, exec .wclose s = .next t ∧
      t = { s with wacc := 0, wn := 0, wstate := .closed, olen := t.olen, obuf := t.obuf } ∧
      t.olen.toNat = s.olen.toNat + 2 ∧ t.obufByte s.olen.toNat = s.wacc <<< (8 - s.wn.toNat) ∧
      (t.obufByte (s.olen.toNat + 1)).toNat = s.wn.toNat ∧
      (∀ k, k ≠ s.olen.toNat → k ≠ s.olen.toNat + 1 → t.obufByte k = s.obufByte k) ∧
      frameBits t.outputFrame = s.writerBits

/-- R164, R165, R167: WBIT and WCLOSE outside OPEN, FAILED among them, raise WRITER_STATE(WSTATE, 0). A WBIT that completes a
byte with OLEN = WLIMIT raises CAPACITY_EXCEEDED(OLEN, WLIMIT) and leaves WACC and WN. A WCLOSE with no room for its first
byte stores nothing; with room for one byte the partial byte is stored and counted before CAPACITY_EXCEEDED. The guard
leaves the writer FAILED. -/
def Obligations.WbitAndWcloseFaults : Prop :=
  ∀ (s : State) (b : Bool), s.fault = .noFault →
    (s.wstate ≠ .opened → exec (.wbit b) s = .next { s with
      fault := .writerState, faultInfo0 := s.wstate.code.setWidth 32, faultInfo1 := 0,
      faultCmd := 0x31000000#32 ||| (BitVec.ofBool b).setWidth 32 }) ∧
    (s.wstate = .opened → s.wn = 7 → s.wlimit.toNat ≤ s.olen.toNat → exec (.wbit b) s = .next { s with
      wstate := .failed, fault := .capacityExceeded, faultInfo0 := s.olen.setWidth 32,
      faultInfo1 := s.wlimit.setWidth 32, faultCmd := 0x31000000#32 ||| (BitVec.ofBool b).setWidth 32 }) ∧
    (s.wstate ≠ .opened → exec .wclose s = .next { s with
      fault := .writerState, faultInfo0 := s.wstate.code.setWidth 32, faultInfo1 := 0, faultCmd := 0x32000000 }) ∧
    (s.wstate = .opened → s.wlimit.toNat ≤ s.olen.toNat → exec .wclose s = .next { s with
      wstate := .failed, fault := .capacityExceeded, faultInfo0 := s.olen.setWidth 32,
      faultInfo1 := s.wlimit.setWidth 32, faultCmd := 0x32000000 }) ∧
    (s.wstate = .opened → s.wlimit.toNat = s.olen.toNat + 1 →
      ∃ t, exec .wclose s = .next t ∧ t.obufByte s.olen.toNat = s.wacc <<< (8 - s.wn.toNat) ∧
        (∀ k, k ≠ s.olen.toNat → t.obufByte k = s.obufByte k) ∧
        t = { s with
          obuf := t.obuf, olen := s.wlimit, wstate := .failed, fault := .capacityExceeded,
          faultInfo0 := s.wlimit.setWidth 32, faultInfo1 := s.wlimit.setWidth 32, faultCmd := 0x32000000 })

/-- R168: the writer's bit accounting, where B is the number of bits passed to writeBitCore since WOPEN. -/
def Obligations.WriterBitAccounting : Prop :=
  ∀ (s t : State) (w : Word) (bits : List Bool), s.wstate = .opened → s.olen = 0 → s.wn = 0 →
    writeBits w bits s = .ok t →
      bits.length = 8 * t.olen.toNat + t.wn.toNat ∧ t.wstate = .opened ∧
      ∀ u, closeWriter w t = .ok u →
        u.wstate = .closed ∧ u.olen.toNat = bits.length / 8 + 2 ∧
          (u.obufByte (u.olen.toNat - 1)).toNat = bits.length % 8

/-- R169: ENCODE of a symbol with a code, on an open writer with room, appends the code's bits, root side first. -/
def Obligations.EncodeAppendsTheCode : Prop :=
  ∀ (s : State) (sym : Byte), s.fault = .noFault → Inv s → s.tvalid = true → s.wstate = .opened →
    (s.ctAt sym).valid = true →
    (8 * s.olen.toNat + s.wn.toNat + (s.ctAt sym).len.toNat) / 8 ≤ s.wlimit.toNat →
    ∃ t, exec (.encodeSym sym) s = .next t ∧
      t.writerBits =
        s.writerBits ++
          (List.range (s.ctAt sym).len.toNat).map
            (fun i => (s.ctAt sym).code.getLsbD ((s.ctAt sym).len.toNat - 1 - i)) ∧
      t = { s with wacc := t.wacc, wn := t.wn, olen := t.olen, obuf := t.obuf } ∧
      ∀ k, k < s.olen.toNat ∨ t.olen.toNat ≤ k → t.obufByte k = s.obufByte k

/-- R169: ENCODE's faults in their order: NO_TABLE, WRITER_STATE, UNKNOWN_SYMBOL. -/
def Obligations.EncodeFaultsInOrder : Prop :=
  ∀ (s : State) (sym : Byte), s.fault = .noFault →
    (s.tvalid = false → exec (.encodeSym sym) s = .next { s with
      fault := .noTable, faultInfo0 := 0, faultInfo1 := 0, faultCmd := 0x33000000#32 ||| sym.setWidth 32 }) ∧
    (s.tvalid = true → s.wstate ≠ .opened → exec (.encodeSym sym) s = .next { s with
      fault := .writerState, faultInfo0 := s.wstate.code.setWidth 32, faultInfo1 := 0,
      faultCmd := 0x33000000#32 ||| sym.setWidth 32 }) ∧
    (s.tvalid = true → s.wstate = .opened → (s.ctAt sym).valid = false → exec (.encodeSym sym) s = .next { s with
      fault := .unknownSymbol, faultInfo0 := sym.setWidth 32, faultInfo1 := 0,
      faultCmd := 0x33000000#32 ||| sym.setWidth 32 })

/-- R162, R169: ENCODE is not transactional: when the limit is reached inside a code, the bits before the one that completes
the byte too many have been written, that bit and the rest are lost, and the writer is FAILED. -/
def Obligations.EncodeOverTheLimitKeepsEarlierBits : Prop :=
  ∀ (s : State) (sym : Byte), s.fault = .noFault → Inv s → s.tvalid = true → s.wstate = .opened →
    (s.ctAt sym).valid = true →
    s.wlimit.toNat < (8 * s.olen.toNat + s.wn.toNat + (s.ctAt sym).len.toNat) / 8 →
    ∃ t, exec (.encodeSym sym) s = .next t ∧ t.olen = s.wlimit ∧ t.wn = 7 ∧
      t.writerBits = (s.writerBits ++ (s.ctAt sym).bits).take (8 * s.wlimit.toNat + 7) ∧
      (∀ k, k < s.olen.toNat ∨ s.wlimit.toNat ≤ k → t.obufByte k = s.obufByte k) ∧
      t = { s with
        wacc := t.wacc, wn := t.wn, olen := t.olen, obuf := t.obuf, wstate := .failed, fault := .capacityExceeded,
        faultInfo0 := s.wlimit.setWidth 32, faultInfo1 := s.wlimit.setWidth 32, faultCmd := encode (.encodeSym sym) }

/-! ## The reader -/

/-- R191, R192, R198: ROPEN over a frame of at least two bytes opens the reader, which will deliver exactly the bits the
frame carries, 8·(L − 2) + c of them, and puts the cursor at the root. -/
def Obligations.RopenOpensTheFrame : Prop :=
  ∀ s : State, s.fault = .noFault → Inv s → 2 ≤ s.ilen.toNat → (s.ilen.toNat = 2 → (s.ibufByte 1).toNat ≤ 8) →
    ∃ t, exec .ropen s = .next t ∧ t.rstate = .opened ∧ t.readerBits = frameBits s.inputFrame ∧
      t.trailingByte = s.ibufByte (s.ilen.toNat - 1) ∧
      ((s.ibufByte (s.ilen.toNat - 1)).toNat ≤ 8 →
        t.readerBits.length = 8 * (s.ilen.toNat - 2) + (s.ibufByte (s.ilen.toNat - 1)).toNat) ∧
      t = { s with
        rlen := s.ilen, rbase := 0, cur := s.ibufByte 0, nxt := s.ibufByte 1, aft := t.aft, aftv := t.aftv,
        rem := t.rem, rstate := .opened, cursor := if s.tstate = .none then 0 else s.root }

/-- R42, R194, R196, R198: an open reader has a next bit exactly while bits remain, and RBIT returns the next one, bit 7 of
CUR, and consumes it, and changes nothing but RESULT and the window; the reader stays OPEN. Only the bit whose advance finds
a trailing byte above 8 is left to `RopenAndRbitFaults`. -/
def Obligations.RbitDeliversTheNextBit : Prop :=
  ∀ s : State, Inv s → s.rstate = .opened →
    (s.hasNext = true ↔ s.readerBits ≠ []) ∧
    ∀ (b : Bool) (bs : List Bool), s.fault = .noFault → s.readerBits = b :: bs → ¬ s.formatNext →
      b = s.cur.getLsbD 7 ∧
      ∃ t, exec .rbit s = .next t ∧ t.result = (BitVec.ofBool b).setWidth 32 ∧ t.readerBits = bs ∧
        t.trailingByte = s.trailingByte ∧
        t = { s with
          result := t.result, cur := t.cur, nxt := t.nxt, aft := t.aft, aftv := t.aftv, rem := t.rem,
          rbase := t.rbase }

/-- R191, R196, R199: ROPEN raises FORMAT(0, RLEN) for a frame shorter than two bytes, and FORMAT(1, NXT) for a two-byte frame
whose trailing byte is above 8, with what was latched before it staying; RBIT raises READER_STATE(RSTATE, 0);
END_OF_STREAM(RBASE, RLEN) with nothing consumed; and FORMAT at the advance that finds a trailing byte above 8, with RESULT
holding the bit and the bit consumed. FORMAT leaves the reader FAILED. -/
def Obligations.RopenAndRbitFaults : Prop :=
  ∀ s : State, s.fault = .noFault →
    (s.ilen.toNat < 2 → exec .ropen s = .next { s with
      rlen := s.ilen, rstate := .failed, fault := .format, faultInfo0 := 0, faultInfo1 := s.ilen.setWidth 32,
      faultCmd := 0x40000000 }) ∧
    (s.ilen.toNat = 2 → 8 < (s.ibufByte 1).toNat → exec .ropen s = .next { s with
      rlen := s.ilen, cur := s.ibufByte 0, nxt := s.ibufByte 1, rbase := 0, aft := 0, aftv := false,
      rstate := .failed, fault := .format, faultInfo0 := 1, faultInfo1 := (s.ibufByte 1).setWidth 32,
      faultCmd := 0x40000000 }) ∧
    (s.rstate ≠ .opened → exec .rbit s = .next { s with
      fault := .readerState, faultInfo0 := s.rstate.code.setWidth 32, faultInfo1 := 0, faultCmd := 0x41000000 }) ∧
    (s.rstate = .opened → s.aftv = false → s.rem = 0 → exec .rbit s = .next { s with
      fault := .endOfStream, faultInfo0 := s.rbase.setWidth 32, faultInfo1 := s.rlen.setWidth 32,
      faultCmd := 0x41000000 }) ∧
    (Inv s → s.rstate = .opened → s.aftv = true → s.rem = 1 → s.rbase.toNat + 3 = s.rlen.toNat →
      8 < s.aft.toNat → exec .rbit s = .next { s with
        result := (BitVec.ofBool (s.cur.getLsbD 7)).setWidth 32, cur := s.nxt, nxt := s.aft, rbase := s.rbase + 1,
        aft := 0, aftv := false, rem := 0, rstate := .failed, fault := .format,
        faultInfo0 := BitVec.ofNat 32 (s.rbase.toNat + 2), faultInfo1 := s.aft.setWidth 32,
        faultCmd := 0x41000000 })

/-- R197, R42: RHASNEXT reports hasNext() in RESULT, or raises READER_STATE(RSTATE, 0); STATUS.HASNEXT gives the same value
without a command, and reads 0 when the reader is not OPEN. -/
def Obligations.RhasnextReportsHasNext : Prop :=
  encode .rhasnext = 0x42000000 ∧
  (∀ s : State, s.fault = .noFault →
    (s.rstate = .opened → exec .rhasnext s = .next { s with
      result := if s.aftv = true ∨ 0 < s.rem.toNat then 1 else 0 }) ∧
    (s.rstate ≠ .opened → exec .rhasnext s = .next { s with
      fault := .readerState, faultInfo0 := s.rstate.code.setWidth 32, faultInfo1 := 0, faultCmd := 0x42000000 })) ∧
  ∀ s : State,
    (s.rstate = .opened → (s.status.getLsbD 8 = true ↔ s.aftv = true ∨ 0 < s.rem.toNat)) ∧
    (s.rstate ≠ .opened → s.status.getLsbD 8 = false)

/-- R71, R72, R168, R198: the frame WCLOSE completes, loaded into IBUF and opened, makes the reader deliver exactly the bits
the writer took. -/
def Obligations.ReaderDeliversWhatTheWriterTook : Prop :=
  ∀ s t r u : State, s.fault = .noFault → Inv s → s.wstate = .opened → exec .wclose s = .next t →
    t.wstate = .closed → r.fault = .noFault → Inv r → r.inputFrame = t.outputFrame → exec .ropen r = .next u →
      u.rstate = .opened ∧ u.readerBits = s.writerBits ∧ u.trailingByte.toNat ≤ 8

/-! ## The symbol decoder -/

/-- R200 to R202, R204, R205: DECODE over a frame with a legal trailing byte does what walking the tree bit by bit does: it
emits the leaf's symbol and returns the cursor to the root; or reports DONE, with PARTIAL when the cursor is below the root;
or raises NO_CHILD with the bit consumed and the cursor where it stood. -/
def Obligations.DecodeWalksTheTree : Prop :=
  ∀ s : State, s.fault = .noFault → Inv s → s.tstate = .valid → s.rstate = .opened → s.trailingByte.toNat ≤ 8 →
    ∃ t, exec .decodeSym s = .next t ∧ t.trailingByte = s.trailingByte ∧
      t = { s with
        result := t.result, cursor := t.cursor, cur := t.cur, nxt := t.nxt, aft := t.aft, aftv := t.aftv,
        rem := t.rem, rbase := t.rbase, fault := t.fault, faultInfo0 := t.faultInfo0, faultInfo1 := t.faultInfo1,
        faultCmd := t.faultCmd } ∧
      (∀ c rest, s.decodeFrom s.cursor s.readerBits = .symbol c rest →
        t.result = 0x80000000#32 ||| c.setWidth 32 ∧ t.cursor = s.root ∧ t.readerBits = rest ∧
          t.fault = .noFault ∧ t.faultInfo0 = s.faultInfo0 ∧ t.faultInfo1 = s.faultInfo1 ∧ t.faultCmd = s.faultCmd) ∧
      (∀ n, s.decodeFrom s.cursor s.readerBits = .ended n →
        t.result = (if n = s.root then 0x40000000 else 0x60000000) ∧ t.cursor = n ∧ t.readerBits = [] ∧
          t.fault = .noFault ∧ t.faultInfo0 = s.faultInfo0 ∧ t.faultInfo1 = s.faultInfo1 ∧ t.faultCmd = s.faultCmd) ∧
      (∀ n b rest, s.decodeFrom s.cursor s.readerBits = .noChild n b rest →
        t.result = s.result ∧ t.cursor = n ∧ t.readerBits = rest ∧ t.fault = .noChild ∧
          t.faultInfo0 = BitVec.ofNat 32 n.val ∧ t.faultInfo1 = (BitVec.ofBool b).setWidth 32 ∧
          t.faultCmd = 0x43000000)

/-- R195, R199, R201: DECODE over a frame whose trailing byte is above 8. Of the bits the reader will still take, the last one,
`b`, is the one whose advance finds the bad trailing byte. Where the walk of the bits before it reaches a leaf or an absent
child, DECODE does what it does over a good frame, and `b` remains. Where they leave the walk at node n, DECODE takes `b` and
raises FORMAT(index of the trailing byte, its value): the moves up to n stay, the move for `b` is not made, RESULT is
unchanged, and the reader is FAILED in final-byte mode, with the last content byte in CUR. -/
def Obligations.DecodeOverABadTrailingByte : Prop :=
  ∀ s : State, s.fault = .noFault → Inv s → s.tstate = .valid → s.rstate = .opened → 8 < s.trailingByte.toNat →
    ∃ (bits : List Bool) (b : Bool) (t : State), s.readerBits = bits ++ [b] ∧ exec .decodeSym s = .next t ∧
      t = { s with
        result := t.result, cursor := t.cursor, cur := t.cur, nxt := t.nxt, aft := t.aft, aftv := t.aftv,
        rem := t.rem, rbase := t.rbase, rstate := t.rstate, fault := t.fault, faultInfo0 := t.faultInfo0,
        faultInfo1 := t.faultInfo1, faultCmd := t.faultCmd } ∧
      (∀ c rest, s.decodeFrom s.cursor bits = .symbol c rest →
        t.result = 0x80000000#32 ||| c.setWidth 32 ∧ t.cursor = s.root ∧ t.readerBits = rest ++ [b] ∧
          t.trailingByte = s.trailingByte ∧ t.rstate = .opened ∧ t.fault = .noFault ∧
          t.faultInfo0 = s.faultInfo0 ∧ t.faultInfo1 = s.faultInfo1 ∧ t.faultCmd = s.faultCmd) ∧
      (∀ n b' rest, s.decodeFrom s.cursor bits = .noChild n b' rest →
        t.result = s.result ∧ t.cursor = n ∧ t.readerBits = rest ++ [b] ∧ t.trailingByte = s.trailingByte ∧
          t.rstate = .opened ∧ t.fault = .noChild ∧ t.faultInfo0 = BitVec.ofNat 32 n.val ∧
          t.faultInfo1 = (BitVec.ofBool b').setWidth 32 ∧ t.faultCmd = 0x43000000) ∧
      (∀ n, s.decodeFrom s.cursor bits = .ended n →
        t.result = s.result ∧ t.cursor = n ∧ t.rstate = .failed ∧ t.fault = .format ∧
          t.faultInfo0 = BitVec.ofNat 32 (s.rlen.toNat - 1) ∧ t.faultInfo1 = s.trailingByte.setWidth 32 ∧
          t.faultCmd = 0x43000000 ∧ t.cur = s.bytesAhead.dropLast.getLastD 0 ∧ t.nxt = s.trailingByte ∧ t.aft = 0 ∧
          t.aftv = false ∧ t.rem = 0 ∧ t.rbase.toNat + 2 = s.rlen.toNat)

/-- R195, R201, R203: DECODE without a tree raises NO_TREE(0, 0), then READER_STATE(RSTATE, 0) with a reader that is not open;
on the sentinel it writes DONE and reads no bit; and when its first bit is the 8th of CUR and the advance finds a trailing
byte above 8 it raises FORMAT: the bit was consumed, CURSOR was not moved, RESULT is unchanged, the reader is FAILED. -/
def Obligations.DecodeFaultsAndSentinel : Prop :=
  ∀ s : State, s.fault = .noFault →
    (s.tstate = .none → exec .decodeSym s = .next { s with
      fault := .noTree, faultInfo0 := 0, faultInfo1 := 0, faultCmd := 0x43000000 }) ∧
    (s.tstate ≠ .none → s.rstate ≠ .opened → exec .decodeSym s = .next { s with
      fault := .readerState, faultInfo0 := s.rstate.code.setWidth 32, faultInfo1 := 0, faultCmd := 0x43000000 }) ∧
    (s.tstate = .empty → s.rstate = .opened → exec .decodeSym s = .next { s with result := 0x40000000 }) ∧
    (Inv s → s.tstate = .valid → s.rstate = .opened → s.aftv = true → s.rem = 1 →
      s.rbase.toNat + 3 = s.rlen.toNat → 8 < s.aft.toNat → exec .decodeSym s = .next { s with
        cur := s.nxt, nxt := s.aft, rbase := s.rbase + 1, aft := 0, aftv := false, rem := 0, rstate := .failed,
        fault := .format, faultInfo0 := BitVec.ofNat 32 (s.rbase.toNat + 2), faultInfo1 := s.aft.setWidth 32,
        faultCmd := 0x43000000 })

/-- R141, R169, R201 (the source's round trip, one symbol): where the bits the reader still has begin with the code ENCODE
writes for `sym`, DECODE from the root gives `sym` and leaves exactly the bits after the code. -/
def Obligations.DecodeInvertsEncode : Prop :=
  ∀ (s : State) (sym : Byte) (rest : List Bool), s.fault = .noFault → Inv s → TableOk s → s.rstate = .opened →
    s.trailingByte.toNat ≤ 8 → s.cursor = s.root → (s.ctAt sym).valid = true →
    s.readerBits = (s.ctAt sym).bits ++ rest →
    ∃ t, exec .decodeSym s = .next t ∧ t.result = 0x80000000#32 ||| sym.setWidth 32 ∧ t.readerBits = rest ∧
      t.trailingByte = s.trailingByte ∧
      t = { s with
        result := t.result, cur := t.cur, nxt := t.nxt, aft := t.aft, aftv := t.aftv, rem := t.rem,
        rbase := t.rbase }

/-! ## Invariants -/

/-- R50, R271: the state right after reset meets every invariant, for all legal parameters and every draw of the buffers. -/
def Obligations.ResetHasInvariant : Prop :=
  Inv State.reset ∧
  ∀ (c : Config) (epoch : Nat), c.wf = true →
    Inv (State.resetWith c epoch) ∧ TreeShape (State.resetWith c epoch) ∧ TableOk (State.resetWith c epoch)

/-- R17, R29 to R43, R138: every step keeps the units' bounds, the buffers' canonical form, the layout of the tree and
aggregate frequencies that fit FREQ_BITS. -/
def Obligations.StepKeepsInvariant : Prop := ∀ s t : State, Inv s → step s = .next t → Inv t

/-- R31 (c), (d): every step keeps the tree a tree. -/
def Obligations.StepKeepsTreeShape : Prop :=
  ∀ s t : State, Inv s → TreeShape s → step s = .next t → TreeShape t

/-- R35, R36, R77: every step keeps the code table the table of the current tree, or empty. -/
def Obligations.StepKeepsTableOfTheTree : Prop :=
  ∀ s t : State, Inv s → TreeShape s → TableOk s → step s = .next t → TableOk t

/-- R14, R240: "No command can hang", and a fault never stops the host: from every state that meets the invariant every step
answers a next state. -/
def Obligations.EveryStepCompletes : Prop := ∀ s : State, Inv s → ∃ t, step s = .next t
end

