-- ==== Sys2Proof/Laws/State.lean ====
section
/-! SUPPORT. One lemma per field per named update of State, each true by rfl (the fault operations' by a case split), so that
no later proof unfolds a record update. -/

namespace Sys2Proof.Machine

/-! ## setIbuf -/

@[simp] theorem setIbuf_cfg (s : State) (k : Nat) (v : Byte) : (s.setIbuf k v).cfg = s.cfg := rfl
@[simp] theorem setIbuf_arg (s : State) (k : Nat) (v : Byte) : (s.setIbuf k v).arg = s.arg := rfl
@[simp] theorem setIbuf_result (s : State) (k : Nat) (v : Byte) : (s.setIbuf k v).result = s.result := rfl
@[simp] theorem setIbuf_fault (s : State) (k : Nat) (v : Byte) : (s.setIbuf k v).fault = s.fault := rfl
@[simp] theorem setIbuf_faultInfo0 (s : State) (k : Nat) (v : Byte) : (s.setIbuf k v).faultInfo0 = s.faultInfo0 := rfl
@[simp] theorem setIbuf_faultInfo1 (s : State) (k : Nat) (v : Byte) : (s.setIbuf k v).faultInfo1 = s.faultInfo1 := rfl
@[simp] theorem setIbuf_faultCmd (s : State) (k : Nat) (v : Byte) : (s.setIbuf k v).faultCmd = s.faultCmd := rfl
@[simp] theorem setIbuf_freq (s : State) (k : Nat) (v : Byte) : (s.setIbuf k v).freq = s.freq := rfl
@[simp] theorem setIbuf_node (s : State) (k : Nat) (v : Byte) : (s.setIbuf k v).node = s.node := rfl
@[simp] theorem setIbuf_tstate (s : State) (k : Nat) (v : Byte) : (s.setIbuf k v).tstate = s.tstate := rfl
@[simp] theorem setIbuf_root (s : State) (k : Nat) (v : Byte) : (s.setIbuf k v).root = s.root := rfl
@[simp] theorem setIbuf_nnodes (s : State) (k : Nat) (v : Byte) : (s.setIbuf k v).nnodes = s.nnodes := rfl
@[simp] theorem setIbuf_nsym (s : State) (k : Nat) (v : Byte) : (s.setIbuf k v).nsym = s.nsym := rfl
@[simp] theorem setIbuf_q (s : State) (k : Nat) (v : Byte) : (s.setIbuf k v).q = s.q := rfl
@[simp] theorem setIbuf_cursor (s : State) (k : Nat) (v : Byte) : (s.setIbuf k v).cursor = s.cursor := rfl
@[simp] theorem setIbuf_ct (s : State) (k : Nat) (v : Byte) : (s.setIbuf k v).ct = s.ct := rfl
@[simp] theorem setIbuf_tvalid (s : State) (k : Nat) (v : Byte) : (s.setIbuf k v).tvalid = s.tvalid := rfl
@[simp] theorem setIbuf_wstate (s : State) (k : Nat) (v : Byte) : (s.setIbuf k v).wstate = s.wstate := rfl
@[simp] theorem setIbuf_wacc (s : State) (k : Nat) (v : Byte) : (s.setIbuf k v).wacc = s.wacc := rfl
@[simp] theorem setIbuf_wn (s : State) (k : Nat) (v : Byte) : (s.setIbuf k v).wn = s.wn := rfl
@[simp] theorem setIbuf_olen (s : State) (k : Nat) (v : Byte) : (s.setIbuf k v).olen = s.olen := rfl
@[simp] theorem setIbuf_wlimit (s : State) (k : Nat) (v : Byte) : (s.setIbuf k v).wlimit = s.wlimit := rfl
@[simp] theorem setIbuf_obuf (s : State) (k : Nat) (v : Byte) : (s.setIbuf k v).obuf = s.obuf := rfl
@[simp] theorem setIbuf_cur (s : State) (k : Nat) (v : Byte) : (s.setIbuf k v).cur = s.cur := rfl
@[simp] theorem setIbuf_nxt (s : State) (k : Nat) (v : Byte) : (s.setIbuf k v).nxt = s.nxt := rfl
@[simp] theorem setIbuf_aft (s : State) (k : Nat) (v : Byte) : (s.setIbuf k v).aft = s.aft := rfl
@[simp] theorem setIbuf_aftv (s : State) (k : Nat) (v : Byte) : (s.setIbuf k v).aftv = s.aftv := rfl
@[simp] theorem setIbuf_rem (s : State) (k : Nat) (v : Byte) : (s.setIbuf k v).rem = s.rem := rfl
@[simp] theorem setIbuf_rstate (s : State) (k : Nat) (v : Byte) : (s.setIbuf k v).rstate = s.rstate := rfl
@[simp] theorem setIbuf_rlen (s : State) (k : Nat) (v : Byte) : (s.setIbuf k v).rlen = s.rlen := rfl
@[simp] theorem setIbuf_rbase (s : State) (k : Nat) (v : Byte) : (s.setIbuf k v).rbase = s.rbase := rfl
@[simp] theorem setIbuf_ilen (s : State) (k : Nat) (v : Byte) : (s.setIbuf k v).ilen = s.ilen := rfl
@[simp] theorem setIbuf_ibuf (s : State) (k : Nat) (v : Byte) : (s.setIbuf k v).ibuf = Memory.write s.ibuf k v := rfl
@[simp] theorem setIbuf_epoch (s : State) (k : Nat) (v : Byte) : (s.setIbuf k v).epoch = s.epoch := rfl
@[simp] theorem setIbuf_bus (s : State) (k : Nat) (v : Byte) : (s.setIbuf k v).bus = s.bus := rfl
@[simp] theorem setIbuf_reads (s : State) (k : Nat) (v : Byte) : (s.setIbuf k v).reads = s.reads := rfl

/-! ## setObuf -/

@[simp] theorem setObuf_cfg (s : State) (k : Nat) (v : Byte) : (s.setObuf k v).cfg = s.cfg := rfl
@[simp] theorem setObuf_arg (s : State) (k : Nat) (v : Byte) : (s.setObuf k v).arg = s.arg := rfl
@[simp] theorem setObuf_result (s : State) (k : Nat) (v : Byte) : (s.setObuf k v).result = s.result := rfl
@[simp] theorem setObuf_fault (s : State) (k : Nat) (v : Byte) : (s.setObuf k v).fault = s.fault := rfl
@[simp] theorem setObuf_faultInfo0 (s : State) (k : Nat) (v : Byte) : (s.setObuf k v).faultInfo0 = s.faultInfo0 := rfl
@[simp] theorem setObuf_faultInfo1 (s : State) (k : Nat) (v : Byte) : (s.setObuf k v).faultInfo1 = s.faultInfo1 := rfl
@[simp] theorem setObuf_faultCmd (s : State) (k : Nat) (v : Byte) : (s.setObuf k v).faultCmd = s.faultCmd := rfl
@[simp] theorem setObuf_freq (s : State) (k : Nat) (v : Byte) : (s.setObuf k v).freq = s.freq := rfl
@[simp] theorem setObuf_node (s : State) (k : Nat) (v : Byte) : (s.setObuf k v).node = s.node := rfl
@[simp] theorem setObuf_tstate (s : State) (k : Nat) (v : Byte) : (s.setObuf k v).tstate = s.tstate := rfl
@[simp] theorem setObuf_root (s : State) (k : Nat) (v : Byte) : (s.setObuf k v).root = s.root := rfl
@[simp] theorem setObuf_nnodes (s : State) (k : Nat) (v : Byte) : (s.setObuf k v).nnodes = s.nnodes := rfl
@[simp] theorem setObuf_nsym (s : State) (k : Nat) (v : Byte) : (s.setObuf k v).nsym = s.nsym := rfl
@[simp] theorem setObuf_q (s : State) (k : Nat) (v : Byte) : (s.setObuf k v).q = s.q := rfl
@[simp] theorem setObuf_cursor (s : State) (k : Nat) (v : Byte) : (s.setObuf k v).cursor = s.cursor := rfl
@[simp] theorem setObuf_ct (s : State) (k : Nat) (v : Byte) : (s.setObuf k v).ct = s.ct := rfl
@[simp] theorem setObuf_tvalid (s : State) (k : Nat) (v : Byte) : (s.setObuf k v).tvalid = s.tvalid := rfl
@[simp] theorem setObuf_wstate (s : State) (k : Nat) (v : Byte) : (s.setObuf k v).wstate = s.wstate := rfl
@[simp] theorem setObuf_wacc (s : State) (k : Nat) (v : Byte) : (s.setObuf k v).wacc = s.wacc := rfl
@[simp] theorem setObuf_wn (s : State) (k : Nat) (v : Byte) : (s.setObuf k v).wn = s.wn := rfl
@[simp] theorem setObuf_olen (s : State) (k : Nat) (v : Byte) : (s.setObuf k v).olen = s.olen := rfl
@[simp] theorem setObuf_wlimit (s : State) (k : Nat) (v : Byte) : (s.setObuf k v).wlimit = s.wlimit := rfl
@[simp] theorem setObuf_obuf (s : State) (k : Nat) (v : Byte) : (s.setObuf k v).obuf = Memory.write s.obuf k v := rfl
@[simp] theorem setObuf_cur (s : State) (k : Nat) (v : Byte) : (s.setObuf k v).cur = s.cur := rfl
@[simp] theorem setObuf_nxt (s : State) (k : Nat) (v : Byte) : (s.setObuf k v).nxt = s.nxt := rfl
@[simp] theorem setObuf_aft (s : State) (k : Nat) (v : Byte) : (s.setObuf k v).aft = s.aft := rfl
@[simp] theorem setObuf_aftv (s : State) (k : Nat) (v : Byte) : (s.setObuf k v).aftv = s.aftv := rfl
@[simp] theorem setObuf_rem (s : State) (k : Nat) (v : Byte) : (s.setObuf k v).rem = s.rem := rfl
@[simp] theorem setObuf_rstate (s : State) (k : Nat) (v : Byte) : (s.setObuf k v).rstate = s.rstate := rfl
@[simp] theorem setObuf_rlen (s : State) (k : Nat) (v : Byte) : (s.setObuf k v).rlen = s.rlen := rfl
@[simp] theorem setObuf_rbase (s : State) (k : Nat) (v : Byte) : (s.setObuf k v).rbase = s.rbase := rfl
@[simp] theorem setObuf_ilen (s : State) (k : Nat) (v : Byte) : (s.setObuf k v).ilen = s.ilen := rfl
@[simp] theorem setObuf_ibuf (s : State) (k : Nat) (v : Byte) : (s.setObuf k v).ibuf = s.ibuf := rfl
@[simp] theorem setObuf_epoch (s : State) (k : Nat) (v : Byte) : (s.setObuf k v).epoch = s.epoch := rfl
@[simp] theorem setObuf_bus (s : State) (k : Nat) (v : Byte) : (s.setObuf k v).bus = s.bus := rfl
@[simp] theorem setObuf_reads (s : State) (k : Nat) (v : Byte) : (s.setObuf k v).reads = s.reads := rfl

/-! ## setFreq -/

@[simp] theorem setFreq_cfg (s : State) (c : Byte) (v : Word) : (s.setFreq c v).cfg = s.cfg := rfl
@[simp] theorem setFreq_arg (s : State) (c : Byte) (v : Word) : (s.setFreq c v).arg = s.arg := rfl
@[simp] theorem setFreq_result (s : State) (c : Byte) (v : Word) : (s.setFreq c v).result = s.result := rfl
@[simp] theorem setFreq_fault (s : State) (c : Byte) (v : Word) : (s.setFreq c v).fault = s.fault := rfl
@[simp] theorem setFreq_faultInfo0 (s : State) (c : Byte) (v : Word) : (s.setFreq c v).faultInfo0 = s.faultInfo0 := rfl
@[simp] theorem setFreq_faultInfo1 (s : State) (c : Byte) (v : Word) : (s.setFreq c v).faultInfo1 = s.faultInfo1 := rfl
@[simp] theorem setFreq_faultCmd (s : State) (c : Byte) (v : Word) : (s.setFreq c v).faultCmd = s.faultCmd := rfl
@[simp] theorem setFreq_freq (s : State) (c : Byte) (v : Word) : (s.setFreq c v).freq = s.freq.set c.toNat v c.isLt := rfl
@[simp] theorem setFreq_node (s : State) (c : Byte) (v : Word) : (s.setFreq c v).node = s.node := rfl
@[simp] theorem setFreq_tstate (s : State) (c : Byte) (v : Word) : (s.setFreq c v).tstate = s.tstate := rfl
@[simp] theorem setFreq_root (s : State) (c : Byte) (v : Word) : (s.setFreq c v).root = s.root := rfl
@[simp] theorem setFreq_nnodes (s : State) (c : Byte) (v : Word) : (s.setFreq c v).nnodes = s.nnodes := rfl
@[simp] theorem setFreq_nsym (s : State) (c : Byte) (v : Word) : (s.setFreq c v).nsym = s.nsym := rfl
@[simp] theorem setFreq_q (s : State) (c : Byte) (v : Word) : (s.setFreq c v).q = s.q := rfl
@[simp] theorem setFreq_cursor (s : State) (c : Byte) (v : Word) : (s.setFreq c v).cursor = s.cursor := rfl
@[simp] theorem setFreq_ct (s : State) (c : Byte) (v : Word) : (s.setFreq c v).ct = s.ct := rfl
@[simp] theorem setFreq_tvalid (s : State) (c : Byte) (v : Word) : (s.setFreq c v).tvalid = s.tvalid := rfl
@[simp] theorem setFreq_wstate (s : State) (c : Byte) (v : Word) : (s.setFreq c v).wstate = s.wstate := rfl
@[simp] theorem setFreq_wacc (s : State) (c : Byte) (v : Word) : (s.setFreq c v).wacc = s.wacc := rfl
@[simp] theorem setFreq_wn (s : State) (c : Byte) (v : Word) : (s.setFreq c v).wn = s.wn := rfl
@[simp] theorem setFreq_olen (s : State) (c : Byte) (v : Word) : (s.setFreq c v).olen = s.olen := rfl
@[simp] theorem setFreq_wlimit (s : State) (c : Byte) (v : Word) : (s.setFreq c v).wlimit = s.wlimit := rfl
@[simp] theorem setFreq_obuf (s : State) (c : Byte) (v : Word) : (s.setFreq c v).obuf = s.obuf := rfl
@[simp] theorem setFreq_cur (s : State) (c : Byte) (v : Word) : (s.setFreq c v).cur = s.cur := rfl
@[simp] theorem setFreq_nxt (s : State) (c : Byte) (v : Word) : (s.setFreq c v).nxt = s.nxt := rfl
@[simp] theorem setFreq_aft (s : State) (c : Byte) (v : Word) : (s.setFreq c v).aft = s.aft := rfl
@[simp] theorem setFreq_aftv (s : State) (c : Byte) (v : Word) : (s.setFreq c v).aftv = s.aftv := rfl
@[simp] theorem setFreq_rem (s : State) (c : Byte) (v : Word) : (s.setFreq c v).rem = s.rem := rfl
@[simp] theorem setFreq_rstate (s : State) (c : Byte) (v : Word) : (s.setFreq c v).rstate = s.rstate := rfl
@[simp] theorem setFreq_rlen (s : State) (c : Byte) (v : Word) : (s.setFreq c v).rlen = s.rlen := rfl
@[simp] theorem setFreq_rbase (s : State) (c : Byte) (v : Word) : (s.setFreq c v).rbase = s.rbase := rfl
@[simp] theorem setFreq_ilen (s : State) (c : Byte) (v : Word) : (s.setFreq c v).ilen = s.ilen := rfl
@[simp] theorem setFreq_ibuf (s : State) (c : Byte) (v : Word) : (s.setFreq c v).ibuf = s.ibuf := rfl
@[simp] theorem setFreq_epoch (s : State) (c : Byte) (v : Word) : (s.setFreq c v).epoch = s.epoch := rfl
@[simp] theorem setFreq_bus (s : State) (c : Byte) (v : Word) : (s.setFreq c v).bus = s.bus := rfl
@[simp] theorem setFreq_reads (s : State) (c : Byte) (v : Word) : (s.setFreq c v).reads = s.reads := rfl

/-! ## setNode -/

@[simp] theorem setNode_cfg (s : State) (i : NodeIx) (r : NodeRec) : (s.setNode i r).cfg = s.cfg := rfl
@[simp] theorem setNode_arg (s : State) (i : NodeIx) (r : NodeRec) : (s.setNode i r).arg = s.arg := rfl
@[simp] theorem setNode_result (s : State) (i : NodeIx) (r : NodeRec) : (s.setNode i r).result = s.result := rfl
@[simp] theorem setNode_fault (s : State) (i : NodeIx) (r : NodeRec) : (s.setNode i r).fault = s.fault := rfl
@[simp] theorem setNode_faultInfo0 (s : State) (i : NodeIx) (r : NodeRec) : (s.setNode i r).faultInfo0 = s.faultInfo0 := rfl
@[simp] theorem setNode_faultInfo1 (s : State) (i : NodeIx) (r : NodeRec) : (s.setNode i r).faultInfo1 = s.faultInfo1 := rfl
@[simp] theorem setNode_faultCmd (s : State) (i : NodeIx) (r : NodeRec) : (s.setNode i r).faultCmd = s.faultCmd := rfl
@[simp] theorem setNode_freq (s : State) (i : NodeIx) (r : NodeRec) : (s.setNode i r).freq = s.freq := rfl
@[simp] theorem setNode_node (s : State) (i : NodeIx) (r : NodeRec) : (s.setNode i r).node = s.node.set i.val r i.isLt := rfl
@[simp] theorem setNode_tstate (s : State) (i : NodeIx) (r : NodeRec) : (s.setNode i r).tstate = s.tstate := rfl
@[simp] theorem setNode_root (s : State) (i : NodeIx) (r : NodeRec) : (s.setNode i r).root = s.root := rfl
@[simp] theorem setNode_nnodes (s : State) (i : NodeIx) (r : NodeRec) : (s.setNode i r).nnodes = s.nnodes := rfl
@[simp] theorem setNode_nsym (s : State) (i : NodeIx) (r : NodeRec) : (s.setNode i r).nsym = s.nsym := rfl
@[simp] theorem setNode_q (s : State) (i : NodeIx) (r : NodeRec) : (s.setNode i r).q = s.q := rfl
@[simp] theorem setNode_cursor (s : State) (i : NodeIx) (r : NodeRec) : (s.setNode i r).cursor = s.cursor := rfl
@[simp] theorem setNode_ct (s : State) (i : NodeIx) (r : NodeRec) : (s.setNode i r).ct = s.ct := rfl
@[simp] theorem setNode_tvalid (s : State) (i : NodeIx) (r : NodeRec) : (s.setNode i r).tvalid = s.tvalid := rfl
@[simp] theorem setNode_wstate (s : State) (i : NodeIx) (r : NodeRec) : (s.setNode i r).wstate = s.wstate := rfl
@[simp] theorem setNode_wacc (s : State) (i : NodeIx) (r : NodeRec) : (s.setNode i r).wacc = s.wacc := rfl
@[simp] theorem setNode_wn (s : State) (i : NodeIx) (r : NodeRec) : (s.setNode i r).wn = s.wn := rfl
@[simp] theorem setNode_olen (s : State) (i : NodeIx) (r : NodeRec) : (s.setNode i r).olen = s.olen := rfl
@[simp] theorem setNode_wlimit (s : State) (i : NodeIx) (r : NodeRec) : (s.setNode i r).wlimit = s.wlimit := rfl
@[simp] theorem setNode_obuf (s : State) (i : NodeIx) (r : NodeRec) : (s.setNode i r).obuf = s.obuf := rfl
@[simp] theorem setNode_cur (s : State) (i : NodeIx) (r : NodeRec) : (s.setNode i r).cur = s.cur := rfl
@[simp] theorem setNode_nxt (s : State) (i : NodeIx) (r : NodeRec) : (s.setNode i r).nxt = s.nxt := rfl
@[simp] theorem setNode_aft (s : State) (i : NodeIx) (r : NodeRec) : (s.setNode i r).aft = s.aft := rfl
@[simp] theorem setNode_aftv (s : State) (i : NodeIx) (r : NodeRec) : (s.setNode i r).aftv = s.aftv := rfl
@[simp] theorem setNode_rem (s : State) (i : NodeIx) (r : NodeRec) : (s.setNode i r).rem = s.rem := rfl
@[simp] theorem setNode_rstate (s : State) (i : NodeIx) (r : NodeRec) : (s.setNode i r).rstate = s.rstate := rfl
@[simp] theorem setNode_rlen (s : State) (i : NodeIx) (r : NodeRec) : (s.setNode i r).rlen = s.rlen := rfl
@[simp] theorem setNode_rbase (s : State) (i : NodeIx) (r : NodeRec) : (s.setNode i r).rbase = s.rbase := rfl
@[simp] theorem setNode_ilen (s : State) (i : NodeIx) (r : NodeRec) : (s.setNode i r).ilen = s.ilen := rfl
@[simp] theorem setNode_ibuf (s : State) (i : NodeIx) (r : NodeRec) : (s.setNode i r).ibuf = s.ibuf := rfl
@[simp] theorem setNode_epoch (s : State) (i : NodeIx) (r : NodeRec) : (s.setNode i r).epoch = s.epoch := rfl
@[simp] theorem setNode_bus (s : State) (i : NodeIx) (r : NodeRec) : (s.setNode i r).bus = s.bus := rfl
@[simp] theorem setNode_reads (s : State) (i : NodeIx) (r : NodeRec) : (s.setNode i r).reads = s.reads := rfl

/-! ## setCt -/

@[simp] theorem setCt_cfg (s : State) (c : Byte) (e : CtEntry) : (s.setCt c e).cfg = s.cfg := rfl
@[simp] theorem setCt_arg (s : State) (c : Byte) (e : CtEntry) : (s.setCt c e).arg = s.arg := rfl
@[simp] theorem setCt_result (s : State) (c : Byte) (e : CtEntry) : (s.setCt c e).result = s.result := rfl
@[simp] theorem setCt_fault (s : State) (c : Byte) (e : CtEntry) : (s.setCt c e).fault = s.fault := rfl
@[simp] theorem setCt_faultInfo0 (s : State) (c : Byte) (e : CtEntry) : (s.setCt c e).faultInfo0 = s.faultInfo0 := rfl
@[simp] theorem setCt_faultInfo1 (s : State) (c : Byte) (e : CtEntry) : (s.setCt c e).faultInfo1 = s.faultInfo1 := rfl
@[simp] theorem setCt_faultCmd (s : State) (c : Byte) (e : CtEntry) : (s.setCt c e).faultCmd = s.faultCmd := rfl
@[simp] theorem setCt_freq (s : State) (c : Byte) (e : CtEntry) : (s.setCt c e).freq = s.freq := rfl
@[simp] theorem setCt_node (s : State) (c : Byte) (e : CtEntry) : (s.setCt c e).node = s.node := rfl
@[simp] theorem setCt_tstate (s : State) (c : Byte) (e : CtEntry) : (s.setCt c e).tstate = s.tstate := rfl
@[simp] theorem setCt_root (s : State) (c : Byte) (e : CtEntry) : (s.setCt c e).root = s.root := rfl
@[simp] theorem setCt_nnodes (s : State) (c : Byte) (e : CtEntry) : (s.setCt c e).nnodes = s.nnodes := rfl
@[simp] theorem setCt_nsym (s : State) (c : Byte) (e : CtEntry) : (s.setCt c e).nsym = s.nsym := rfl
@[simp] theorem setCt_q (s : State) (c : Byte) (e : CtEntry) : (s.setCt c e).q = s.q := rfl
@[simp] theorem setCt_cursor (s : State) (c : Byte) (e : CtEntry) : (s.setCt c e).cursor = s.cursor := rfl
@[simp] theorem setCt_ct (s : State) (c : Byte) (e : CtEntry) : (s.setCt c e).ct = s.ct.set c.toNat e c.isLt := rfl
@[simp] theorem setCt_tvalid (s : State) (c : Byte) (e : CtEntry) : (s.setCt c e).tvalid = s.tvalid := rfl
@[simp] theorem setCt_wstate (s : State) (c : Byte) (e : CtEntry) : (s.setCt c e).wstate = s.wstate := rfl
@[simp] theorem setCt_wacc (s : State) (c : Byte) (e : CtEntry) : (s.setCt c e).wacc = s.wacc := rfl
@[simp] theorem setCt_wn (s : State) (c : Byte) (e : CtEntry) : (s.setCt c e).wn = s.wn := rfl
@[simp] theorem setCt_olen (s : State) (c : Byte) (e : CtEntry) : (s.setCt c e).olen = s.olen := rfl
@[simp] theorem setCt_wlimit (s : State) (c : Byte) (e : CtEntry) : (s.setCt c e).wlimit = s.wlimit := rfl
@[simp] theorem setCt_obuf (s : State) (c : Byte) (e : CtEntry) : (s.setCt c e).obuf = s.obuf := rfl
@[simp] theorem setCt_cur (s : State) (c : Byte) (e : CtEntry) : (s.setCt c e).cur = s.cur := rfl
@[simp] theorem setCt_nxt (s : State) (c : Byte) (e : CtEntry) : (s.setCt c e).nxt = s.nxt := rfl
@[simp] theorem setCt_aft (s : State) (c : Byte) (e : CtEntry) : (s.setCt c e).aft = s.aft := rfl
@[simp] theorem setCt_aftv (s : State) (c : Byte) (e : CtEntry) : (s.setCt c e).aftv = s.aftv := rfl
@[simp] theorem setCt_rem (s : State) (c : Byte) (e : CtEntry) : (s.setCt c e).rem = s.rem := rfl
@[simp] theorem setCt_rstate (s : State) (c : Byte) (e : CtEntry) : (s.setCt c e).rstate = s.rstate := rfl
@[simp] theorem setCt_rlen (s : State) (c : Byte) (e : CtEntry) : (s.setCt c e).rlen = s.rlen := rfl
@[simp] theorem setCt_rbase (s : State) (c : Byte) (e : CtEntry) : (s.setCt c e).rbase = s.rbase := rfl
@[simp] theorem setCt_ilen (s : State) (c : Byte) (e : CtEntry) : (s.setCt c e).ilen = s.ilen := rfl
@[simp] theorem setCt_ibuf (s : State) (c : Byte) (e : CtEntry) : (s.setCt c e).ibuf = s.ibuf := rfl
@[simp] theorem setCt_epoch (s : State) (c : Byte) (e : CtEntry) : (s.setCt c e).epoch = s.epoch := rfl
@[simp] theorem setCt_bus (s : State) (c : Byte) (e : CtEntry) : (s.setCt c e).bus = s.bus := rfl
@[simp] theorem setCt_reads (s : State) (c : Byte) (e : CtEntry) : (s.setCt c e).reads = s.reads := rfl

/-! ## clearCt -/

@[simp] theorem clearCt_cfg (s : State) : (s.clearCt).cfg = s.cfg := rfl
@[simp] theorem clearCt_arg (s : State) : (s.clearCt).arg = s.arg := rfl
@[simp] theorem clearCt_result (s : State) : (s.clearCt).result = s.result := rfl
@[simp] theorem clearCt_fault (s : State) : (s.clearCt).fault = s.fault := rfl
@[simp] theorem clearCt_faultInfo0 (s : State) : (s.clearCt).faultInfo0 = s.faultInfo0 := rfl
@[simp] theorem clearCt_faultInfo1 (s : State) : (s.clearCt).faultInfo1 = s.faultInfo1 := rfl
@[simp] theorem clearCt_faultCmd (s : State) : (s.clearCt).faultCmd = s.faultCmd := rfl
@[simp] theorem clearCt_freq (s : State) : (s.clearCt).freq = s.freq := rfl
@[simp] theorem clearCt_node (s : State) : (s.clearCt).node = s.node := rfl
@[simp] theorem clearCt_tstate (s : State) : (s.clearCt).tstate = s.tstate := rfl
@[simp] theorem clearCt_root (s : State) : (s.clearCt).root = s.root := rfl
@[simp] theorem clearCt_nnodes (s : State) : (s.clearCt).nnodes = s.nnodes := rfl
@[simp] theorem clearCt_nsym (s : State) : (s.clearCt).nsym = s.nsym := rfl
@[simp] theorem clearCt_q (s : State) : (s.clearCt).q = s.q := rfl
@[simp] theorem clearCt_cursor (s : State) : (s.clearCt).cursor = s.cursor := rfl
@[simp] theorem clearCt_ct (s : State) : (s.clearCt).ct = Vector.replicate alpha CtEntry.empty := rfl
@[simp] theorem clearCt_tvalid (s : State) : (s.clearCt).tvalid = s.tvalid := rfl
@[simp] theorem clearCt_wstate (s : State) : (s.clearCt).wstate = s.wstate := rfl
@[simp] theorem clearCt_wacc (s : State) : (s.clearCt).wacc = s.wacc := rfl
@[simp] theorem clearCt_wn (s : State) : (s.clearCt).wn = s.wn := rfl
@[simp] theorem clearCt_olen (s : State) : (s.clearCt).olen = s.olen := rfl
@[simp] theorem clearCt_wlimit (s : State) : (s.clearCt).wlimit = s.wlimit := rfl
@[simp] theorem clearCt_obuf (s : State) : (s.clearCt).obuf = s.obuf := rfl
@[simp] theorem clearCt_cur (s : State) : (s.clearCt).cur = s.cur := rfl
@[simp] theorem clearCt_nxt (s : State) : (s.clearCt).nxt = s.nxt := rfl
@[simp] theorem clearCt_aft (s : State) : (s.clearCt).aft = s.aft := rfl
@[simp] theorem clearCt_aftv (s : State) : (s.clearCt).aftv = s.aftv := rfl
@[simp] theorem clearCt_rem (s : State) : (s.clearCt).rem = s.rem := rfl
@[simp] theorem clearCt_rstate (s : State) : (s.clearCt).rstate = s.rstate := rfl
@[simp] theorem clearCt_rlen (s : State) : (s.clearCt).rlen = s.rlen := rfl
@[simp] theorem clearCt_rbase (s : State) : (s.clearCt).rbase = s.rbase := rfl
@[simp] theorem clearCt_ilen (s : State) : (s.clearCt).ilen = s.ilen := rfl
@[simp] theorem clearCt_ibuf (s : State) : (s.clearCt).ibuf = s.ibuf := rfl
@[simp] theorem clearCt_epoch (s : State) : (s.clearCt).epoch = s.epoch := rfl
@[simp] theorem clearCt_bus (s : State) : (s.clearCt).bus = s.bus := rfl
@[simp] theorem clearCt_reads (s : State) : (s.clearCt).reads = s.reads := rfl

/-! ## clearTree -/

@[simp] theorem clearTree_cfg (s : State) : (s.clearTree).cfg = s.cfg := rfl
@[simp] theorem clearTree_arg (s : State) : (s.clearTree).arg = s.arg := rfl
@[simp] theorem clearTree_result (s : State) : (s.clearTree).result = s.result := rfl
@[simp] theorem clearTree_fault (s : State) : (s.clearTree).fault = s.fault := rfl
@[simp] theorem clearTree_faultInfo0 (s : State) : (s.clearTree).faultInfo0 = s.faultInfo0 := rfl
@[simp] theorem clearTree_faultInfo1 (s : State) : (s.clearTree).faultInfo1 = s.faultInfo1 := rfl
@[simp] theorem clearTree_faultCmd (s : State) : (s.clearTree).faultCmd = s.faultCmd := rfl
@[simp] theorem clearTree_freq (s : State) : (s.clearTree).freq = s.freq := rfl
@[simp] theorem clearTree_node (s : State) : (s.clearTree).node = Vector.replicate nodeCount NodeRec.unused := rfl
@[simp] theorem clearTree_tstate (s : State) : (s.clearTree).tstate = s.tstate := rfl
@[simp] theorem clearTree_root (s : State) : (s.clearTree).root = s.root := rfl
@[simp] theorem clearTree_nnodes (s : State) : (s.clearTree).nnodes = s.nnodes := rfl
@[simp] theorem clearTree_nsym (s : State) : (s.clearTree).nsym = s.nsym := rfl
@[simp] theorem clearTree_q (s : State) : (s.clearTree).q = s.q := rfl
@[simp] theorem clearTree_cursor (s : State) : (s.clearTree).cursor = s.cursor := rfl
@[simp] theorem clearTree_ct (s : State) : (s.clearTree).ct = Vector.replicate alpha CtEntry.empty := rfl
@[simp] theorem clearTree_tvalid (s : State) : (s.clearTree).tvalid = false := rfl
@[simp] theorem clearTree_wstate (s : State) : (s.clearTree).wstate = s.wstate := rfl
@[simp] theorem clearTree_wacc (s : State) : (s.clearTree).wacc = s.wacc := rfl
@[simp] theorem clearTree_wn (s : State) : (s.clearTree).wn = s.wn := rfl
@[simp] theorem clearTree_olen (s : State) : (s.clearTree).olen = s.olen := rfl
@[simp] theorem clearTree_wlimit (s : State) : (s.clearTree).wlimit = s.wlimit := rfl
@[simp] theorem clearTree_obuf (s : State) : (s.clearTree).obuf = s.obuf := rfl
@[simp] theorem clearTree_cur (s : State) : (s.clearTree).cur = s.cur := rfl
@[simp] theorem clearTree_nxt (s : State) : (s.clearTree).nxt = s.nxt := rfl
@[simp] theorem clearTree_aft (s : State) : (s.clearTree).aft = s.aft := rfl
@[simp] theorem clearTree_aftv (s : State) : (s.clearTree).aftv = s.aftv := rfl
@[simp] theorem clearTree_rem (s : State) : (s.clearTree).rem = s.rem := rfl
@[simp] theorem clearTree_rstate (s : State) : (s.clearTree).rstate = s.rstate := rfl
@[simp] theorem clearTree_rlen (s : State) : (s.clearTree).rlen = s.rlen := rfl
@[simp] theorem clearTree_rbase (s : State) : (s.clearTree).rbase = s.rbase := rfl
@[simp] theorem clearTree_ilen (s : State) : (s.clearTree).ilen = s.ilen := rfl
@[simp] theorem clearTree_ibuf (s : State) : (s.clearTree).ibuf = s.ibuf := rfl
@[simp] theorem clearTree_epoch (s : State) : (s.clearTree).epoch = s.epoch := rfl
@[simp] theorem clearTree_bus (s : State) : (s.clearTree).bus = s.bus := rfl
@[simp] theorem clearTree_reads (s : State) : (s.clearTree).reads = s.reads := rfl

/-! ## dequeue -/

@[simp] theorem dequeue_cfg (s : State) (i : NodeIx) : (s.dequeue i).cfg = s.cfg := rfl
@[simp] theorem dequeue_arg (s : State) (i : NodeIx) : (s.dequeue i).arg = s.arg := rfl
@[simp] theorem dequeue_result (s : State) (i : NodeIx) : (s.dequeue i).result = s.result := rfl
@[simp] theorem dequeue_fault (s : State) (i : NodeIx) : (s.dequeue i).fault = s.fault := rfl
@[simp] theorem dequeue_faultInfo0 (s : State) (i : NodeIx) : (s.dequeue i).faultInfo0 = s.faultInfo0 := rfl
@[simp] theorem dequeue_faultInfo1 (s : State) (i : NodeIx) : (s.dequeue i).faultInfo1 = s.faultInfo1 := rfl
@[simp] theorem dequeue_faultCmd (s : State) (i : NodeIx) : (s.dequeue i).faultCmd = s.faultCmd := rfl
@[simp] theorem dequeue_freq (s : State) (i : NodeIx) : (s.dequeue i).freq = s.freq := rfl
@[simp] theorem dequeue_node (s : State) (i : NodeIx) : (s.dequeue i).node = s.node := rfl
@[simp] theorem dequeue_tstate (s : State) (i : NodeIx) : (s.dequeue i).tstate = s.tstate := rfl
@[simp] theorem dequeue_root (s : State) (i : NodeIx) : (s.dequeue i).root = s.root := rfl
@[simp] theorem dequeue_nnodes (s : State) (i : NodeIx) : (s.dequeue i).nnodes = s.nnodes := rfl
@[simp] theorem dequeue_nsym (s : State) (i : NodeIx) : (s.dequeue i).nsym = s.nsym := rfl
@[simp] theorem dequeue_q (s : State) (i : NodeIx) : (s.dequeue i).q = s.q.filter (· ≠ i) := rfl
@[simp] theorem dequeue_cursor (s : State) (i : NodeIx) : (s.dequeue i).cursor = s.cursor := rfl
@[simp] theorem dequeue_ct (s : State) (i : NodeIx) : (s.dequeue i).ct = s.ct := rfl
@[simp] theorem dequeue_tvalid (s : State) (i : NodeIx) : (s.dequeue i).tvalid = s.tvalid := rfl
@[simp] theorem dequeue_wstate (s : State) (i : NodeIx) : (s.dequeue i).wstate = s.wstate := rfl
@[simp] theorem dequeue_wacc (s : State) (i : NodeIx) : (s.dequeue i).wacc = s.wacc := rfl
@[simp] theorem dequeue_wn (s : State) (i : NodeIx) : (s.dequeue i).wn = s.wn := rfl
@[simp] theorem dequeue_olen (s : State) (i : NodeIx) : (s.dequeue i).olen = s.olen := rfl
@[simp] theorem dequeue_wlimit (s : State) (i : NodeIx) : (s.dequeue i).wlimit = s.wlimit := rfl
@[simp] theorem dequeue_obuf (s : State) (i : NodeIx) : (s.dequeue i).obuf = s.obuf := rfl
@[simp] theorem dequeue_cur (s : State) (i : NodeIx) : (s.dequeue i).cur = s.cur := rfl
@[simp] theorem dequeue_nxt (s : State) (i : NodeIx) : (s.dequeue i).nxt = s.nxt := rfl
@[simp] theorem dequeue_aft (s : State) (i : NodeIx) : (s.dequeue i).aft = s.aft := rfl
@[simp] theorem dequeue_aftv (s : State) (i : NodeIx) : (s.dequeue i).aftv = s.aftv := rfl
@[simp] theorem dequeue_rem (s : State) (i : NodeIx) : (s.dequeue i).rem = s.rem := rfl
@[simp] theorem dequeue_rstate (s : State) (i : NodeIx) : (s.dequeue i).rstate = s.rstate := rfl
@[simp] theorem dequeue_rlen (s : State) (i : NodeIx) : (s.dequeue i).rlen = s.rlen := rfl
@[simp] theorem dequeue_rbase (s : State) (i : NodeIx) : (s.dequeue i).rbase = s.rbase := rfl
@[simp] theorem dequeue_ilen (s : State) (i : NodeIx) : (s.dequeue i).ilen = s.ilen := rfl
@[simp] theorem dequeue_ibuf (s : State) (i : NodeIx) : (s.dequeue i).ibuf = s.ibuf := rfl
@[simp] theorem dequeue_epoch (s : State) (i : NodeIx) : (s.dequeue i).epoch = s.epoch := rfl
@[simp] theorem dequeue_bus (s : State) (i : NodeIx) : (s.dequeue i).bus = s.bus := rfl
@[simp] theorem dequeue_reads (s : State) (i : NodeIx) : (s.dequeue i).reads = s.reads := rfl

/-! ## enqueue -/

@[simp] theorem enqueue_cfg (s : State) (i : NodeIx) : (s.enqueue i).cfg = s.cfg := rfl
@[simp] theorem enqueue_arg (s : State) (i : NodeIx) : (s.enqueue i).arg = s.arg := rfl
@[simp] theorem enqueue_result (s : State) (i : NodeIx) : (s.enqueue i).result = s.result := rfl
@[simp] theorem enqueue_fault (s : State) (i : NodeIx) : (s.enqueue i).fault = s.fault := rfl
@[simp] theorem enqueue_faultInfo0 (s : State) (i : NodeIx) : (s.enqueue i).faultInfo0 = s.faultInfo0 := rfl
@[simp] theorem enqueue_faultInfo1 (s : State) (i : NodeIx) : (s.enqueue i).faultInfo1 = s.faultInfo1 := rfl
@[simp] theorem enqueue_faultCmd (s : State) (i : NodeIx) : (s.enqueue i).faultCmd = s.faultCmd := rfl
@[simp] theorem enqueue_freq (s : State) (i : NodeIx) : (s.enqueue i).freq = s.freq := rfl
@[simp] theorem enqueue_node (s : State) (i : NodeIx) : (s.enqueue i).node = s.node := rfl
@[simp] theorem enqueue_tstate (s : State) (i : NodeIx) : (s.enqueue i).tstate = s.tstate := rfl
@[simp] theorem enqueue_root (s : State) (i : NodeIx) : (s.enqueue i).root = s.root := rfl
@[simp] theorem enqueue_nnodes (s : State) (i : NodeIx) : (s.enqueue i).nnodes = s.nnodes := rfl
@[simp] theorem enqueue_nsym (s : State) (i : NodeIx) : (s.enqueue i).nsym = s.nsym := rfl
@[simp] theorem enqueue_q (s : State) (i : NodeIx) : (s.enqueue i).q = s.q ++ [i] := rfl
@[simp] theorem enqueue_cursor (s : State) (i : NodeIx) : (s.enqueue i).cursor = s.cursor := rfl
@[simp] theorem enqueue_ct (s : State) (i : NodeIx) : (s.enqueue i).ct = s.ct := rfl
@[simp] theorem enqueue_tvalid (s : State) (i : NodeIx) : (s.enqueue i).tvalid = s.tvalid := rfl
@[simp] theorem enqueue_wstate (s : State) (i : NodeIx) : (s.enqueue i).wstate = s.wstate := rfl
@[simp] theorem enqueue_wacc (s : State) (i : NodeIx) : (s.enqueue i).wacc = s.wacc := rfl
@[simp] theorem enqueue_wn (s : State) (i : NodeIx) : (s.enqueue i).wn = s.wn := rfl
@[simp] theorem enqueue_olen (s : State) (i : NodeIx) : (s.enqueue i).olen = s.olen := rfl
@[simp] theorem enqueue_wlimit (s : State) (i : NodeIx) : (s.enqueue i).wlimit = s.wlimit := rfl
@[simp] theorem enqueue_obuf (s : State) (i : NodeIx) : (s.enqueue i).obuf = s.obuf := rfl
@[simp] theorem enqueue_cur (s : State) (i : NodeIx) : (s.enqueue i).cur = s.cur := rfl
@[simp] theorem enqueue_nxt (s : State) (i : NodeIx) : (s.enqueue i).nxt = s.nxt := rfl
@[simp] theorem enqueue_aft (s : State) (i : NodeIx) : (s.enqueue i).aft = s.aft := rfl
@[simp] theorem enqueue_aftv (s : State) (i : NodeIx) : (s.enqueue i).aftv = s.aftv := rfl
@[simp] theorem enqueue_rem (s : State) (i : NodeIx) : (s.enqueue i).rem = s.rem := rfl
@[simp] theorem enqueue_rstate (s : State) (i : NodeIx) : (s.enqueue i).rstate = s.rstate := rfl
@[simp] theorem enqueue_rlen (s : State) (i : NodeIx) : (s.enqueue i).rlen = s.rlen := rfl
@[simp] theorem enqueue_rbase (s : State) (i : NodeIx) : (s.enqueue i).rbase = s.rbase := rfl
@[simp] theorem enqueue_ilen (s : State) (i : NodeIx) : (s.enqueue i).ilen = s.ilen := rfl
@[simp] theorem enqueue_ibuf (s : State) (i : NodeIx) : (s.enqueue i).ibuf = s.ibuf := rfl
@[simp] theorem enqueue_epoch (s : State) (i : NodeIx) : (s.enqueue i).epoch = s.epoch := rfl
@[simp] theorem enqueue_bus (s : State) (i : NodeIx) : (s.enqueue i).bus = s.bus := rfl
@[simp] theorem enqueue_reads (s : State) (i : NodeIx) : (s.enqueue i).reads = s.reads := rfl

/-! ## finishTree -/

@[simp] theorem finishTree_cfg (s : State) (x : TState) (r : NodeIx) (n k : Nat) : (s.finishTree x r n k).cfg = s.cfg := rfl
@[simp] theorem finishTree_arg (s : State) (x : TState) (r : NodeIx) (n k : Nat) : (s.finishTree x r n k).arg = s.arg := rfl
@[simp] theorem finishTree_result (s : State) (x : TState) (r : NodeIx) (n k : Nat) : (s.finishTree x r n k).result = s.result := rfl
@[simp] theorem finishTree_fault (s : State) (x : TState) (r : NodeIx) (n k : Nat) : (s.finishTree x r n k).fault = s.fault := rfl
@[simp] theorem finishTree_faultInfo0 (s : State) (x : TState) (r : NodeIx) (n k : Nat) : (s.finishTree x r n k).faultInfo0 = s.faultInfo0 := rfl
@[simp] theorem finishTree_faultInfo1 (s : State) (x : TState) (r : NodeIx) (n k : Nat) : (s.finishTree x r n k).faultInfo1 = s.faultInfo1 := rfl
@[simp] theorem finishTree_faultCmd (s : State) (x : TState) (r : NodeIx) (n k : Nat) : (s.finishTree x r n k).faultCmd = s.faultCmd := rfl
@[simp] theorem finishTree_freq (s : State) (x : TState) (r : NodeIx) (n k : Nat) : (s.finishTree x r n k).freq = s.freq := rfl
@[simp] theorem finishTree_node (s : State) (x : TState) (r : NodeIx) (n k : Nat) : (s.finishTree x r n k).node = s.node := rfl
@[simp] theorem finishTree_tstate (s : State) (x : TState) (r : NodeIx) (n k : Nat) : (s.finishTree x r n k).tstate = x := rfl
@[simp] theorem finishTree_root (s : State) (x : TState) (r : NodeIx) (n k : Nat) : (s.finishTree x r n k).root = r := rfl
@[simp] theorem finishTree_nnodes (s : State) (x : TState) (r : NodeIx) (n k : Nat) : (s.finishTree x r n k).nnodes = BitVec.ofNat 10 n := rfl
@[simp] theorem finishTree_nsym (s : State) (x : TState) (r : NodeIx) (n k : Nat) : (s.finishTree x r n k).nsym = BitVec.ofNat 9 k := rfl
@[simp] theorem finishTree_q (s : State) (x : TState) (r : NodeIx) (n k : Nat) : (s.finishTree x r n k).q = s.q := rfl
@[simp] theorem finishTree_cursor (s : State) (x : TState) (r : NodeIx) (n k : Nat) : (s.finishTree x r n k).cursor = r := rfl
@[simp] theorem finishTree_ct (s : State) (x : TState) (r : NodeIx) (n k : Nat) : (s.finishTree x r n k).ct = s.ct := rfl
@[simp] theorem finishTree_tvalid (s : State) (x : TState) (r : NodeIx) (n k : Nat) : (s.finishTree x r n k).tvalid = s.tvalid := rfl
@[simp] theorem finishTree_wstate (s : State) (x : TState) (r : NodeIx) (n k : Nat) : (s.finishTree x r n k).wstate = s.wstate := rfl
@[simp] theorem finishTree_wacc (s : State) (x : TState) (r : NodeIx) (n k : Nat) : (s.finishTree x r n k).wacc = s.wacc := rfl
@[simp] theorem finishTree_wn (s : State) (x : TState) (r : NodeIx) (n k : Nat) : (s.finishTree x r n k).wn = s.wn := rfl
@[simp] theorem finishTree_olen (s : State) (x : TState) (r : NodeIx) (n k : Nat) : (s.finishTree x r n k).olen = s.olen := rfl
@[simp] theorem finishTree_wlimit (s : State) (x : TState) (r : NodeIx) (n k : Nat) : (s.finishTree x r n k).wlimit = s.wlimit := rfl
@[simp] theorem finishTree_obuf (s : State) (x : TState) (r : NodeIx) (n k : Nat) : (s.finishTree x r n k).obuf = s.obuf := rfl
@[simp] theorem finishTree_cur (s : State) (x : TState) (r : NodeIx) (n k : Nat) : (s.finishTree x r n k).cur = s.cur := rfl
@[simp] theorem finishTree_nxt (s : State) (x : TState) (r : NodeIx) (n k : Nat) : (s.finishTree x r n k).nxt = s.nxt := rfl
@[simp] theorem finishTree_aft (s : State) (x : TState) (r : NodeIx) (n k : Nat) : (s.finishTree x r n k).aft = s.aft := rfl
@[simp] theorem finishTree_aftv (s : State) (x : TState) (r : NodeIx) (n k : Nat) : (s.finishTree x r n k).aftv = s.aftv := rfl
@[simp] theorem finishTree_rem (s : State) (x : TState) (r : NodeIx) (n k : Nat) : (s.finishTree x r n k).rem = s.rem := rfl
@[simp] theorem finishTree_rstate (s : State) (x : TState) (r : NodeIx) (n k : Nat) : (s.finishTree x r n k).rstate = s.rstate := rfl
@[simp] theorem finishTree_rlen (s : State) (x : TState) (r : NodeIx) (n k : Nat) : (s.finishTree x r n k).rlen = s.rlen := rfl
@[simp] theorem finishTree_rbase (s : State) (x : TState) (r : NodeIx) (n k : Nat) : (s.finishTree x r n k).rbase = s.rbase := rfl
@[simp] theorem finishTree_ilen (s : State) (x : TState) (r : NodeIx) (n k : Nat) : (s.finishTree x r n k).ilen = s.ilen := rfl
@[simp] theorem finishTree_ibuf (s : State) (x : TState) (r : NodeIx) (n k : Nat) : (s.finishTree x r n k).ibuf = s.ibuf := rfl
@[simp] theorem finishTree_epoch (s : State) (x : TState) (r : NodeIx) (n k : Nat) : (s.finishTree x r n k).epoch = s.epoch := rfl
@[simp] theorem finishTree_bus (s : State) (x : TState) (r : NodeIx) (n k : Nat) : (s.finishTree x r n k).bus = s.bus := rfl
@[simp] theorem finishTree_reads (s : State) (x : TState) (r : NodeIx) (n k : Nat) : (s.finishTree x r n k).reads = s.reads := rfl

/-! ## returnWord -/

@[simp] theorem returnWord_cfg (s : State) (v : Word) : (s.returnWord v).cfg = s.cfg := rfl
@[simp] theorem returnWord_arg (s : State) (v : Word) : (s.returnWord v).arg = s.arg := rfl
@[simp] theorem returnWord_result (s : State) (v : Word) : (s.returnWord v).result = s.result := rfl
@[simp] theorem returnWord_fault (s : State) (v : Word) : (s.returnWord v).fault = s.fault := rfl
@[simp] theorem returnWord_faultInfo0 (s : State) (v : Word) : (s.returnWord v).faultInfo0 = s.faultInfo0 := rfl
@[simp] theorem returnWord_faultInfo1 (s : State) (v : Word) : (s.returnWord v).faultInfo1 = s.faultInfo1 := rfl
@[simp] theorem returnWord_faultCmd (s : State) (v : Word) : (s.returnWord v).faultCmd = s.faultCmd := rfl
@[simp] theorem returnWord_freq (s : State) (v : Word) : (s.returnWord v).freq = s.freq := rfl
@[simp] theorem returnWord_node (s : State) (v : Word) : (s.returnWord v).node = s.node := rfl
@[simp] theorem returnWord_tstate (s : State) (v : Word) : (s.returnWord v).tstate = s.tstate := rfl
@[simp] theorem returnWord_root (s : State) (v : Word) : (s.returnWord v).root = s.root := rfl
@[simp] theorem returnWord_nnodes (s : State) (v : Word) : (s.returnWord v).nnodes = s.nnodes := rfl
@[simp] theorem returnWord_nsym (s : State) (v : Word) : (s.returnWord v).nsym = s.nsym := rfl
@[simp] theorem returnWord_q (s : State) (v : Word) : (s.returnWord v).q = s.q := rfl
@[simp] theorem returnWord_cursor (s : State) (v : Word) : (s.returnWord v).cursor = s.cursor := rfl
@[simp] theorem returnWord_ct (s : State) (v : Word) : (s.returnWord v).ct = s.ct := rfl
@[simp] theorem returnWord_tvalid (s : State) (v : Word) : (s.returnWord v).tvalid = s.tvalid := rfl
@[simp] theorem returnWord_wstate (s : State) (v : Word) : (s.returnWord v).wstate = s.wstate := rfl
@[simp] theorem returnWord_wacc (s : State) (v : Word) : (s.returnWord v).wacc = s.wacc := rfl
@[simp] theorem returnWord_wn (s : State) (v : Word) : (s.returnWord v).wn = s.wn := rfl
@[simp] theorem returnWord_olen (s : State) (v : Word) : (s.returnWord v).olen = s.olen := rfl
@[simp] theorem returnWord_wlimit (s : State) (v : Word) : (s.returnWord v).wlimit = s.wlimit := rfl
@[simp] theorem returnWord_obuf (s : State) (v : Word) : (s.returnWord v).obuf = s.obuf := rfl
@[simp] theorem returnWord_cur (s : State) (v : Word) : (s.returnWord v).cur = s.cur := rfl
@[simp] theorem returnWord_nxt (s : State) (v : Word) : (s.returnWord v).nxt = s.nxt := rfl
@[simp] theorem returnWord_aft (s : State) (v : Word) : (s.returnWord v).aft = s.aft := rfl
@[simp] theorem returnWord_aftv (s : State) (v : Word) : (s.returnWord v).aftv = s.aftv := rfl
@[simp] theorem returnWord_rem (s : State) (v : Word) : (s.returnWord v).rem = s.rem := rfl
@[simp] theorem returnWord_rstate (s : State) (v : Word) : (s.returnWord v).rstate = s.rstate := rfl
@[simp] theorem returnWord_rlen (s : State) (v : Word) : (s.returnWord v).rlen = s.rlen := rfl
@[simp] theorem returnWord_rbase (s : State) (v : Word) : (s.returnWord v).rbase = s.rbase := rfl
@[simp] theorem returnWord_ilen (s : State) (v : Word) : (s.returnWord v).ilen = s.ilen := rfl
@[simp] theorem returnWord_ibuf (s : State) (v : Word) : (s.returnWord v).ibuf = s.ibuf := rfl
@[simp] theorem returnWord_epoch (s : State) (v : Word) : (s.returnWord v).epoch = s.epoch := rfl
@[simp] theorem returnWord_bus (s : State) (v : Word) : (s.returnWord v).bus = s.bus := rfl
@[simp] theorem returnWord_reads (s : State) (v : Word) : (s.returnWord v).reads = s.reads ++ [v] := rfl

/-! ## raise and clearFault -/

@[simp] theorem raise_cfg (c : FaultCode) (i0 i1 w : Word) (s : State) : (raise c i0 i1 w s).cfg = s.cfg := by
  unfold raise; split <;> rfl
@[simp] theorem raise_arg (c : FaultCode) (i0 i1 w : Word) (s : State) : (raise c i0 i1 w s).arg = s.arg := by
  unfold raise; split <;> rfl
@[simp] theorem raise_result (c : FaultCode) (i0 i1 w : Word) (s : State) : (raise c i0 i1 w s).result = s.result := by
  unfold raise; split <;> rfl
@[simp] theorem raise_freq (c : FaultCode) (i0 i1 w : Word) (s : State) : (raise c i0 i1 w s).freq = s.freq := by
  unfold raise; split <;> rfl
@[simp] theorem raise_node (c : FaultCode) (i0 i1 w : Word) (s : State) : (raise c i0 i1 w s).node = s.node := by
  unfold raise; split <;> rfl
@[simp] theorem raise_tstate (c : FaultCode) (i0 i1 w : Word) (s : State) : (raise c i0 i1 w s).tstate = s.tstate := by
  unfold raise; split <;> rfl
@[simp] theorem raise_root (c : FaultCode) (i0 i1 w : Word) (s : State) : (raise c i0 i1 w s).root = s.root := by
  unfold raise; split <;> rfl
@[simp] theorem raise_nnodes (c : FaultCode) (i0 i1 w : Word) (s : State) : (raise c i0 i1 w s).nnodes = s.nnodes := by
  unfold raise; split <;> rfl
@[simp] theorem raise_nsym (c : FaultCode) (i0 i1 w : Word) (s : State) : (raise c i0 i1 w s).nsym = s.nsym := by
  unfold raise; split <;> rfl
@[simp] theorem raise_q (c : FaultCode) (i0 i1 w : Word) (s : State) : (raise c i0 i1 w s).q = s.q := by
  unfold raise; split <;> rfl
@[simp] theorem raise_cursor (c : FaultCode) (i0 i1 w : Word) (s : State) : (raise c i0 i1 w s).cursor = s.cursor := by
  unfold raise; split <;> rfl
@[simp] theorem raise_ct (c : FaultCode) (i0 i1 w : Word) (s : State) : (raise c i0 i1 w s).ct = s.ct := by
  unfold raise; split <;> rfl
@[simp] theorem raise_tvalid (c : FaultCode) (i0 i1 w : Word) (s : State) : (raise c i0 i1 w s).tvalid = s.tvalid := by
  unfold raise; split <;> rfl
@[simp] theorem raise_wstate (c : FaultCode) (i0 i1 w : Word) (s : State) : (raise c i0 i1 w s).wstate = s.wstate := by
  unfold raise; split <;> rfl
@[simp] theorem raise_wacc (c : FaultCode) (i0 i1 w : Word) (s : State) : (raise c i0 i1 w s).wacc = s.wacc := by
  unfold raise; split <;> rfl
@[simp] theorem raise_wn (c : FaultCode) (i0 i1 w : Word) (s : State) : (raise c i0 i1 w s).wn = s.wn := by
  unfold raise; split <;> rfl
@[simp] theorem raise_olen (c : FaultCode) (i0 i1 w : Word) (s : State) : (raise c i0 i1 w s).olen = s.olen := by
  unfold raise; split <;> rfl
@[simp] theorem raise_wlimit (c : FaultCode) (i0 i1 w : Word) (s : State) : (raise c i0 i1 w s).wlimit = s.wlimit := by
  unfold raise; split <;> rfl
@[simp] theorem raise_obuf (c : FaultCode) (i0 i1 w : Word) (s : State) : (raise c i0 i1 w s).obuf = s.obuf := by
  unfold raise; split <;> rfl
@[simp] theorem raise_cur (c : FaultCode) (i0 i1 w : Word) (s : State) : (raise c i0 i1 w s).cur = s.cur := by
  unfold raise; split <;> rfl
@[simp] theorem raise_nxt (c : FaultCode) (i0 i1 w : Word) (s : State) : (raise c i0 i1 w s).nxt = s.nxt := by
  unfold raise; split <;> rfl
@[simp] theorem raise_aft (c : FaultCode) (i0 i1 w : Word) (s : State) : (raise c i0 i1 w s).aft = s.aft := by
  unfold raise; split <;> rfl
@[simp] theorem raise_aftv (c : FaultCode) (i0 i1 w : Word) (s : State) : (raise c i0 i1 w s).aftv = s.aftv := by
  unfold raise; split <;> rfl
@[simp] theorem raise_rem (c : FaultCode) (i0 i1 w : Word) (s : State) : (raise c i0 i1 w s).rem = s.rem := by
  unfold raise; split <;> rfl
@[simp] theorem raise_rstate (c : FaultCode) (i0 i1 w : Word) (s : State) : (raise c i0 i1 w s).rstate = s.rstate := by
  unfold raise; split <;> rfl
@[simp] theorem raise_rlen (c : FaultCode) (i0 i1 w : Word) (s : State) : (raise c i0 i1 w s).rlen = s.rlen := by
  unfold raise; split <;> rfl
@[simp] theorem raise_rbase (c : FaultCode) (i0 i1 w : Word) (s : State) : (raise c i0 i1 w s).rbase = s.rbase := by
  unfold raise; split <;> rfl
@[simp] theorem raise_ilen (c : FaultCode) (i0 i1 w : Word) (s : State) : (raise c i0 i1 w s).ilen = s.ilen := by
  unfold raise; split <;> rfl
@[simp] theorem raise_ibuf (c : FaultCode) (i0 i1 w : Word) (s : State) : (raise c i0 i1 w s).ibuf = s.ibuf := by
  unfold raise; split <;> rfl
@[simp] theorem raise_epoch (c : FaultCode) (i0 i1 w : Word) (s : State) : (raise c i0 i1 w s).epoch = s.epoch := by
  unfold raise; split <;> rfl
@[simp] theorem raise_bus (c : FaultCode) (i0 i1 w : Word) (s : State) : (raise c i0 i1 w s).bus = s.bus := by
  unfold raise; split <;> rfl
@[simp] theorem raise_reads (c : FaultCode) (i0 i1 w : Word) (s : State) : (raise c i0 i1 w s).reads = s.reads := by
  unfold raise; split <;> rfl
@[simp] theorem clearFault_cfg (s : State) : (clearFault s).cfg = s.cfg := rfl
@[simp] theorem clearFault_arg (s : State) : (clearFault s).arg = s.arg := rfl
@[simp] theorem clearFault_result (s : State) : (clearFault s).result = s.result := rfl
@[simp] theorem clearFault_fault (s : State) : (clearFault s).fault = .noFault := rfl
@[simp] theorem clearFault_faultInfo0 (s : State) : (clearFault s).faultInfo0 = 0 := rfl
@[simp] theorem clearFault_faultInfo1 (s : State) : (clearFault s).faultInfo1 = 0 := rfl
@[simp] theorem clearFault_faultCmd (s : State) : (clearFault s).faultCmd = 0 := rfl
@[simp] theorem clearFault_freq (s : State) : (clearFault s).freq = s.freq := rfl
@[simp] theorem clearFault_node (s : State) : (clearFault s).node = s.node := rfl
@[simp] theorem clearFault_tstate (s : State) : (clearFault s).tstate = s.tstate := rfl
@[simp] theorem clearFault_root (s : State) : (clearFault s).root = s.root := rfl
@[simp] theorem clearFault_nnodes (s : State) : (clearFault s).nnodes = s.nnodes := rfl
@[simp] theorem clearFault_nsym (s : State) : (clearFault s).nsym = s.nsym := rfl
@[simp] theorem clearFault_q (s : State) : (clearFault s).q = s.q := rfl
@[simp] theorem clearFault_cursor (s : State) : (clearFault s).cursor = s.cursor := rfl
@[simp] theorem clearFault_ct (s : State) : (clearFault s).ct = s.ct := rfl
@[simp] theorem clearFault_tvalid (s : State) : (clearFault s).tvalid = s.tvalid := rfl
@[simp] theorem clearFault_wstate (s : State) : (clearFault s).wstate = s.wstate := rfl
@[simp] theorem clearFault_wacc (s : State) : (clearFault s).wacc = s.wacc := rfl
@[simp] theorem clearFault_wn (s : State) : (clearFault s).wn = s.wn := rfl
@[simp] theorem clearFault_olen (s : State) : (clearFault s).olen = s.olen := rfl
@[simp] theorem clearFault_wlimit (s : State) : (clearFault s).wlimit = s.wlimit := rfl
@[simp] theorem clearFault_obuf (s : State) : (clearFault s).obuf = s.obuf := rfl
@[simp] theorem clearFault_cur (s : State) : (clearFault s).cur = s.cur := rfl
@[simp] theorem clearFault_nxt (s : State) : (clearFault s).nxt = s.nxt := rfl
@[simp] theorem clearFault_aft (s : State) : (clearFault s).aft = s.aft := rfl
@[simp] theorem clearFault_aftv (s : State) : (clearFault s).aftv = s.aftv := rfl
@[simp] theorem clearFault_rem (s : State) : (clearFault s).rem = s.rem := rfl
@[simp] theorem clearFault_rstate (s : State) : (clearFault s).rstate = s.rstate := rfl
@[simp] theorem clearFault_rlen (s : State) : (clearFault s).rlen = s.rlen := rfl
@[simp] theorem clearFault_rbase (s : State) : (clearFault s).rbase = s.rbase := rfl
@[simp] theorem clearFault_ilen (s : State) : (clearFault s).ilen = s.ilen := rfl
@[simp] theorem clearFault_ibuf (s : State) : (clearFault s).ibuf = s.ibuf := rfl
@[simp] theorem clearFault_epoch (s : State) : (clearFault s).epoch = s.epoch := rfl
@[simp] theorem clearFault_bus (s : State) : (clearFault s).bus = s.bus := rfl
@[simp] theorem clearFault_reads (s : State) : (clearFault s).reads = s.reads := rfl

end Sys2Proof.Machine
end

