-- ==== Sys2Proof/Laws/Ops.lean ====
section
/-! SUPPORT. One spec lemma per shared operation of Machine/Ops.lean: the buffers (read after write, the canonical form), the
tables, the fault mechanism, and how an internal step ends. -/

namespace Sys2Proof.Machine

/-! ## Buffers -/

theorem Memory.read_write_same (m : Memory) (k : Nat) (v : Byte) : Memory.read (Memory.write m k v) k = some v := by
  induction m with
  | nil => simp [Memory.write, Memory.read]
  | cons c m ih =>
    obtain ⟨a, u⟩ := c
    unfold Memory.write
    split
    · simp [Memory.read]
    · split
      · simp [Memory.read]
      · simp [Memory.read, *]

theorem Memory.read_write_other (m : Memory) {k j : Nat} (v : Byte) (h : j ≠ k) :
    Memory.read (Memory.write m k v) j = Memory.read m j := by
  induction m with
  | nil => simp [Memory.write, Memory.read, h]
  | cons c m ih =>
    obtain ⟨a, u⟩ := c
    unfold Memory.write
    split
    · simp [Memory.read, h]
    · split
      · subst_vars; simp [Memory.read, h]
      · simp [Memory.read, ih]

theorem Memory.wf_cons (a : Nat) (u : Byte) (m : Memory) :
    Memory.wf ((a, u) :: m) = true ↔ (∀ c ∈ m, a < c.1) ∧ Memory.wf m = true := by
  simp [Memory.wf]

theorem Memory.mem_write {m : Memory} {k : Nat} {v : Byte} {c : Host.Cell} (h : c ∈ Memory.write m k v) :
    c = (k, v) ∨ c ∈ m := by
  induction m with
  | nil => simpa [Memory.write] using h
  | cons d m ih =>
    obtain ⟨a, u⟩ := d
    unfold Memory.write at h
    split at h
    · simpa using h
    · split at h
      · rcases List.mem_cons.1 h with h | h
        · exact .inl h
        · exact .inr (List.mem_cons_of_mem _ h)
      · rcases List.mem_cons.1 h with h | h
        · exact .inr (h ▸ List.mem_cons_self)
        · exact (ih h).imp id (List.mem_cons_of_mem _)

/-- Every memory operation keeps the canonical form. -/
theorem Memory.write_wf {m : Memory} (k : Nat) (v : Byte) (h : Memory.wf m = true) :
    Memory.wf (Memory.write m k v) = true := by
  induction m with
  | nil => simp [Memory.write, Memory.wf]
  | cons d m ih =>
    obtain ⟨a, u⟩ := d
    obtain ⟨hlt, hm⟩ := (Memory.wf_cons ..).1 h
    unfold Memory.write
    split
    · rename_i hk
      refine (Memory.wf_cons ..).2 ⟨fun c hc => ?_, h⟩
      rcases List.mem_cons.1 hc with rfl | hc
      · exact hk
      · exact lt_trans hk (hlt c hc)
    · split
      · subst_vars; exact (Memory.wf_cons ..).2 ⟨hlt, hm⟩
      · refine (Memory.wf_cons ..).2 ⟨fun c hc => ?_, ih hm⟩
        rcases Memory.mem_write hc with rfl | hc
        · show a < k; omega
        · exact hlt c hc

theorem Memory.write_below {m : Memory} {k size : Nat} (v : Byte) (hk : k < size)
    (h : Memory.below m size = true) : Memory.below (Memory.write m k v) size = true := by
  simp only [Memory.below, List.all_eq_true, decide_eq_true_eq] at *
  intro c hc
  rcases Memory.mem_write hc with rfl | hc
  · exact hk
  · exact h c hc

/-- Two memories in canonical form that read alike at every index are equal. -/
theorem Memory.ext_of_wf {m n : Memory} (hm : Memory.wf m = true) (hn : Memory.wf n = true)
    (h : ∀ k, Memory.read m k = Memory.read n k) : m = n := by
  have absent : ∀ {m : Memory} {k : Nat}, (∀ c ∈ m, k < c.1) → Memory.read m k = none := by
    intro m k hk
    induction m with
    | nil => rfl
    | cons c m ih =>
      obtain ⟨a, u⟩ := c
      have : k < a := hk (a, u) List.mem_cons_self
      have hne : k ≠ a := by omega
      simp [Memory.read, hne, ih fun c hc => hk c (List.mem_cons_of_mem _ hc)]
  induction m generalizing n with
  | nil =>
    cases n with
    | nil => rfl
    | cons c n => have := h c.1; simp [Memory.read] at this
  | cons c m ih =>
    obtain ⟨a, u⟩ := c
    cases n with
    | nil => have := h a; simp [Memory.read] at this
    | cons d n =>
      obtain ⟨b, w⟩ := d
      obtain ⟨hlm, hm'⟩ := (Memory.wf_cons ..).1 hm
      obtain ⟨hln, hn'⟩ := (Memory.wf_cons ..).1 hn
      have hab : a = b := by
        rcases Nat.lt_trichotomy a b with hlt | heq | hgt
        · have := h a
          have hne : a ≠ b := by omega
          simp [Memory.read, hne, absent (m := n) fun c hc => lt_trans hlt (hln c hc)] at this
        · exact heq
        · have := h b
          have hne : b ≠ a := by omega
          simp [Memory.read, hne, absent (m := m) fun c hc => lt_trans hgt (hlm c hc)] at this
      subst hab
      have huw : u = w := by have := h a; simpa [Memory.read] using this
      subst huw
      congr 1
      refine ih hm' hn' fun k => ?_
      by_cases hk : k = a
      · subst hk; rw [absent hlm, absent hln]
      · have := h k; simpa [Memory.read, hk] using this

@[simp] theorem setIbuf_ibufByte_same (s : State) (k : Nat) (v : Byte) : (s.setIbuf k v).ibufByte k = v := by
  simp [State.ibufByte, State.setIbuf, Memory.read_write_same]

theorem setIbuf_ibufByte_other (s : State) {k j : Nat} (v : Byte) (h : j ≠ k) :
    (s.setIbuf k v).ibufByte j = s.ibufByte j := by
  simp [State.ibufByte, State.setIbuf, Memory.read_write_other _ _ h]

@[simp] theorem setObuf_obufByte_same (s : State) (k : Nat) (v : Byte) : (s.setObuf k v).obufByte k = v := by
  simp [State.obufByte, State.setObuf, Memory.read_write_same]

theorem setObuf_obufByte_other (s : State) {k j : Nat} (v : Byte) (h : j ≠ k) :
    (s.setObuf k v).obufByte j = s.obufByte j := by
  simp [State.obufByte, State.setObuf, Memory.read_write_other _ _ h]

/-- A buffer byte depends on nothing but the buffer and the draw. -/
theorem ibufByte_congr {s t : State} (h : t.ibuf = s.ibuf) (he : t.epoch = s.epoch) (k : Nat) :
    t.ibufByte k = s.ibufByte k := by simp [State.ibufByte, h, he]

theorem obufByte_congr {s t : State} (h : t.obuf = s.obuf) (he : t.epoch = s.epoch) (k : Nat) :
    t.obufByte k = s.obufByte k := by simp [State.obufByte, h, he]

/-! ## Tables -/

@[simp] theorem setFreq_freqAt_same (s : State) (c : Byte) (v : Word) : (s.setFreq c v).freqAt c = v := by
  simp [State.freqAt, State.setFreq]

theorem setFreq_freqAt_other (s : State) {c d : Byte} (v : Word) (h : d ≠ c) :
    (s.setFreq c v).freqAt d = s.freqAt d := by
  have : c.toNat ≠ d.toNat := fun e => h (BitVec.eq_of_toNat_eq e.symm)
  simp [State.freqAt, State.setFreq, this]

@[simp] theorem setNode_nodeAt_same (s : State) (i : NodeIx) (r : NodeRec) : (s.setNode i r).nodeAt i = r := by
  simp [State.nodeAt, State.setNode]

theorem setNode_nodeAt_other (s : State) {i j : NodeIx} (r : NodeRec) (h : j ≠ i) :
    (s.setNode i r).nodeAt j = s.nodeAt j := by
  have : i.val ≠ j.val := fun e => h (Fin.ext e.symm)
  simp [State.nodeAt, State.setNode, this]

theorem nodeAt_congr {s t : State} (h : t.node = s.node) (i : NodeIx) : t.nodeAt i = s.nodeAt i := by
  simp [State.nodeAt, h]

theorem freqAt_congr {s t : State} (h : t.freq = s.freq) (c : Byte) : t.freqAt c = s.freqAt c := by
  simp [State.freqAt, h]

theorem ctAt_congr {s t : State} (h : t.ct = s.ct) (c : Byte) : t.ctAt c = s.ctAt c := by
  simp [State.ctAt, h]

@[simp] theorem clearCt_ctAt (s : State) (c : Byte) : s.clearCt.ctAt c = CtEntry.empty := by
  simp [State.ctAt]

@[simp] theorem clearTree_ctAt (s : State) (c : Byte) : s.clearTree.ctAt c = CtEntry.empty := by
  simp [State.ctAt]

@[simp] theorem clearTree_nodeAt (s : State) (i : NodeIx) : s.clearTree.nodeAt i = NodeRec.unused := by
  simp [State.nodeAt]

theorem nodeIx_val {n : Nat} (h : n < nodeCount) : (nodeIx n).val = n := by
  simp [nodeIx, Fin.ofNat, Nat.mod_eq_of_lt h]

@[simp] theorem nodeIx_self (i : NodeIx) : nodeIx i.val = i := Fin.ext (nodeIx_val i.isLt)

/-! ## The fault mechanism -/

/-- R244: the first fault is recorded whole. -/
theorem raise_first {s : State} (h : s.fault = .noFault) (f : FaultCode) (i0 i1 w : Word) :
    raise f i0 i1 w s = { s with fault := f, faultInfo0 := i0, faultInfo1 := i1, faultCmd := w } := by
  simp [raise, h]

/-- R244, R246: a later fault leaves the record as it is. -/
theorem raise_kept {s : State} (h : s.fault ≠ .noFault) (f : FaultCode) (i0 i1 w : Word) : raise f i0 i1 w s = s := by
  simp [raise, h]

theorem unlessFaulted_run {s : State} (h : s.fault = .noFault) (body : State → Result) :
    unlessFaulted s body = body s := by simp [unlessFaulted, h]

/-- R245: while faulted a command changes nothing. -/
theorem unlessFaulted_drop {s : State} (h : s.fault ≠ .noFault) (body : State → Result) :
    unlessFaulted s body = .next s := by simp [unlessFaulted, h]

/-- How a guarded command can end: it ran with no fault recorded, or it was dropped. -/
theorem unlessFaulted_cases {s : State} {body : State → Result} {r : Result} (h : unlessFaulted s body = r) :
    (s.fault = .noFault ∧ body s = r) ∨ (s.fault ≠ .noFault ∧ r = .next s) := by
  by_cases hf : s.fault = .noFault
  · exact .inl ⟨hf, by rwa [unlessFaulted_run hf] at h⟩
  · exact .inr ⟨hf, by rw [unlessFaulted_drop hf] at h; exact h.symm⟩

@[simp] theorem Ran.andThen_ok (s : State) (f : State → Ran) : (Ran.ok s).andThen f = f s := rfl
@[simp] theorem Ran.andThen_raised (s : State) (f : State → Ran) : (Ran.raised s).andThen f = .raised s := rfl
@[simp] theorem Ran.state_ok (s : State) : (Ran.ok s).state = s := rfl
@[simp] theorem Ran.state_raised (s : State) : (Ran.raised s).state = s := rfl
@[simp] theorem Ran.outcome_eq (r : Ran) : r.outcome = .next r.state := rfl

theorem Ran.andThen_eq_ok {r : Ran} {f : State → Ran} {t : State} (h : r.andThen f = .ok t) :
    ∃ s, r = .ok s ∧ f s = .ok t := by
  cases r with
  | ok s => exact ⟨s, rfl, h⟩
  | raised s => cases h

end Sys2Proof.Machine
end

