-- ==== Sys2Proof/Laws/Bus.lean ====
section
/-! SUPPORT. The address map, place by place (spec/20_memory.md R61), and what one step does for each access the host can
make (R62 to R69), said once. -/

namespace Sys2Proof.Machine

/-! ## The address map -/

theorem addr_toNat {n : Nat} (h : n < 2 ^ 24) : (BitVec.ofNat 24 n).toNat = n := by
  rw [BitVec.toNat_ofNat, Nat.mod_eq_of_lt h]

/-- Every register sits at its offset of R21. -/
theorem ofOffset_offset (r : Reg) : Reg.ofOffset r.offset = some r := by cases r <;> rfl

theorem offset_inj {r q : Reg} (h : r.offset = q.offset) : r = q := by
  have := ofOffset_offset q
  rw [← h, ofOffset_offset] at this
  exact Option.some.inj this

theorem ofOffset_eq_some {n : Nat} {r : Reg} (h : Reg.ofOffset n = some r) : n = r.offset := by
  have := List.find?_some h
  exact (by simpa using this : r.offset = n).symm

theorem offset_le (r : Reg) : r.offset ≤ 0x058 ∧ r.offset % 4 = 0 := by cases r <;> decide

/-- The listed offsets are exactly the word offsets 0x000 to 0x058 (R21). -/
theorem ofOffset_isSome {n : Nat} (h4 : n % 4 = 0) (h : n ≤ 0x058) : ∃ r, Reg.ofOffset n = some r := by
  have : ∀ k : Fin 23, (Reg.ofOffset (4 * k.val)).isSome = true := by decide
  have hk : n / 4 < 23 := by omega
  have h := this ⟨n / 4, hk⟩
  rw [show 4 * (⟨n / 4, hk⟩ : Fin 23).val = n by simp only; omega] at h
  exact Option.isSome_iff_exists.1 h

theorem targetOf_reg (c : Config) {a : Addr} {r : Reg} (h : a.toNat = r.offset) : targetOf c a = some (.reg r) := by
  have h1 := (offset_le r).1
  have h2 := (offset_le r).2
  have h3 : r.offset < 0x100 := by omega
  simp [targetOf, h, h2, h3, ofOffset_offset]

theorem targetOf_node (c : Config) (i : NodeIx) {w : Nat} (h : w < 8) :
    targetOf c (BitVec.ofNat 24 (0x010000 + 32 * i.val + 4 * w)) = some (.nodeWord i w) := by
  have hi : i.val < 511 := i.isLt
  have ha := addr_toNat (n := 0x010000 + 32 * i.val + 4 * w) (by omega)
  have h1 : (0x010000 + 32 * i.val + 4 * w) % 4 = 0 := by omega
  have h2 : ¬ (0x010000 + 32 * i.val + 4 * w) < 0x100 := by omega
  have h3 : 0x010000 ≤ (0x010000 + 32 * i.val + 4 * w) ∧ (0x010000 + 32 * i.val + 4 * w) < 0x013FE0 := by omega
  have h4 : (0x010000 + 32 * i.val + 4 * w - 0x010000) / 32 = i.val := by omega
  have h5 : (0x010000 + 32 * i.val + 4 * w - 0x010000) % 32 / 4 = w := by omega
  unfold targetOf
  simp only [ha]
  rw [if_neg (by omega), if_neg h2, if_pos h3, h4, h5, nodeIx_self]

theorem targetOf_ct (c : Config) (b : Byte) {w : Nat} (h : w < 16) :
    targetOf c (BitVec.ofNat 24 (0x020000 + 64 * b.toNat + 4 * w)) = some (.ctWord b w) := by
  have hb := b.isLt
  have ha := addr_toNat (n := 0x020000 + 64 * b.toNat + 4 * w) (by omega)
  have h4 : (0x020000 + 64 * b.toNat + 4 * w - 0x020000) / 64 = b.toNat := by omega
  have h5 : (0x020000 + 64 * b.toNat + 4 * w - 0x020000) % 64 / 4 = w := by omega
  unfold targetOf
  simp only [ha]
  rw [if_neg (by omega), if_neg (by omega), if_neg (by omega), if_pos (by omega), h4, h5]
  simp

theorem wf_sizes {c : Config} (h : c.wf = true) :
    (1 ≤ c.countBits ∧ c.countBits ≤ 32) ∧ (2 ≤ c.ibufSize ∧ c.ibufSize ≤ 2 ^ 20) ∧
      (2 ≤ c.obufSize ∧ c.obufSize ≤ 2 ^ 20) := by
  simpa [Config.wf, Config.countBitsOk, Config.ibufSizeOk, Config.obufSizeOk, and_assoc] using h

theorem targetOf_ibuf {c : Config} (hc : c.wf = true) {k : Nat} (h : k < c.ibufSize) :
    targetOf c (BitVec.ofNat 24 (0x400000 + 4 * k)) = some (.ibuf k) := by
  have hs := (wf_sizes hc).2.1.2
  have ha := addr_toNat (n := 0x400000 + 4 * k) (by omega)
  have h4 : (0x400000 + 4 * k - 0x400000) / 4 = k := by omega
  unfold targetOf
  simp only [ha]
  rw [if_neg (by omega), if_neg (by omega), if_neg (by omega), if_neg (by omega), if_pos (by omega), h4]

theorem targetOf_obuf {c : Config} (hc : c.wf = true) {k : Nat} (h : k < c.obufSize) :
    targetOf c (BitVec.ofNat 24 (0x800000 + 4 * k)) = some (.obuf k) := by
  have hi := (wf_sizes hc).2.1.2
  have hs := (wf_sizes hc).2.2.2
  have ha := addr_toNat (n := 0x800000 + 4 * k) (by omega)
  have h4 : (0x800000 + 4 * k - 0x800000) / 4 = k := by omega
  unfold targetOf
  simp only [ha]
  rw [if_neg (by omega), if_neg (by omega), if_neg (by omega), if_neg (by omega), if_neg (by omega),
    if_pos (by omega), h4]

/-- The addresses that name something are the readable ones (R61, R62). -/
theorem targetOf_isSome (c : Config) (a : Addr) : (∃ t, targetOf c a = some t) ↔ readableAddr c a.toNat := by
  unfold targetOf readableAddr
  simp only
  generalize a.toNat = n
  constructor
  · rintro ⟨t, h⟩
    split at h
    · cases h
    · rename_i h4
      refine ⟨by omega, ?_⟩
      split at h
      · cases hr : Reg.ofOffset n with
        | none => simp [hr] at h
        | some r => have := (offset_le r).1; rw [← ofOffset_eq_some hr] at this; exact .inl this
      · split at h
        · right; left; omega
        · split at h
          · right; right; left; omega
          · split at h
            · right; right; right; left; assumption
            · split at h
              · right; right; right; right; assumption
              · cases h
  · rintro ⟨h4, h⟩
    rw [if_neg (by omega)]
    by_cases h1 : n < 0x100
    · rw [if_pos h1]
      obtain ⟨r, hr⟩ := ofOffset_isSome h4 (by omega)
      exact ⟨.reg r, by rw [hr]; rfl⟩
    · rw [if_neg h1]
      by_cases h2 : 0x010000 ≤ n ∧ n < 0x013FE0
      · rw [if_pos h2]; exact ⟨_, rfl⟩
      · rw [if_neg h2]
        by_cases h3 : 0x020000 ≤ n ∧ n < 0x024000
        · rw [if_pos h3]; exact ⟨_, rfl⟩
        · rw [if_neg h3]
          by_cases h5 : 0x400000 ≤ n ∧ n < 0x400000 + 4 * c.ibufSize
          · rw [if_pos h5]; exact ⟨_, rfl⟩
          · rw [if_neg h5]
            by_cases h6 : 0x800000 ≤ n ∧ n < 0x800000 + 4 * c.obufSize
            · rw [if_pos h6]; exact ⟨_, rfl⟩
            · omega

/-- Which addresses name a register, and which an IBUF byte (R61). -/
theorem targetOf_eq_reg {c : Config} {a : Addr} {r : Reg} (h : targetOf c a = some (.reg r)) : a.toNat = r.offset := by
  unfold targetOf at h
  simp only at h
  split at h
  · cases h
  · split at h
    · cases hr : Reg.ofOffset a.toNat with
      | none => simp [hr] at h
      | some q => rw [hr] at h; cases h; exact ofOffset_eq_some hr
    · split at h
      · cases h
      · split at h
        · cases h
        · split at h
          · cases h
          · split at h
            · cases h
            · cases h

theorem targetOf_eq_ibuf {c : Config} {a : Addr} {k : Nat} (h : targetOf c a = some (.ibuf k)) :
    a.toNat = 0x400000 + 4 * k ∧ k < c.ibufSize := by
  unfold targetOf at h
  simp only at h
  split at h
  · cases h
  · split at h
    · cases hr : Reg.ofOffset a.toNat with
      | none => simp [hr] at h
      | some q => simp [hr] at h
    · split at h
      · cases h
      · split at h
        · cases h
        · split at h
          · cases h; omega
          · split at h
            · cases h
            · cases h

/-- The writable places are CMD, ARG, ILEN and the IBUF window (R21, R61). -/
theorem targetOf_writable (c : Config) (a : Addr) :
    (targetOf c a = some (.reg .cmd) ∨ targetOf c a = some (.reg .arg) ∨ targetOf c a = some (.reg .ilen) ∨
      ∃ k, targetOf c a = some (.ibuf k)) ↔ writableAddr c a.toNat := by
  constructor
  · rintro (h | h | h | ⟨k, h⟩)
    · have := targetOf_eq_reg h; simp only [Reg.offset] at this; exact ⟨by omega, by omega⟩
    · have := targetOf_eq_reg h; simp only [Reg.offset] at this; exact ⟨by omega, by omega⟩
    · have := targetOf_eq_reg h; simp only [Reg.offset] at this; exact ⟨by omega, by omega⟩
    · have := targetOf_eq_ibuf h; exact ⟨by omega, by omega⟩
  · rintro ⟨h4, h | h | h | h⟩
    · exact .inl (targetOf_reg c h)
    · exact .inr (.inl (targetOf_reg c h))
    · exact .inr (.inr (.inl (targetOf_reg c h)))
    · refine .inr (.inr (.inr ⟨(a.toNat - 0x400000) / 4, ?_⟩))
      unfold targetOf
      simp only
      rw [if_neg (by omega), if_neg (by omega), if_neg (by omega), if_neg (by omega), if_pos h]

/-! ## One step, access by access -/

theorem step_idle {s : State} (h : s.bus = []) : step s = .next s := by unfold step; rw [h]

theorem step_op {s : State} {op : BusOp} {rest : List BusOp} (h : s.bus = op :: rest) :
    step s = busOp op { s with bus := rest } := by unfold step; rw [h]

/-- A CMD write runs the command of its word (R24). -/
theorem step_command {s : State} {w : Word} {rest : List BusOp} (h : s.bus = BusOp.command w :: rest) :
    step s = cmdWrite w { s with bus := rest } := by rw [step_op h]; rfl

theorem cmdWrite_encode (i : Instr) (w : Word) (s : State) (h : decode w = .ok i) : cmdWrite w s = exec i s := by
  unfold cmdWrite; rw [h]

theorem step_read {s : State} {a : Addr} {rest : List BusOp} {t : Target} (h : s.bus = .read a 4 :: rest)
    (ht : targetOf s.cfg a = some t) : step s = .next { s with bus := rest, reads := s.reads ++ [t.value s] } := by
  have : accessTarget s.cfg a 4 = some t := by rw [accessTarget, if_pos rfl, ht]
  have hv : t.value { s with bus := rest } = t.value s := by
    cases t with
    | reg r => cases r <;> rfl
    | _ => rfl
  rw [step_op h]
  unfold busOp busRead
  simp only [this, hv]
  rfl

theorem step_read_bad {s : State} {a : Addr} {size : Nat} {rest : List BusOp} (h : s.bus = .read a size :: rest)
    (ht : accessTarget s.cfg a size = none) :
    step s = .next ((raiseBus .badAccess (zext32 a) 0 { s with bus := rest }).returnWord 0) := by
  rw [step_op h]
  unfold busOp busRead
  simp only [ht]

theorem step_write_bad {s : State} {a : Addr} {size : Nat} {v : Word} {rest : List BusOp}
    (h : s.bus = .write a size v :: rest) (ht : ¬ (size = 4 ∧ writableAddr s.cfg a.toNat)) :
    step s = .next (badWrite a { s with bus := rest }) := by
  have key : accessTarget s.cfg a size ≠ some (.reg .cmd) ∧ accessTarget s.cfg a size ≠ some (.reg .arg) ∧
      accessTarget s.cfg a size ≠ some (.reg .ilen) ∧ ∀ k, accessTarget s.cfg a size ≠ some (.ibuf k) := by
    unfold accessTarget
    by_cases h4 : size = 4
    · have hw := fun e => ht ⟨h4, (targetOf_writable s.cfg a).1 e⟩
      rw [if_pos h4]
      exact ⟨fun e => hw (.inl e), fun e => hw (.inr (.inl e)), fun e => hw (.inr (.inr (.inl e))),
        fun k e => hw (.inr (.inr (.inr ⟨k, e⟩)))⟩
    · simp [h4]
  obtain ⟨h1, h2, h3, h5⟩ := key
  rw [step_op h]
  unfold busOp busWrite
  simp only
  generalize accessTarget s.cfg a size = t at *
  cases t with
  | none => rfl
  | some t =>
    cases t with
    | reg r =>
      cases r with
      | cmd => exact absurd rfl h1
      | arg => exact absurd rfl h2
      | ilen => exact absurd rfl h3
      | _ => rfl
    | ibuf k => exact absurd rfl (h5 k)
    | _ => rfl

theorem step_write_arg {s : State} {v : Word} {rest : List BusOp} (h : s.bus = .write 0x014 4 v :: rest) :
    step s = .next { s with bus := rest, arg := v } := by rw [step_op h]; rfl

theorem step_write_ilen {s : State} {v : Word} {rest : List BusOp} (h : s.bus = .write 0x038 4 v :: rest) :
    step s = .next (ilenWrite v { s with bus := rest }) := by rw [step_op h]; rfl

theorem step_write_ibuf {s : State} {a : Addr} {k : Nat} {v : Word} {rest : List BusOp}
    (h : s.bus = .write a 4 v :: rest) (ht : targetOf s.cfg a = some (.ibuf k)) :
    step s = .next (({ s with bus := rest } : State).setIbuf k (v.extractLsb' 0 8)) := by
  have : accessTarget s.cfg a 4 = some (.ibuf k) := by rw [accessTarget, if_pos rfl, ht]
  rw [step_op h]
  unfold busOp busWrite
  simp only [this]

theorem step_hardwareReset {s : State} {rest : List BusOp} (h : s.bus = .hardwareReset :: rest) :
    step s = .next (hardReset { s with bus := rest }) := step_op h

/-- Every way one step can answer, said once: idling, a good or a bad read, the four kinds of good write, a bad write, and
the hardware reset. -/
theorem step_cases {s : State} {r : Result} (h : step s = r) :
    (s.bus = [] ∧ r = .next s) ∨
    ∃ op rest, s.bus = op :: rest ∧
      ((∃ a t, op = .read a 4 ∧ targetOf s.cfg a = some t ∧
          r = .next { s with bus := rest, reads := s.reads ++ [t.value s] }) ∨
        (∃ a size, op = .read a size ∧ accessTarget s.cfg a size = none ∧
          r = .next ((raiseBus .badAccess (zext32 a) 0 { s with bus := rest }).returnWord 0)) ∨
        (∃ w, op = BusOp.command w ∧ r = cmdWrite w { s with bus := rest }) ∨
        (∃ v, op = .write 0x014 4 v ∧ r = .next { s with bus := rest, arg := v }) ∨
        (∃ v, op = .write 0x038 4 v ∧ r = .next (ilenWrite v { s with bus := rest })) ∨
        (∃ a k v, op = .write a 4 v ∧ targetOf s.cfg a = some (.ibuf k) ∧
          r = .next (({ s with bus := rest } : State).setIbuf k (v.extractLsb' 0 8))) ∨
        (∃ a size v, op = .write a size v ∧ ¬ (size = 4 ∧ writableAddr s.cfg a.toNat) ∧
          r = .next (badWrite a { s with bus := rest })) ∨
        (op = .hardwareReset ∧ r = .next (hardReset { s with bus := rest }))) := by
  subst h
  cases hb : s.bus with
  | nil => exact .inl ⟨rfl, step_idle hb⟩
  | cons op rest =>
    refine .inr ⟨op, rest, rfl, ?_⟩
    cases op with
    | read a size =>
      cases ht : accessTarget s.cfg a size with
      | none => exact .inr (.inl ⟨a, size, rfl, ht, step_read_bad hb ht⟩)
      | some t =>
        by_cases h4 : size = 4
        · subst h4
          rw [accessTarget, if_pos rfl] at ht
          exact .inl ⟨a, t, rfl, ht, step_read hb ht⟩
        · rw [accessTarget, if_neg h4] at ht; cases ht
    | write a size v =>
      by_cases hw : size = 4 ∧ writableAddr s.cfg a.toNat
      · obtain ⟨rfl, hw⟩ := hw
        rcases (targetOf_writable s.cfg a).2 hw with ht | ht | ht | ⟨k, ht⟩
        · have ha : a = 0x010 := BitVec.eq_of_toNat_eq (targetOf_eq_reg ht)
          subst ha
          exact .inr (.inr (.inl ⟨v, rfl, step_command hb⟩))
        · have ha : a = 0x014 := BitVec.eq_of_toNat_eq (targetOf_eq_reg ht)
          subst ha
          exact .inr (.inr (.inr (.inl ⟨v, rfl, step_write_arg hb⟩)))
        · have ha : a = 0x038 := BitVec.eq_of_toNat_eq (targetOf_eq_reg ht)
          subst ha
          exact .inr (.inr (.inr (.inr (.inl ⟨v, rfl, step_write_ilen hb⟩))))
        · exact .inr (.inr (.inr (.inr (.inr (.inl ⟨a, k, v, rfl, ht, step_write_ibuf hb ht⟩)))))
      · exact .inr (.inr (.inr (.inr (.inr (.inr (.inl ⟨a, size, v, rfl, hw, step_write_bad hb hw⟩))))))
    | hardwareReset => exact .inr (.inr (.inr (.inr (.inr (.inr (.inr ⟨rfl, step_hardwareReset hb⟩))))))

end Sys2Proof.Machine
end

