-- ==== Sys2Proof/Laws/PerInstr.lean ====
section
/-! SUPPORT. The one family of per-instruction lemmas (LAWS.json): every command is well formed, and the fields of its word
are the ones R90 to R95 give it. -/

namespace Sys2Proof.Laws.EncodingShape

/-- R90 to R95: OP is the row's code, RSV is 0, OPD is the operand, and the command is well formed. -/
def Statement (i : Instr) : Prop :=
  opField (encode i) = i.opcode.code ∧ rsvField (encode i) = 0 ∧ opdField (encode i) = i.operand ∧ i.wf = true

theorem symbol_fields (op opd : BitVec 8) :
    opField (op ++ (0 : BitVec 16) ++ opd) = op ∧ rsvField (op ++ (0 : BitVec 16) ++ opd) = 0 ∧
      opdField (op ++ (0 : BitVec 16) ++ opd) = opd := by
  have h : ∀ j, (op ++ (0 : BitVec 16) ++ opd).getLsbD j =
      if j < 8 then opd.getLsbD j else if j - 8 < 16 then false else op.getLsbD (j - 8 - 16) := by
    intro j
    rw [BitVec.getLsbD_append, BitVec.getLsbD_append]
    by_cases h1 : j < 8 <;> by_cases h2 : j - 8 < 16 <;> simp [h1, h2]
  refine ⟨BitVec.eq_of_getLsbD_eq fun j hj => ?_, BitVec.eq_of_getLsbD_eq fun j hj => ?_,
    BitVec.eq_of_getLsbD_eq fun j hj => ?_⟩
  · have h1 : ¬ 24 + j < 8 := by omega
    have h2 : ¬ 24 + j - 8 < 16 := by omega
    have h3 : 24 + j - 8 - 16 = j := by omega
    rw [opField, BitVec.getLsbD_extractLsb', h, if_neg h1, if_neg h2, h3]; simp [hj]
  · have h1 : ¬ 8 + j < 8 := by omega
    have h2 : 8 + j - 8 < 16 := by omega
    rw [rsvField, BitVec.getLsbD_extractLsb', h, if_neg h1, if_pos h2]; simp
  · have h1 : 0 + j < 8 := by omega
    rw [opdField, BitVec.getLsbD_extractLsb', h, if_pos h1]; simp [hj]

theorem of_wf {i : Instr} (h : i.wf = true) : Statement i :=
  ⟨(symbol_fields _ _).1, (symbol_fields _ _).2.1, (symbol_fields _ _).2.2, h⟩

theorem wf_symbol (c : Byte) : decide (c.toNat < 2 ^ 8) = true := decide_eq_true c.isLt

theorem nop : Statement .nop := of_wf rfl
theorem srst : Statement .srst := of_wf rfl
theorem clrfault : Statement .clrfault := of_wf rfl
theorem freqClr : Statement .freqClr := of_wf rfl
theorem freqInc (sym : Byte) : Statement (.freqInc sym) := of_wf (wf_symbol sym)
theorem freqSet (sym : Byte) : Statement (.freqSet sym) := of_wf (wf_symbol sym)
theorem freqGet (sym : Byte) : Statement (.freqGet sym) := of_wf (wf_symbol sym)
theorem build : Statement .build := of_wf rfl
theorem deriveTable : Statement .deriveTable := of_wf rfl
theorem wopen : Statement .wopen := of_wf rfl
theorem wbit (b : Bool) : Statement (.wbit b) := of_wf (by cases b <;> rfl)
theorem wclose : Statement .wclose := of_wf rfl
theorem encodeSym (sym : Byte) : Statement (.encodeSym sym) := of_wf (wf_symbol sym)
theorem ropen : Statement .ropen := of_wf rfl
theorem rbit : Statement .rbit := of_wf rfl
theorem rhasnext : Statement .rhasnext := of_wf rfl
theorem decodeSym : Statement .decodeSym := of_wf rfl

end Sys2Proof.Laws.EncodingShape
end

