-- ==== Sys2Proof/Laws/Reader.lean ====
section
/-! SUPPORT. What the reader's internal steps can do (spec/44_reader.md R191 to R199), said once each: the window, and the bit
sequence `readerBits` an open reader still stands for. -/

namespace Sys2Proof.Machine

/-! ## Frames and bytes -/

theorem topBits_succ (v : Byte) {n : Nat} (h : n ≤ 7) : topBits (n + 1) v = v.getLsbD 7 :: topBits n (v <<< 1) := by
  unfold topBits
  rw [List.range_succ_eq_map, List.map_cons, List.map_map]
  congr 1
  refine List.map_congr_left fun i hi => ?_
  rw [List.mem_range] at hi
  have h1 : 7 - i < 8 := by omega
  have h2 : ¬ 7 - i < 1 := by omega
  simp only [Function.comp, BitVec.getLsbD_shiftLeft, h1, h2, decide_true, decide_false, Bool.not_false, Bool.true_and]
  congr 1

theorem topBits_length (n : Nat) (v : Byte) : (topBits n v).length = n := by simp [topBits]

theorem topBits_zero (v : Byte) : topBits 0 v = [] := rfl

/-- R72: a frame of L ≥ 2 bytes whose last is c carries 8·(L − 2) + c bits. -/
theorem frameBits_length (f : List Byte) (d : Byte) {c : Byte} (hc : c.toNat ≤ 8) :
    (frameBits (f ++ [d, c])).length = 8 * f.length + c.toNat := by
  induction f with
  | nil => simp [frameBits, topBits_length, hc]
  | cons x f ih =>
    have : ∃ y z r, f ++ [d, c] = y :: z :: r := by
      cases f with
      | nil => exact ⟨d, c, [], rfl⟩
      | cons a f =>
        cases f with
        | nil => exact ⟨a, d, [c], rfl⟩
        | cons b f => exact ⟨a, b, f ++ [d, c], rfl⟩
    obtain ⟨y, z, r, hr⟩ := this
    rw [List.cons_append, hr, frameBits, ← hr, List.length_append, topBits_length, ih, List.length_cons]
    omega

/-- The valid-bit count of a trailing byte that is at most 8 fits REM's four bits (R191, R195). -/
theorem lowNibble_toNat {v : Byte} (h : v.toNat ≤ 8) : (v.extractLsb' 0 4).toNat = v.toNat := by
  rw [BitVec.extractLsb'_toNat]; simp; omega

/-! ## The window -/

theorem fetch_some {s : State} {k : Nat} (h : k < s.rlen.toNat) : s.fetch k = some (s.ibufByte k) := if_pos h

theorem fetch_none {s : State} {k : Nat} (h : s.rlen.toNat ≤ k) : s.fetch k = none := if_neg (by omega)

theorem fillWindow_some (w tail : Word) (a : Byte) (s : State) :
    fillWindow w (some a) tail s = .ok { s with aft := a, aftv := true, rem := 8 } := rfl

theorem fillWindow_end {s : State} (h : s.nxt.toNat ≤ 8) (w tail : Word) :
    fillWindow w none tail s = .ok { s with aft := 0, aftv := false, rem := s.nxt.extractLsb' 0 4 } := by
  have : ¬ 8 < s.nxt.toNat := by omega
  simp [fillWindow, this]

theorem fillWindow_bad {s : State} (h : 8 < s.nxt.toNat) (w tail : Word) :
    fillWindow w none tail s =
      .raised (raiseFormat w tail (zext32 s.nxt) { s with aft := 0, aftv := false }) := by
  simp [fillWindow, h]

/-- RBASE + 1 does not wrap inside a frame (R17). -/
theorem rbase_succ {s : State} (h : s.rbase.toNat + 1 ≤ s.rlen.toNat) : (s.rbase + 1).toNat = s.rbase.toNat + 1 := by
  have := s.rlen.isLt
  rw [BitVec.toNat_add]; simp; omega

theorem rem_pred {s : State} (h : 1 ≤ s.rem.toNat) : (s.rem - 1).toNat = s.rem.toNat - 1 := by
  have := s.rem.isLt
  rw [BitVec.toNat_sub]; simp; omega

theorem rem_eq_one {s : State} (h : s.rem.toNat = 1) : s.rem = 1 := BitVec.eq_of_toNat_eq h

/-! ## readBitCore, case by case -/

/-- The bit is not the last of a byte that is followed by another, or the reader is in final-byte mode (R194). -/
theorem readBitCore_stay {s : State} (h : s.aftv = false ∨ s.rem ≠ 1) (w : Word) :
    readBitCore w s = .ok { s with cur := s.cur <<< 1, rem := s.rem - 1 } := by
  have : (s.aftv && decide (s.rem - 1 = 0)) = false := by
    rcases h with h | h
    · simp [h]
    · have : s.rem - 1 ≠ 0 := fun e => h (by have := congrArg (· + 1) e; simpa using this)
      simp only [this, decide_false, Bool.and_false]
  simp only [readBitCore]
  rw [if_neg (by simpa using this)]

/-- The window moves and a further byte follows (R195). -/
theorem readBitCore_move {s : State} (ha : s.aftv = true) (hr : s.rem = 1) (hl : s.rbase.toNat + 3 < s.rlen.toNat)
    (w : Word) :
    readBitCore w s = .ok { s with
      cur := s.nxt, nxt := s.aft, rbase := s.rbase + 1, aft := s.ibufByte (s.rbase.toNat + 3), aftv := true,
      rem := 8 } := by
  have hb := rbase_succ (s := s) (by omega)
  have hf : ({ s with cur := s.nxt, rem := s.rem - 1, nxt := s.aft, rbase := s.rbase + 1 } : State).fetch
      ((s.rbase + 1).toNat + 2) = some (s.ibufByte (s.rbase.toNat + 3)) := by
    rw [hb]; exact fetch_some (k := s.rbase.toNat + 1 + 2) (by show _ < s.rlen.toNat; omega)
  have hc : (s.aftv && decide (s.rem - 1 = 0)) = true := by simp [ha, hr]
  simp only [readBitCore]
  rw [if_pos (by simpa using hc)]
  simp only [advance]
  rw [show ({ s with cur := s.nxt, rem := s.rem - 1, nxt := s.aft, rbase := s.rbase + 1 } : State).fetch
      ((s.rbase + 1).toNat + 2) = _ from hf]
  rfl

theorem readBitCore_last {s : State} (ha : s.aftv = true) (hr : s.rem = 1) (hl : s.rlen.toNat ≤ s.rbase.toNat + 3)
    (hb : s.rbase.toNat + 1 ≤ s.rlen.toNat) (w : Word) :
    readBitCore w s = fillWindow w none (zext32 (s.rbase + 1 + 1))
      { s with cur := s.nxt, rem := s.rem - 1, nxt := s.aft, rbase := s.rbase + 1 } := by
  have hb := rbase_succ hb
  have hf : ({ s with cur := s.nxt, rem := s.rem - 1, nxt := s.aft, rbase := s.rbase + 1 } : State).fetch
      ((s.rbase + 1).toNat + 2) = none := by
    rw [hb]; exact fetch_none (k := s.rbase.toNat + 1 + 2) (by show s.rlen.toNat ≤ _; omega)
  have hc : (s.aftv && decide (s.rem - 1 = 0)) = true := by simp [ha, hr]
  simp only [readBitCore]
  rw [if_pos (by simpa using hc)]
  simp only [advance]
  rw [show ({ s with cur := s.nxt, rem := s.rem - 1, nxt := s.aft, rbase := s.rbase + 1 } : State).fetch
      ((s.rbase + 1).toNat + 2) = _ from hf]

/-- The window moves to final-byte mode (R193, R195). -/
theorem readBitCore_final {s : State} (ha : s.aftv = true) (hr : s.rem = 1) (hl : s.rbase.toNat + 3 = s.rlen.toNat)
    (ht : s.aft.toNat ≤ 8) (w : Word) :
    readBitCore w s = .ok { s with
      cur := s.nxt, nxt := s.aft, rbase := s.rbase + 1, aft := 0, aftv := false, rem := s.aft.extractLsb' 0 4 } := by
  rw [readBitCore_last ha hr (by omega) (by omega), fillWindow_end]
  exact ht

/-- The window moves and finds a trailing byte above 8: the bit is consumed, the reader FAILED (R195, R199). -/
theorem readBitCore_bad {s : State} (ha : s.aftv = true) (hr : s.rem = 1) (hl : s.rbase.toNat + 3 = s.rlen.toNat)
    (ht : 8 < s.aft.toNat) (w : Word) :
    readBitCore w s = .raised (raise .format (BitVec.ofNat 32 (s.rbase.toNat + 2)) (zext32 s.aft) w { s with
      cur := s.nxt, nxt := s.aft, rbase := s.rbase + 1, aft := 0, aftv := false, rem := 0, rstate := .failed }) := by
  have hb := rbase_succ (s := s) (by omega)
  have hw : zext32 (s.rbase + 1 + 1) = BitVec.ofNat 32 (s.rbase.toNat + 2) := by
    apply BitVec.eq_of_toNat_eq
    have h1 := s.rlen.isLt
    have : (s.rbase + 1 + 1).toNat = s.rbase.toNat + 2 := by
      rw [BitVec.toNat_add, hb]; simp; omega
    rw [zext32, BitVec.toNat_setWidth, this]; simp
  rw [readBitCore_last ha hr (by omega) (by omega), fillWindow_bad, hw, hr]
  · rfl
  · exact ht

/-! ## ROPEN (R191) -/

theorem openReader_short {s : State} (h : s.ilen.toNat < 2) (w : Word) :
    openReader w s = .raised (raise .format 0 (zext32 s.ilen) w { s with rlen := s.ilen, rstate := .failed }) := by
  unfold openReader
  simp only
  rw [if_pos h]
  rfl

/-- What every ROPEN of at least two bytes latches before it fills the window. -/
def State.latched (s : State) : State := { s with rlen := s.ilen, cur := s.ibufByte 0, nxt := s.ibufByte 1, rbase := 0 }

theorem openReader_latched {s : State} (h : 2 ≤ s.ilen.toNat) (w : Word) :
    openReader w s = (fillWindow w (s.latched.fetch 2) 1 s.latched).andThen fun s =>
      .ok { s with rstate := .opened, cursor := if s.tstate ≠ .none then s.root else 0 } := by
  unfold openReader
  simp only
  rw [if_neg (by omega)]
  rfl

theorem openReader_long {s : State} (h : 3 ≤ s.ilen.toNat) (w : Word) :
    openReader w s = .ok { s with
      rlen := s.ilen, cur := s.ibufByte 0, nxt := s.ibufByte 1, rbase := 0, aft := s.ibufByte 2, aftv := true, rem := 8,
      rstate := .opened, cursor := if s.tstate ≠ .none then s.root else 0 } := by
  rw [openReader_latched (by omega), fetch_some (s := s.latched) (k := 2) h]
  rfl

/-- A two-byte frame with a legal trailing byte opens in final-byte mode (R193). -/
theorem openReader_two {s : State} (h : s.ilen.toNat = 2) (ht : (s.ibufByte 1).toNat ≤ 8) (w : Word) :
    openReader w s = .ok { s with
      rlen := s.ilen, cur := s.ibufByte 0, nxt := s.ibufByte 1, rbase := 0, aft := 0, aftv := false,
      rem := (s.ibufByte 1).extractLsb' 0 4, rstate := .opened,
      cursor := if s.tstate ≠ .none then s.root else 0 } := by
  rw [openReader_latched (by omega), fetch_none (s := s.latched) (k := 2) (Nat.le_of_eq h), fillWindow_end ht]
  rfl

theorem openReader_two_bad {s : State} (h : s.ilen.toNat = 2) (ht : 8 < (s.ibufByte 1).toNat) (w : Word) :
    openReader w s = .raised (raise .format 1 (zext32 (s.ibufByte 1)) w { s with
      rlen := s.ilen, cur := s.ibufByte 0, nxt := s.ibufByte 1, rbase := 0, aft := 0, aftv := false,
      rstate := .failed }) := by
  rw [openReader_latched (by omega), fetch_none (s := s.latched) (k := 2) (Nat.le_of_eq h), fillWindow_bad ht]
  rfl

/-- The registers a reader step may write; everything else is unchanged. -/
def State.sameButWindow (s t : State) : Prop :=
  t = { s with cur := t.cur, nxt := t.nxt, aft := t.aft, aftv := t.aftv, rem := t.rem, rbase := t.rbase }

theorem State.sameButWindow.trans {s t u : State} (h₁ : s.sameButWindow t) (h₂ : t.sameButWindow u) :
    s.sameButWindow u := by
  unfold State.sameButWindow at *
  rw [h₂, h₁]

/-! ## The bits an open reader stands for -/

theorem hasNext_iff (s : State) :
    s.hasNext = true ↔ s.rstate = .opened ∧ (s.aftv = true ∨ 0 < s.rem.toNat) := by
  simp [State.hasNext]

theorem bytesAhead_final {s : State} (h : s.aftv = false) : s.bytesAhead = [s.nxt] := by simp [State.bytesAhead, h]

theorem readerBits_final {s : State} (h : s.aftv = false) : s.readerBits = topBits s.rem.toNat s.cur := by
  simp [State.readerBits, bytesAhead_final h, frameBits]

/-- R42, R198: hasNext is true exactly while bits remain. -/
theorem hasNext_iff_bits {s : State} (hr : ReaderOk s) (ho : s.rstate = .opened) :
    s.hasNext = true ↔ s.readerBits ≠ [] := by
  rw [hasNext_iff]
  have key : 0 < s.rem.toNat → s.readerBits ≠ [] := by
    intro h hnil
    have := congrArg List.length hnil
    simp [State.readerBits, topBits_length] at this
    omega
  constructor
  · rintro ⟨-, h | h⟩
    · exact key (by have := (hr.2.2.2.1 ho h).1; omega)
    · exact key h
  · intro h
    refine ⟨ho, ?_⟩
    by_cases ha : s.aftv = true
    · exact .inl ha
    · refine .inr ?_
      rw [readerBits_final (by simpa using ha)] at h
      rcases Nat.eq_zero_or_pos s.rem.toNat with h0 | h0
      · rw [h0] at h; exact absurd (topBits_zero _) h
      · exact h0

/-- A legal trailing byte is never found bad. -/
theorem not_formatNext {s : State} (ht : s.trailingByte.toNat ≤ 8) : ¬ s.formatNext := by
  rintro ⟨ha, -, hl, hb⟩
  simp [State.trailingByte, State.bytesAhead, ha, hl] at ht
  omega

/-- R194, R195, R198: with a next bit that does not make the reader find a bad trailing byte, readBitCore completes, consumes
exactly that bit, and keeps the reader's bounds. -/
theorem readBitCore_delivers {s : State} (hr : ReaderOk s) (hn : s.hasNext = true) (hg : ¬ s.formatNext) (w : Word) :
    ∃ t, readBitCore w s = .ok t ∧ s.readerBits = s.nextBit :: t.readerBits ∧ t.trailingByte = s.trailingByte ∧
      ReaderOk t ∧ s.sameButWindow t := by
  obtain ⟨ho, hn⟩ := (hasNext_iff s).1 hn
  obtain ⟨hi, hrl, h8, hA, hF⟩ := hr
  by_cases ha : s.aftv = true
  · obtain ⟨h1, h3⟩ := hA ho ha
    by_cases hrem : s.rem.toNat = 1
    · have hrem' := rem_eq_one hrem
      have hb := rbase_succ (s := s) (by omega)
      by_cases hl : s.rbase.toNat + 3 < s.rlen.toNat
      · refine ⟨_, readBitCore_move ha hrem' hl w, ?_, ?_, ?_, rfl⟩
        · obtain ⟨m, hm⟩ : ∃ m, s.rlen.toNat - (s.rbase.toNat + 3) = m + 1 := ⟨_, (Nat.succ_pred_eq_of_pos (by omega)).symm⟩
          have hm' : s.rlen.toNat - (s.rbase.toNat + 1 + 3) = m := by omega
          simp only [State.readerBits, State.bytesAhead, ha, hrem, if_true, hb, hm, hm', List.range_succ_eq_map,
            List.map_cons, List.map_map]
          rw [frameBits, topBits_succ s.cur (Nat.zero_le 7), topBits_zero]
          simp only [List.cons_append, List.nil_append]
          refine congrArg₂ _ rfl (congrArg₂ _ rfl (congrArg _ (congrArg _ (congrArg₂ _ rfl ?_))))
          refine List.map_congr_left fun j _ => ?_
          show s.ibufByte _ = s.ibufByte _
          congr 1; simp only [Nat.succ_eq_add_one]; omega
        · obtain ⟨m, hm⟩ : ∃ m, s.rlen.toNat - (s.rbase.toNat + 3) = m + 1 := ⟨_, (Nat.succ_pred_eq_of_pos (by omega)).symm⟩
          have hm' : s.rlen.toNat - (s.rbase.toNat + 1 + 3) = m := by omega
          simp only [State.trailingByte, State.bytesAhead, ha, if_true, hb, hm, hm', List.range_succ_eq_map,
            List.map_cons, List.map_map, List.getLastD_cons]
          refine congrArg₂ _ (List.map_congr_left fun j _ => ?_) rfl
          show s.ibufByte _ = s.ibufByte _
          congr 1; simp only [Nat.succ_eq_add_one]; omega
        · refine ⟨hi, hrl, Nat.le_refl 8, fun _ _ => ⟨(by decide : 1 ≤ (8 : BitVec 4).toNat), ?_⟩, (fun _ h => by cases h)⟩
          show (s.rbase + 1).toNat + 3 ≤ s.rlen.toNat
          omega
      · have hle : s.rbase.toNat + 3 = s.rlen.toNat := by omega
        have hta : s.trailingByte = s.aft := by
          simp [State.trailingByte, State.bytesAhead, ha, hle]
        have ht : s.aft.toNat ≤ 8 := Nat.le_of_not_lt fun h => hg ⟨ha, hrem', hle, h⟩
        refine ⟨_, readBitCore_final ha hrem' hle ht w, ?_, ?_, ?_, rfl⟩
        · rw [readerBits_final (s := { s with
            cur := s.nxt, nxt := s.aft, rbase := s.rbase + 1, aft := 0, aftv := false,
            rem := s.aft.extractLsb' 0 4 }) rfl]
          have : s.readerBits = topBits 1 s.cur ++ topBits s.aft.toNat s.nxt := by
            simp [State.readerBits, State.bytesAhead, ha, hrem, hle, frameBits, ht]
          rw [this, topBits_succ s.cur (Nat.zero_le 7), topBits_zero]
          show _ = _ :: topBits (s.aft.extractLsb' 0 4).toNat s.nxt
          rw [lowNibble_toNat ht]; rfl
        · rw [hta]; rfl
        · refine ⟨hi, hrl, ?_, (fun _ h => by cases h), fun _ _ => ⟨?_, rfl, ht, ?_⟩⟩
          · show (s.aft.extractLsb' 0 4).toNat ≤ 8
            rw [lowNibble_toNat ht]; exact ht
          · show (s.rbase + 1).toNat + 2 = s.rlen.toNat
            omega
          · show (s.aft.extractLsb' 0 4).toNat ≤ s.aft.toNat
            rw [lowNibble_toNat ht]
    · have hne : s.rem ≠ 1 := fun e => hrem (by rw [e]; rfl)
      have hp := rem_pred h1
      refine ⟨_, readBitCore_stay (.inr hne) w, ?_, rfl, ?_, rfl⟩
      · obtain ⟨m, hm⟩ : ∃ m, s.rem.toNat = m + 1 := ⟨_, (Nat.succ_pred_eq_of_pos (by omega)).symm⟩
        have : s.rem.toNat - 1 = m := by omega
        show topBits s.rem.toNat s.cur ++ _ = _ :: (topBits (s.rem - 1).toNat (s.cur <<< 1) ++ _)
        rw [hp, this, hm, topBits_succ s.cur (by omega)]; rfl
      · refine ⟨hi, hrl, ?_, fun _ _ => ⟨?_, h3⟩, fun _ h => ?_⟩
        · show (s.rem - 1).toNat ≤ 8; omega
        · show 1 ≤ (s.rem - 1).toNat; omega
        · exact absurd (ha.symm.trans h) (by decide)
  · have haf : s.aftv = false := by simpa using ha
    have hpos : 0 < s.rem.toNat := hn.resolve_left ha
    have hp := rem_pred (s := s) hpos
    obtain ⟨e1, e2, e3, e4⟩ := hF ho haf
    refine ⟨_, readBitCore_stay (.inl haf) w, ?_, rfl, ?_, rfl⟩
    · obtain ⟨m, hm⟩ : ∃ m, s.rem.toNat = m + 1 := ⟨_, (Nat.succ_pred_eq_of_pos (by omega)).symm⟩
      have : s.rem.toNat - 1 = m := by omega
      show topBits s.rem.toNat s.cur ++ _ = _ :: (topBits (s.rem - 1).toNat (s.cur <<< 1) ++ _)
      rw [hp, this, hm, topBits_succ s.cur (by omega)]; rfl
    · refine ⟨hi, hrl, ?_, fun _ h => absurd h ha, fun _ _ => ⟨e1, e2, e3, ?_⟩⟩
      · show (s.rem - 1).toNat ≤ 8; omega
      · show (s.rem - 1).toNat ≤ s.nxt.toNat; omega

/-- R195, R199: where the next bit makes the reader find a bad trailing byte, it is the last bit to be taken, and readBitCore
raises FORMAT with that bit consumed and the reader FAILED. -/
theorem readBitCore_formats {s : State} (h : s.formatNext) (w : Word) :
    readBitCore w s = .raised (raise .format (BitVec.ofNat 32 (s.rbase.toNat + 2)) (zext32 s.aft) w { s with
        cur := s.nxt, nxt := s.aft, rbase := s.rbase + 1, aft := 0, aftv := false, rem := 0, rstate := .failed }) ∧
      s.readerBits = [s.nextBit] ∧ s.bytesAhead = [s.nxt, s.aft] := by
  obtain ⟨ha, hr, hl, hb⟩ := h
  have hahead : s.bytesAhead = [s.nxt, s.aft] := by simp [State.bytesAhead, ha, hl]
  refine ⟨readBitCore_bad ha hr hl hb w, ?_, hahead⟩
  have hone : s.rem.toNat = 1 := by rw [hr]; rfl
  rw [State.readerBits, hahead, frameBits, if_neg (by omega), List.append_nil, hone, topBits_succ s.cur (Nat.zero_le 7),
    topBits_zero]
  rfl

/-- R195: readBitCore leaves the bytes ahead as they are or, where the window moves, drops the first of them. -/
theorem readBitCore_bytesAhead {s t : State} (hr : ReaderOk s) (ho : s.rstate = .opened) {w : Word}
    (h : readBitCore w s = .ok t) : t.bytesAhead = s.bytesAhead ∨ s.bytesAhead = s.nxt :: t.bytesAhead := by
  by_cases hs : s.aftv = false ∨ s.rem ≠ 1
  · rw [readBitCore_stay hs] at h; cases h; exact .inl rfl
  · obtain ⟨ha, hrem⟩ : s.aftv = true ∧ s.rem = 1 := by simpa using hs
    have h3 := (hr.2.2.2.1 ho ha).2
    right
    by_cases hl : s.rbase.toNat + 3 < s.rlen.toNat
    · rw [readBitCore_move ha hrem hl] at h; cases h
      have hb := rbase_succ (s := s) (by omega)
      obtain ⟨m, hm⟩ : ∃ m, s.rlen.toNat - (s.rbase.toNat + 3) = m + 1 := ⟨_, (Nat.succ_pred_eq_of_pos (by omega)).symm⟩
      have hm' : s.rlen.toNat - (s.rbase.toNat + 1 + 3) = m := by omega
      simp only [State.bytesAhead, ha, if_true, hb, hm, hm', List.range_succ_eq_map, List.map_cons, List.map_map]
      refine congrArg₂ _ rfl (congrArg₂ _ rfl (congrArg₂ _ rfl (List.map_congr_left fun j _ => ?_)))
      show s.ibufByte _ = s.ibufByte _
      congr 1; simp only [Nat.succ_eq_add_one]; omega
    · by_cases h8 : s.aft.toNat ≤ 8
      · rw [readBitCore_final ha hrem (by omega) h8] at h; cases h
        have : s.rlen.toNat - (s.rbase.toNat + 3) = 0 := by omega
        simp [State.bytesAhead, ha, this]
      · rw [readBitCore_bad ha hrem (by omega) (by omega)] at h; cases h

/-- R193, R195: an open reader whose trailing byte is above 8 is not in final-byte mode, and has a next bit. -/
theorem hasNext_of_bad_trailing {s : State} (hr : ReaderOk s) (ho : s.rstate = .opened) (ht : 8 < s.trailingByte.toNat) :
    s.aftv = true ∧ s.hasNext = true := by
  have ha : s.aftv = true := by
    by_contra h
    have h : s.aftv = false := by simpa using h
    have := (hr.2.2.2.2 ho h).2.2.1
    simp [State.trailingByte, bytesAhead_final h] at ht
    omega
  exact ⟨ha, (hasNext_iff s).2 ⟨ho, .inl ha⟩⟩

/-- Every way readBitCore can end on an open reader inside its bounds, whatever the trailing byte is. -/
theorem readBitCore_cases {s : State} (hr : ReaderOk s) (hn : s.hasNext = true) (w : Word) :
    (∃ t, readBitCore w s = .ok t ∧ ReaderOk t ∧ s.sameButWindow t) ∨
      (∃ i0 t, readBitCore w s = .raised (raise .format i0 (zext32 s.aft) w t) ∧ ReaderOk t ∧ t.rstate = .failed ∧
        t = { s with
          cur := t.cur, nxt := t.nxt, aft := t.aft, aftv := t.aftv, rem := t.rem, rbase := t.rbase,
          rstate := .failed }) := by
  by_cases hg : s.formatNext
  · refine .inr ⟨_, _, (readBitCore_formats hg w).1, ?_, rfl, rfl⟩
    exact ⟨hr.1, hr.2.1, Nat.zero_le _, (fun h => by cases h), (fun h => by cases h)⟩
  · obtain ⟨t, h1, -, -, h2, h3⟩ := readBitCore_delivers hr hn hg w
    exact .inl ⟨t, h1, h2, h3⟩

end Sys2Proof.Machine
end

