-- ==== Sys2Proof/Laws/Tree.lean ====
section
/-! SUPPORT. What the tree builder's internal steps can do (spec/42_tree.md R131 to R138), said once each: the leaves, the
priority structure's minimum, one merge, and what every round of mergeAll keeps. -/

namespace Sys2Proof.Machine

/-! ## The priority structure -/

/-- R134's order on keys, as numbers: lower frequency first, and among equal frequencies the lower index first. -/
def State.keyLe (s : State) (i j : NodeIx) : Prop :=
  (s.nodeAt i).freq.toNat < (s.nodeAt j).freq.toNat ∨
    ((s.nodeAt i).freq.toNat = (s.nodeAt j).freq.toNat ∧ i.val ≤ j.val)

theorem keyLe_refl (s : State) (i : NodeIx) : s.keyLe i i := .inr ⟨rfl, Nat.le_refl _⟩

theorem keyLe_trans {s : State} {i j k : NodeIx} (h₁ : s.keyLe i j) (h₂ : s.keyLe j k) : s.keyLe i k := by
  unfold State.keyLe at *; omega

theorem keyLe_total (s : State) (i j : NodeIx) : s.keyLe i j ∨ s.keyLe j i := by
  unfold State.keyLe; omega

theorem keyLt_eq_true (s : State) (i j : NodeIx) : s.keyLt i j = true ↔ ¬ s.keyLe j i := by
  have h : ∀ a b : BitVec 40, (a = b) ↔ a.toNat = b.toNat := fun a b => BitVec.toNat_inj.symm
  simp only [State.keyLt, State.keyLe, Bool.or_eq_true, Bool.and_eq_true, decide_eq_true_eq, BitVec.lt_def, h,
    Fin.lt_def]
  omega

theorem minOf_isSome {s : State} {l : List NodeIx} (h : l ≠ []) : ∃ a, s.minOf l = some a := by
  cases l with
  | nil => exact absurd rfl h
  | cons i is =>
    unfold State.minOf
    cases s.minOf is with
    | none => exact ⟨i, rfl⟩
    | some j => simp only; split <;> exact ⟨_, rfl⟩

/-- "the i in Q with the smallest key" (R134). -/
theorem minOf_spec {s : State} {l : List NodeIx} {a : NodeIx} (h : s.minOf l = some a) :
    a ∈ l ∧ ∀ j ∈ l, s.keyLe a j := by
  induction l generalizing a with
  | nil => cases h
  | cons i is ih =>
    unfold State.minOf at h
    cases hm : s.minOf is with
    | none =>
      rw [hm] at h; cases h
      have : is = [] := by
        by_contra hne; obtain ⟨b, hb⟩ := minOf_isSome (s := s) hne; rw [hm] at hb; cases hb
      subst this
      exact ⟨List.mem_cons_self, by simp [keyLe_refl]⟩
    | some j =>
      rw [hm] at h
      obtain ⟨hj, hmin⟩ := ih hm
      simp only at h
      split at h
      · rename_i hlt
        cases h
        refine ⟨List.mem_cons_of_mem _ hj, fun x hx => ?_⟩
        rcases List.mem_cons.1 hx with rfl | hx
        · exact (keyLe_total s a x).resolve_right ((keyLt_eq_true s a x).1 hlt)
        · exact hmin x hx
      · rename_i hlt
        cases h
        have hle : s.keyLe i j := by
          by_contra hn; exact hlt ((keyLt_eq_true s j i).2 hn)
        refine ⟨List.mem_cons_self, fun x hx => ?_⟩
        rcases List.mem_cons.1 hx with rfl | hx
        · exact keyLe_refl s x
        · exact keyLe_trans hle (hmin x hx)

theorem minOf_congr {s t : State} (h : t.node = s.node) (l : List NodeIx) : t.minOf l = s.minOf l := by
  induction l with
  | nil => rfl
  | cons i is ih => simp [State.minOf, ih, State.keyLt, nodeAt_congr h]

/-! ## merge -/

/-- R134, with the two minima named. -/
theorem merge_eq {s : State} (h : 2 ≤ s.q.length) (hn : s.q.Nodup) (next : Nat) :
    ∃ a b, a ∈ s.q ∧ b ∈ s.q ∧ a ≠ b ∧ (∀ j ∈ s.q, s.keyLe a j) ∧ (∀ j ∈ s.q, j ≠ a → s.keyLe b j) ∧
      merge next s =
        { s with
          node := (s.setNode (nodeIx next)
            (NodeRec.internalOf ((s.nodeAt a).freq + (s.nodeAt b).freq) (some a) (some b))).node
          q := ((s.q.filter (· ≠ a)).filter (· ≠ b)) ++ [nodeIx next] } := by
  obtain ⟨a, ha⟩ := minOf_isSome (s := s) (l := s.q) (by intro e; rw [e] at h; simp at h)
  obtain ⟨haq, hamin⟩ := minOf_spec ha
  have hne : s.q.filter (· ≠ a) ≠ [] := by
    intro e
    have hall : ∀ x ∈ s.q, x = a := by
      intro x hx
      by_contra hxa
      have : x ∈ s.q.filter (· ≠ a) := by simp [hx, hxa]
      rw [e] at this; cases this
    have : s.q.length ≤ 1 := by
      match hq : s.q with
      | [] => simp
      | [_] => simp
      | x :: y :: r =>
        rw [hq] at hall hn
        have hx := hall x (by simp)
        have hy := hall y (by simp)
        simp [hx, hy] at hn
    omega
  obtain ⟨b, hb⟩ := minOf_isSome (s := s) hne
  obtain ⟨hbq, hbmin⟩ := minOf_spec hb
  simp only [ne_eq, List.mem_filter, decide_eq_true_eq] at hbq hbmin
  refine ⟨a, b, haq, hbq.1, fun e => hbq.2 e.symm, hamin, fun j hj hja => hbmin j ⟨hj, by simpa using hja⟩, ?_⟩
  have hb' : (s.dequeue a).minOf (s.dequeue a).q = some b := (minOf_congr (s := s) (t := s.dequeue a) rfl _).trans hb
  simp only [merge, ha, hb']
  rfl

/-! ## Leaves (R131, R132) -/

theorem mem_allSymbols (c : Byte) : c ∈ allSymbols := by
  refine List.mem_map.2 ⟨c.toNat, List.mem_range.2 c.isLt, ?_⟩
  simp

theorem allSymbols_nodup : allSymbols.Nodup := by
  refine List.Nodup.map_on (fun a ha b hb h => ?_) List.nodup_range
  rw [List.mem_range] at ha hb
  have := congrArg BitVec.toNat h
  simpa [Nat.mod_eq_of_lt ha, Nat.mod_eq_of_lt hb] using this

theorem mem_presentSymbols (s : State) (c : Byte) : c ∈ s.presentSymbols ↔ s.freqAt c ≠ 0 := by
  simp [State.presentSymbols, mem_allSymbols]

theorem presentSymbols_nodup (s : State) : s.presentSymbols.Nodup := allSymbols_nodup.filter _

theorem presentSymbols_length (s : State) : s.presentSymbols.length ≤ 256 :=
  (List.length_filter_le ..).trans (by simp [allSymbols])

theorem presentSymbols_eq_nil (s : State) : s.presentSymbols = [] ↔ ∀ c, s.freqAt c = 0 := by
  rw [List.eq_nil_iff_forall_not_mem]
  simp [mem_presentSymbols]

theorem writeLeaves_frame (cs : List Byte) (i : Nat) (s : State) :
    writeLeaves cs i s = { s with node := (writeLeaves cs i s).node } := by
  induction cs generalizing i s with
  | nil => rfl
  | cons c cs ih => rw [writeLeaves, ih]; rfl

/-- The records of a list of symbols, from index `i` on; every other record is unchanged. -/
theorem writeLeaves_nodeAt {cs : List Byte} {i : Nat} (s : State) (h : i + cs.length ≤ nodeCount) (j : NodeIx) :
    (writeLeaves cs i s).nodeAt j =
      if i ≤ j.val then
        match cs[j.val - i]? with
        | some c => NodeRec.leafOf c (s.freqAt c)
        | none => s.nodeAt j
      else s.nodeAt j := by
  induction cs generalizing i s with
  | nil => simp [writeLeaves]
  | cons c cs ih =>
    rw [List.length_cons] at h
    have hi : (nodeIx i).val = i := nodeIx_val (by omega)
    rw [writeLeaves, ih _ (by omega)]
    by_cases h1 : i + 1 ≤ j.val
    · have hne : j ≠ nodeIx i := fun e => by rw [e, hi] at h1; omega
      have h2 : j.val - i = (j.val - (i + 1)) + 1 := by omega
      rw [if_pos h1, if_pos (by omega), h2, List.getElem?_cons_succ, setNode_nodeAt_other _ _ hne]
      rfl
    · rw [if_neg h1]
      by_cases h2 : j.val = i
      · have : j = nodeIx i := Fin.ext (by rw [h2, hi])
        subst this
        simp [hi]
      · have hne : j ≠ nodeIx i := fun e => h2 (by rw [e, hi])
        rw [if_neg (by omega), setNode_nodeAt_other _ _ hne]

/-! ## The rounds of mergeAll (R133) -/

/-- The child links of the first `n` records. -/
def State.linksUpTo (s : State) (n : Nat) : List NodeIx :=
  (List.range n).flatMap fun m => (s.nodeAt (nodeIx m)).left.toList ++ (s.nodeAt (nodeIx m)).right.toList

theorem linksUpTo_succ (s : State) (n : Nat) : s.linksUpTo (n + 1) =
    s.linksUpTo n ++ ((s.nodeAt (nodeIx n)).left.toList ++ (s.nodeAt (nodeIx n)).right.toList) := by
  simp [State.linksUpTo, List.range_succ]

theorem linksUpTo_congr {s t : State} {n : Nat} (hn : n ≤ nodeCount)
    (h : ∀ i : NodeIx, i.val < n → t.nodeAt i = s.nodeAt i) : t.linksUpTo n = s.linksUpTo n := by
  unfold State.linksUpTo
  simp only [List.flatMap]
  congr 1
  refine List.map_congr_left fun m hm => ?_
  rw [List.mem_range] at hm
  rw [h _ (by rw [nodeIx_val (by omega)]; exact hm)]

/-- What every round of mergeAll(k) keeps, with `n` the index the next round writes: the records below n are k leaves and
then internal nodes, those from n on are UNUSED, and Q holds the roots of the trees made so far, the last one among them. -/
structure Merging (k n : Nat) (s : State) : Prop where
  bounds : 1 ≤ k ∧ k ≤ 256 ∧ k ≤ n
  length : s.q.length + n = 2 * k
  nodup : s.q.Nodup
  below : ∀ i ∈ s.q, i.val < n
  last : k < n → nodeIx (n - 1) ∈ s.q
  leaf : ∀ i : NodeIx, i.val < k → (s.nodeAt i).kind = .leaf ∧ (s.nodeAt i).left = none ∧ (s.nodeAt i).right = none
  inner : ∀ i : NodeIx, k ≤ i.val → i.val < n →
    (s.nodeAt i).kind = .internal ∧ (s.nodeAt i).sym = 0 ∧ linksBelow i (s.nodeAt i).left = true ∧
      linksBelow i (s.nodeAt i).right = true
  unused : ∀ i : NodeIx, n ≤ i.val → s.nodeAt i = NodeRec.unused
  once : ∀ i : NodeIx, i.val < n → (s.linksUpTo n).count i = if i ∈ s.q then 0 else 1

/-- One round keeps it. -/
theorem Merging.step {k n : Nat} {s : State} (h : Merging k n s) (h2 : 1 < s.q.length) :
    Merging k (n + 1) (merge n s) := by
  obtain ⟨a, b, ha, hb, hab, -, -, he⟩ := merge_eq (s := s) (by omega) h.nodup n
  have hk := h.bounds
  have hl := h.length
  have hn : n < nodeCount := by show n < 511; omega
  have hv : (nodeIx n).val = n := nodeIx_val hn
  have han := h.below a ha
  have hbn := h.below b hb
  have hnq : nodeIx n ∉ s.q := fun hm => by have := h.below _ hm; omega
  have hq : (merge n s).q = ((s.q.filter (· ≠ a)).filter (· ≠ b)) ++ [nodeIx n] := by rw [he]
  have hsame : ∀ i : NodeIx, i ≠ nodeIx n → (merge n s).nodeAt i = s.nodeAt i := fun i hi => by
    rw [he]; exact setNode_nodeAt_other s _ hi
  have hnew : (merge n s).nodeAt (nodeIx n) =
      NodeRec.internalOf ((s.nodeAt a).freq + (s.nodeAt b).freq) (some a) (some b) := by
    rw [he]; exact setNode_nodeAt_same s _ _
  have hmem : ∀ i, i ∈ (merge n s).q ↔ i = nodeIx n ∨ (i ∈ s.q ∧ i ≠ a ∧ i ≠ b) := by
    intro i; rw [hq]; simp only [ne_eq, List.mem_append, List.mem_filter, List.mem_singleton, decide_not, Bool.not_eq_true',
      decide_eq_false_iff_not]
    tauto
  have hlt : ∀ i : NodeIx, i.val < n → i ≠ nodeIx n := fun i hi e => by rw [e, hv] at hi; omega
  refine ⟨⟨hk.1, hk.2.1, by omega⟩, ?_, ?_, ?_, ?_, ?_, ?_, ?_, ?_⟩
  · have e1 : (s.q.filter (· ≠ a)).length + 1 = s.q.length := by
      have := List.length_erase_of_mem ha
      rw [h.nodup.erase_eq_filter] at this
      have : (s.q.filter (· ≠ a)).length = s.q.length - 1 := by simpa [bne, Bool.beq_eq_decide_eq] using this
      omega
    have hb' : b ∈ s.q.filter (· ≠ a) := by simp [hb, Ne.symm hab]
    have e2 : ((s.q.filter (· ≠ a)).filter (· ≠ b)).length + 1 = (s.q.filter (· ≠ a)).length := by
      have := List.length_erase_of_mem hb'
      rw [(h.nodup.filter _).erase_eq_filter] at this
      have : ((s.q.filter (· ≠ a)).filter (· ≠ b)).length = (s.q.filter (· ≠ a)).length - 1 := by
        simpa [bne, Bool.beq_eq_decide_eq] using this
      have := List.length_pos_of_mem hb'
      omega
    rw [hq, List.length_append, List.length_singleton]; omega
  · rw [hq]
    refine List.nodup_append.2 ⟨(h.nodup.filter _).filter _, List.nodup_singleton _, ?_⟩
    intro x hx y hy
    rw [List.mem_singleton] at hy
    have := (List.mem_filter.1 (List.mem_filter.1 hx).1).1
    exact fun e => hnq (by rw [← hy, ← e]; exact this)
  · intro i hi
    rcases (hmem i).1 hi with rfl | ⟨hi, -, -⟩
    · rw [hv]; omega
    · have := h.below i hi; omega
  · intro _; rw [Nat.add_sub_cancel]; exact (hmem _).2 (.inl rfl)
  · intro i hi
    rw [hsame i (hlt i (by omega))]; exact h.leaf i hi
  · intro i hki hi
    by_cases e : i = nodeIx n
    · subst e
      rw [hnew]
      refine ⟨rfl, rfl, ?_, ?_⟩
      · show decide (a < nodeIx n) = true
        rw [decide_eq_true_eq, Fin.lt_def, hv]; exact han
      · show decide (b < nodeIx n) = true
        rw [decide_eq_true_eq, Fin.lt_def, hv]; exact hbn
    · have : i.val ≠ n := fun e' => e (Fin.ext (by rw [hv, e']))
      rw [hsame i e]; exact h.inner i hki (by omega)
  · intro i hi
    rw [hsame i (fun e => by rw [e, hv] at hi; omega)]; exact h.unused i (by omega)
  · intro i hi
    rw [linksUpTo_succ, linksUpTo_congr (s := s) (t := merge n s) (by omega) (fun j hj => hsame j (hlt j hj)), hnew]
    show List.count i (s.linksUpTo n ++ [a, b]) = _
    rw [List.count_append]
    by_cases e : i = nodeIx n
    · subst e
      have h0 : (s.linksUpTo n).count (nodeIx n) = 0 := by
        rw [List.count_eq_zero]
        intro hm
        simp only [State.linksUpTo, List.mem_flatMap, List.mem_range, List.mem_append, Option.mem_toList] at hm
        obtain ⟨m, hm, hl⟩ := hm
        have hmv : (nodeIx m).val = m := nodeIx_val (by omega)
        by_cases hmk : m < k
        · obtain ⟨-, e1, e2⟩ := h.leaf (nodeIx m) (by omega)
          rw [e1, e2] at hl; simp at hl
        · obtain ⟨-, -, e1, e2⟩ := h.inner (nodeIx m) (by omega) (by omega)
          rcases hl with hl | hl
          · rw [hl] at e1; simp [linksBelow, Fin.lt_def, hv, hmv] at e1; omega
          · rw [hl] at e2; simp [linksBelow, Fin.lt_def, hv, hmv] at e2; omega
      have h1 : List.count (nodeIx n) [a, b] = 0 := by
        rw [List.count_eq_zero]; simp only [List.mem_cons, List.not_mem_nil, or_false, not_or]
        exact ⟨fun e => hnq (e ▸ ha), fun e => hnq (e ▸ hb)⟩
      rw [h0, h1, if_pos ((hmem _).2 (.inl rfl))]
    · have : i.val ≠ n := fun e' => e (Fin.ext (by rw [hv, e']))
      rw [h.once i (by omega)]
      by_cases hia : i = a
      · subst hia
        have : i ∉ (merge n s).q := fun hm => by rcases (hmem _).1 hm with h | ⟨-, h, -⟩; exacts [e h, h rfl]
        rw [if_pos ha, if_neg this]
        simp [Ne.symm hab]
      · by_cases hib : i = b
        · subst hib
          have : i ∉ (merge n s).q := fun hm => by rcases (hmem _).1 hm with h | ⟨-, -, h⟩; exacts [e h, h rfl]
          rw [if_pos hb, if_neg this]
          simp [hab]
        · have h1 : List.count i [a, b] = 0 := by
            rw [List.count_eq_zero]; simp [hia, hib]
          have h2 : i ∈ (merge n s).q ↔ i ∈ s.q := by rw [hmem]; simp [e, hia, hib]
          simp only [h1, h2, Nat.add_zero]

/-- A property that every round keeps holds when mergeAll's loop ends, and one root is left. -/
theorem mergeLoop_induct {k : Nat} {P : Nat → State → Prop}
    (hP : ∀ n s, Merging k n s → 1 < s.q.length → P n s → P (n + 1) (merge n s)) :
    ∀ (fuel n : Nat) (s : State), s.q.length ≤ fuel + 1 → Merging k n s → P n s →
      Merging k (2 * k - 1) (mergeLoop fuel n s) ∧ P (2 * k - 1) (mergeLoop fuel n s) := by
  intro fuel
  induction fuel with
  | zero =>
    intro n s hf h hp
    have hq : s.q.length = 1 := by
      have := h.length
      have := h.bounds
      rcases Nat.lt_or_ge k n with hn | hn
      · have := List.length_pos_of_mem (h.last hn); omega
      · omega
    have : n = 2 * k - 1 := by have := h.length; omega
    subst this
    exact ⟨h, hp⟩
  | succ fuel ih =>
    intro n s hf h hp
    unfold mergeLoop
    split
    · rename_i h1
      have hs := h.step h1
      refine ih (n + 1) _ ?_ hs (hP n s h h1 hp)
      have e1 := h.length
      have e2 := hs.length
      omega
    · have hq : s.q.length = 1 := by
        have := h.length
        have := h.bounds
        rcases Nat.lt_or_ge k n with hn | hn
        · have := List.length_pos_of_mem (h.last hn); omega
        · omega
      have : n = 2 * k - 1 := by have := h.length; omega
      subst this
      exact ⟨h, hp⟩

/-- The state in which mergeAll starts its rounds: the leaves of the symbols, and Q = [0, …, k−1] (R131, R133). -/
def State.leavesQueued (s : State) : State :=
  { writeLeaves s.presentSymbols 0 s.clearTree with q := (List.range s.presentSymbols.length).map nodeIx }

theorem leavesQueued_nodeAt (s : State) (j : NodeIx) : s.leavesQueued.nodeAt j =
    match s.presentSymbols[j.val]? with
    | some c => NodeRec.leafOf c (s.freqAt c)
    | none => NodeRec.unused := by
  have h := presentSymbols_length s
  have := writeLeaves_nodeAt (i := 0) s.clearTree (cs := s.presentSymbols)
    (by show 0 + s.presentSymbols.length ≤ 511; omega) j
  rw [if_pos (Nat.zero_le _), Nat.sub_zero, clearTree_nodeAt] at this
  exact this

theorem mem_leavesQueued (s : State) (i : NodeIx) : i ∈ s.leavesQueued.q ↔ i.val < s.presentSymbols.length := by
  have h := presentSymbols_length s
  constructor
  · intro hi
    obtain ⟨m, hm, rfl⟩ := List.mem_map.1 hi
    rw [List.mem_range] at hm
    rwa [nodeIx_val (show m < 511 by omega)]
  · intro hi
    exact List.mem_map.2 ⟨i.val, List.mem_range.2 hi, nodeIx_self i⟩

theorem merging_start {s : State} (h1 : 1 ≤ s.presentSymbols.length) :
    Merging s.presentSymbols.length s.presentSymbols.length s.leavesQueued := by
  have h := presentSymbols_length s
  have hleaf : ∀ i : NodeIx, i.val < s.presentSymbols.length →
      (s.leavesQueued.nodeAt i).kind = .leaf ∧ (s.leavesQueued.nodeAt i).left = none ∧
        (s.leavesQueued.nodeAt i).right = none := by
    intro i hi
    rw [leavesQueued_nodeAt, List.getElem?_eq_getElem hi]
    exact ⟨rfl, rfl, rfl⟩
  refine ⟨⟨h1, h, Nat.le_refl _⟩, ?_, ?_, ?_, fun h => absurd h (Nat.lt_irrefl _), hleaf, ?_, ?_, ?_⟩
  · simp [State.leavesQueued]; omega
  · refine List.Nodup.map_on (fun a ha b hb e => ?_) List.nodup_range
    rw [List.mem_range] at ha hb
    have := congrArg Fin.val e
    rwa [nodeIx_val (show a < 511 by omega), nodeIx_val (show b < 511 by omega)] at this
  · exact fun i hi => (mem_leavesQueued s i).1 hi
  · intro i h1 h2; omega
  · intro i hi
    rw [leavesQueued_nodeAt, List.getElem?_eq_none hi]
  · intro i hi
    rw [if_pos ((mem_leavesQueued s i).2 hi), List.count_eq_zero]
    intro hm
    simp only [State.linksUpTo, List.mem_flatMap, List.mem_range, List.mem_append, Option.mem_toList] at hm
    obtain ⟨m, hm, hl⟩ := hm
    obtain ⟨-, e1, e2⟩ := hleaf (nodeIx m) (by rw [nodeIx_val (show m < 511 by omega)]; exact hm)
    rw [e1, e2] at hl; simp at hl

theorem merge_frame (n : Nat) (s : State) : merge n s = { s with node := (merge n s).node, q := (merge n s).q } := by
  unfold merge
  split
  · rfl
  · split <;> rfl

theorem mergeLoop_frame (fuel n : Nat) (s : State) :
    mergeLoop fuel n s = { s with node := (mergeLoop fuel n s).node, q := (mergeLoop fuel n s).q } := by
  induction fuel generalizing n s with
  | zero => rfl
  | succ fuel ih =>
    unfold mergeLoop
    split
    · rw [ih, merge_frame]
    · rfl

/-- What BUILD may change: NODE, the tree registers, the code table, CURSOR and Q. -/
theorem buildTree_frame (s : State) : buildTree s = { s with
    node := (buildTree s).node, tstate := (buildTree s).tstate, root := (buildTree s).root,
    nnodes := (buildTree s).nnodes, nsym := (buildTree s).nsym, q := (buildTree s).q,
    cursor := (buildTree s).root, ct := s.clearTree.ct, tvalid := false } := by
  unfold buildTree
  simp only
  split
  · rfl
  · split
    · unfold buildDegenerate; rw [writeLeaves_frame]; rfl
    · unfold mergeAll; simp only; rw [mergeLoop_frame, writeLeaves_frame]; rfl

/-- The three shapes of BUILD's result (R131, R135, R136). -/
theorem buildTree_eq (s : State) :
    (s.presentSymbols = [] ∧ buildTree s = buildSentinel s.clearTree) ∨
      (s.presentSymbols.length = 1 ∧ buildTree s = buildDegenerate (writeLeaves s.presentSymbols 0 s.clearTree)) ∨
      (2 ≤ s.presentSymbols.length ∧
        buildTree s =
          ({ mergeLoop s.presentSymbols.length s.presentSymbols.length s.leavesQueued with q := [] } :
            State).finishTree .valid
              ((mergeLoop s.presentSymbols.length s.presentSymbols.length s.leavesQueued).q.headD 0)
              (2 * s.presentSymbols.length - 1) s.presentSymbols.length) := by
  unfold buildTree
  simp only
  by_cases h0 : s.presentSymbols.length = 0
  · rw [if_pos h0]; exact .inl ⟨List.length_eq_zero_iff.1 h0, rfl⟩
  · rw [if_neg h0]
    by_cases h1 : s.presentSymbols.length = 1
    · rw [if_pos h1]; exact .inr (.inl ⟨h1, rfl⟩)
    · rw [if_neg h1]; exact .inr (.inr ⟨by omega, rfl⟩)

/-- What mergeAll's loop ends in, for k ≥ 2 (R133): Q holds one node, the last one made. -/
theorem mergeLoop_end {s : State} (h2 : 2 ≤ s.presentSymbols.length) :
    Merging s.presentSymbols.length (2 * s.presentSymbols.length - 1)
        (mergeLoop s.presentSymbols.length s.presentSymbols.length s.leavesQueued) ∧
      (mergeLoop s.presentSymbols.length s.presentSymbols.length s.leavesQueued).q =
        [nodeIx (2 * s.presentSymbols.length - 2)] := by
  have h := (mergeLoop_induct (P := fun _ _ => True) (fun _ _ _ _ _ => trivial) s.presentSymbols.length
    s.presentSymbols.length s.leavesQueued (by simp [State.leavesQueued]) (merging_start (by omega)) trivial).1
  refine ⟨h, ?_⟩
  have hl := h.length
  have hlast := h.last (by omega)
  have h1 : (mergeLoop s.presentSymbols.length s.presentSymbols.length s.leavesQueued).q.length = 1 := by omega
  obtain ⟨x, hx⟩ := List.length_eq_one_iff.1 h1
  rw [hx, List.mem_singleton] at hlast
  rw [hx, ← hlast]
  rfl

/-! ## preorder (R141) -/

theorem walk_append (s : State) (n : NodeIx) (p q : List Bool) :
    s.walk n (p ++ q) = (s.walk n p).bind fun m => s.walk m q := by
  induction p generalizing n with
  | nil => rfl
  | cons b p ih =>
    simp only [List.cons_append, State.walk]
    cases s.childOf n b with
    | none => rfl
    | some c => exact ih c

/-- The entry of a symbol in a code table. -/
theorem ct_set_same (ct : Vector CtEntry alpha) (c : Byte) (e : CtEntry) :
    (ct.set c.toNat e c.isLt)[c.toNat]'c.isLt = e := Vector.getElem_set_self c.isLt

theorem ct_set_other (ct : Vector CtEntry alpha) {c d : Byte} (e : CtEntry) (h : d ≠ c) :
    (ct.set c.toNat e c.isLt)[d.toNat]'d.isLt = ct[d.toNat]'d.isLt := by
  have : c.toNat ≠ d.toNat := fun e => h (BitVec.eq_of_toNat_eq e.symm)
  exact Vector.getElem_set_ne c.isLt d.isLt this

/-- A leaf has no children, and a child link points to a lower index. -/
structure LinksFall (s : State) : Prop where
  leaf : ∀ i : NodeIx, (s.nodeAt i).kind = .leaf → (s.nodeAt i).left = none ∧ (s.nodeAt i).right = none
  left : ∀ i l : NodeIx, (s.nodeAt i).left = some l → l.val < i.val
  right : ∀ i r : NodeIx, (s.nodeAt i).right = some r → r.val < i.val

theorem linksBelow_some {i c : NodeIx} (h : linksBelow i (some c) = true) : c.val < i.val := by
  exact Fin.lt_def.1 (of_decide_eq_true h)

theorem ValidLayout.linksFall {s : State} (h : ValidLayout s) : LinksFall s := by
  obtain ⟨-, -, -, -, hl, hi, hu⟩ := h
  refine ⟨?_, ?_, ?_⟩
  · intro i hk
    rcases Nat.lt_or_ge i.val s.nsym.toNat with h1 | h1
    · exact (hl i h1).2
    · rcases Nat.lt_or_ge i.val s.nnodes.toNat with h2 | h2
      · rw [(hi i h1 h2).1] at hk; cases hk
      · rw [hu i h2] at hk; cases hk
  · intro i l he
    rcases Nat.lt_or_ge i.val s.nsym.toNat with h1 | h1
    · rw [(hl i h1).2.1] at he; cases he
    · rcases Nat.lt_or_ge i.val s.nnodes.toNat with h2 | h2
      · have := (hi i h1 h2).2.2.1; rw [he] at this; exact linksBelow_some this
      · rw [hu i h2] at he; cases he
  · intro i r he
    rcases Nat.lt_or_ge i.val s.nsym.toNat with h1 | h1
    · rw [(hl i h1).2.2] at he; cases he
    · rcases Nat.lt_or_ge i.val s.nnodes.toNat with h2 | h2
      · have := (hi i h1 h2).2.2.2
        rw [he] at this
        split at this
        · cases this
        · exact linksBelow_some this
      · rw [hu i h2] at he; cases he

/-- The traversal from node `n` at path `p` ends; afterwards an entry is the path of a leaf below `n` that holds its symbol, or
it is what it was and no leaf below `n` holds its symbol. -/
theorem preorder_spec {s : State} (hf : LinksFall s) : ∀ (fuel : Nat) (n : NodeIx) (p : List Bool)
    (ct : Vector CtEntry alpha), n.val < fuel →
    ∃ ct', preorder s fuel n p ct = some ct' ∧ ∀ c : Byte,
      (ct'[c.toNat]'c.isLt = ct[c.toNat]'c.isLt ∧
        ∀ q i, s.walk n q = some i → (s.nodeAt i).kind = .leaf → (s.nodeAt i).sym ≠ c) ∨
      ∃ q i, s.walk n q = some i ∧ (s.nodeAt i).kind = .leaf ∧ (s.nodeAt i).sym = c ∧
        ct'[c.toNat]'c.isLt = CtEntry.ofPath (p ++ q) := by
  intro fuel
  induction fuel with
  | zero => intro n p ct h; omega
  | succ fuel ih =>
    intro n p ct h
    unfold preorder
    simp only
    by_cases hk : (s.nodeAt n).kind = .leaf
    · rw [if_pos hk]
      refine ⟨_, rfl, fun c => ?_⟩
      by_cases hc : c = (s.nodeAt n).sym
      · subst hc
        exact .inr ⟨[], n, rfl, hk, rfl, by rw [List.append_nil, ct_set_same]⟩
      · refine .inl ⟨ct_set_other _ _ hc, fun q i hw hi => ?_⟩
        obtain ⟨hl, hr⟩ := hf.leaf n hk
        cases q with
        | nil => cases hw; exact fun e => hc e.symm
        | cons b q => cases b <;> simp [State.walk, State.childOf, hl, hr] at hw
    · rw [if_neg hk]
      have hL : ∃ ct₁, ((s.nodeAt n).left.elim (some ct) fun l => preorder s fuel l (p ++ [false]) ct) = some ct₁ ∧ ∀ c : Byte,
          (ct₁[c.toNat]'c.isLt = ct[c.toNat]'c.isLt ∧
            ∀ q i, s.walk n (false :: q) = some i → (s.nodeAt i).kind = .leaf → (s.nodeAt i).sym ≠ c) ∨
          ∃ q i, s.walk n (false :: q) = some i ∧ (s.nodeAt i).kind = .leaf ∧ (s.nodeAt i).sym = c ∧
            ct₁[c.toNat]'c.isLt = CtEntry.ofPath (p ++ false :: q) := by
        cases hl : (s.nodeAt n).left with
        | none =>
          exact ⟨ct, rfl, fun c => .inl ⟨rfl, fun q i hw => by simp [State.walk, State.childOf, hl] at hw⟩⟩
        | some l =>
          have hlt := hf.left n l hl
          obtain ⟨ct₁, he, hs⟩ := ih l (p ++ [false]) ct (by omega)
          refine ⟨ct₁, he, fun c => ?_⟩
          have hw : ∀ q, s.walk n (false :: q) = s.walk l q := fun q => by simp [State.walk, State.childOf, hl]
          simpa only [hw, List.append_assoc, List.singleton_append] using hs c
      obtain ⟨ct₁, he₁, hs₁⟩ := hL
      rw [he₁, Option.bind_some]
      have hR : ∃ ct₂, ((s.nodeAt n).right.elim (some ct₁) fun d => preorder s fuel d (p ++ [true]) ct₁) = some ct₂ ∧ ∀ c : Byte,
          (ct₂[c.toNat]'c.isLt = ct₁[c.toNat]'c.isLt ∧
            ∀ q i, s.walk n (true :: q) = some i → (s.nodeAt i).kind = .leaf → (s.nodeAt i).sym ≠ c) ∨
          ∃ q i, s.walk n (true :: q) = some i ∧ (s.nodeAt i).kind = .leaf ∧ (s.nodeAt i).sym = c ∧
            ct₂[c.toNat]'c.isLt = CtEntry.ofPath (p ++ true :: q) := by
        cases hr : (s.nodeAt n).right with
        | none =>
          exact ⟨ct₁, rfl, fun c => .inl ⟨rfl, fun q i hw => by simp [State.walk, State.childOf, hr] at hw⟩⟩
        | some r =>
          have hlt := hf.right n r hr
          obtain ⟨ct₂, he, hs⟩ := ih r (p ++ [true]) ct₁ (by omega)
          refine ⟨ct₂, he, fun c => ?_⟩
          have hw : ∀ q, s.walk n (true :: q) = s.walk r q := fun q => by simp [State.walk, State.childOf, hr]
          simpa only [hw, List.append_assoc, List.singleton_append] using hs c
      obtain ⟨ct₂, he₂, hs₂⟩ := hR
      refine ⟨ct₂, he₂, fun c => ?_⟩
      rcases hs₂ c with ⟨e₂, no₂⟩ | ⟨q, i, hw⟩
      · rcases hs₁ c with ⟨e₁, no₁⟩ | ⟨q, i, h1, h2, h3, h4⟩
        · refine .inl ⟨e₂.trans e₁, fun q i hw hi => ?_⟩
          cases q with
          | nil => cases hw; exact absurd hi hk
          | cons b q =>
            cases b
            · exact no₁ q i hw hi
            · exact no₂ q i hw hi
        · exact .inr ⟨_, i, h1, h2, h3, e₂.trans h4⟩
      · exact .inr ⟨_, i, hw⟩

/-! ## Codes (R142) -/

theorem pathValue_append (p : List Bool) (b : Bool) : pathValue (p ++ [b]) = 2 * pathValue p + b.toNat := by
  simp [pathValue, List.foldl_append]

/-- Path bit i is bit |p| − 1 − i of the number. -/
theorem pathValue_testBit (p : List Bool) : ∀ i, i < p.length →
    (pathValue p).testBit (p.length - 1 - i) = p[i]?.getD false := by
  induction p using List.reverseRecOn with
  | nil => intro i h; simp at h
  | append_singleton p b ih =>
    intro i hi
    rw [List.length_append, List.length_singleton] at hi ⊢
    rw [pathValue_append, Nat.add_sub_cancel]
    rcases Nat.lt_or_ge i p.length with h | h
    · obtain ⟨j, hj⟩ : ∃ j, p.length - i = j + 1 := ⟨p.length - i - 1, by omega⟩
      have e : p.length - 1 - i = j := by omega
      rw [hj, Nat.testBit_succ, List.getElem?_append_left h, ← ih i h, e]
      congr 1
      cases b <;> simp only [Bool.toNat_true, Bool.toNat_false] <;> omega
    · have e : i = p.length := by omega
      subst e
      rw [Nat.sub_self, Nat.testBit_zero, List.getElem?_append_right (Nat.le_refl _), Nat.sub_self]
      cases b <;> simp only [Bool.toNat_true, Bool.toNat_false] <;> simp

theorem pathValue_lt (p : List Bool) : pathValue p < 2 ^ p.length := by
  induction p using List.reverseRecOn with
  | nil => decide
  | append_singleton p b ih =>
    rw [pathValue_append, List.length_append, List.length_singleton, Nat.pow_succ]
    have := Bool.toNat_le b
    omega

/-- R35, R142: the entry of a path of at most 255 bits stands for that path. -/
theorem ofPath_bits {p : List Bool} (h : p.length ≤ 255) : (CtEntry.ofPath p).bits = p := by
  have hl : (CtEntry.ofPath p).len.toNat = p.length := by
    show (BitVec.ofNat 8 p.length).toNat = _
    rw [BitVec.toNat_ofNat, Nat.mod_eq_of_lt (by omega)]
  refine List.ext_getElem? fun i => ?_
  unfold CtEntry.bits
  rw [hl, List.getElem?_map]
  rcases Nat.lt_or_ge i p.length with hi | hi
  · rw [List.getElem?_range hi, Option.map_some]
    show some ((BitVec.ofNat 255 (pathValue p)).getLsbD _) = _
    rw [BitVec.getLsbD_ofNat, pathValue_testBit p i hi, List.getElem?_eq_getElem hi]
    have : p.length - 1 - i < 255 := by omega
    simp [this]
  · rw [List.getElem?_eq_none (by simpa using hi), List.getElem?_eq_none hi]; rfl

theorem ofPath_len {p : List Bool} (h : p.length ≤ 255) : (CtEntry.ofPath p).len.toNat = p.length := by
  show (BitVec.ofNat 8 p.length).toNat = _
  rw [BitVec.toNat_ofNat, Nat.mod_eq_of_lt (by omega)]

theorem ofPath_code {p : List Bool} (h : p.length ≤ 255) : (CtEntry.ofPath p).code.toNat = pathValue p := by
  show (BitVec.ofNat 255 (pathValue p)).toNat = _
  have h1 := pathValue_lt p
  have h2 : 2 ^ p.length ≤ 2 ^ 255 := Nat.pow_le_pow_right (by omega) h
  rw [BitVec.toNat_ofNat, Nat.mod_eq_of_lt (by omega)]

theorem bits_length (e : CtEntry) : e.bits.length = e.len.toNat := by simp [CtEntry.bits]

/-! ## Paths in a finished tree -/

theorem childOf_lt {s : State} (hf : LinksFall s) {i c : NodeIx} {b : Bool} (h : s.childOf i b = some c) :
    c.val < i.val := by
  unfold State.childOf at h
  split at h
  · exact hf.right i c h
  · exact hf.left i c h

/-- A node with a child is an internal node of the tree. -/
theorem childOf_inner {s : State} (h : ValidLayout s) {i c : NodeIx} {b : Bool} (hc : s.childOf i b = some c) :
    s.nsym.toNat ≤ i.val ∧ i.val < s.nnodes.toNat := by
  obtain ⟨-, -, -, -, hl, -, hu⟩ := h
  constructor
  · by_contra hlt
    obtain ⟨-, e1, e2⟩ := hl i (by omega)
    unfold State.childOf at hc
    rw [e1, e2] at hc
    cases b <;> simp at hc
  · by_contra hge
    have e := hu i (by omega)
    unfold State.childOf at hc
    rw [e] at hc
    cases b <;> cases hc

/-- A path of a tree with k leaves from node n has at most n − k + 1 bits. -/
theorem walk_length {s : State} (h : ValidLayout s) {q : List Bool} {n i : NodeIx} (hw : s.walk n q = some i) :
    q = [] ∨ q.length + s.nsym.toNat ≤ n.val + 1 := by
  induction q generalizing n with
  | nil => exact .inl rfl
  | cons b q ih =>
    right
    unfold State.walk at hw
    cases hc : s.childOf n b with
    | none => rw [hc] at hw; cases hw
    | some c =>
      rw [hc] at hw
      have hlt := childOf_lt h.linksFall hc
      have hin := childOf_inner h hc
      rcases ih hw with rfl | h'
      · rw [List.length_singleton]; omega
      · rw [List.length_cons]; omega

/-- Every path from ROOT has at most 255 bits (R142). -/
theorem walk_root_length {s : State} (h : ValidLayout s) {q : List Bool} {i : NodeIx} (hw : s.walk s.root q = some i) :
    q.length ≤ 255 ∧ (s.nsym.toNat = 1 → q.length ≤ 1) ∧ (2 ≤ s.nsym.toNat → q.length ≤ s.nsym.toNat - 1) := by
  obtain ⟨h1, h2, h3, h4, -⟩ := id h
  rcases walk_length h hw with rfl | hl
  · exact ⟨Nat.zero_le _, fun _ => Nat.zero_le _, fun _ => Nat.zero_le _⟩
  · split at h3 <;> exact ⟨by omega, by omega, by omega⟩

/-- R31 (c): every node in use is reached from ROOT. -/
theorem walk_to {s : State} (hv : ValidLayout s) (ht : TreeShape s) (hs : s.tstate = .valid) :
    ∀ (m : Nat) (i : NodeIx), i.val + m = s.root.val → ∃ q, s.walk s.root q = some i := by
  intro m
  induction m using Nat.strongRecOn with
  | _ m ih =>
    intro i hi
    have h4 := hv.2.2.2.1
    by_cases hr : i = s.root
    · subst hr; exact ⟨[], rfl⟩
    · have hc := (ht hs).1 i (by omega)
      rw [if_neg hr] at hc
      have hmem : i ∈ s.links := List.count_pos_iff.1 (by omega)
      simp only [State.links, List.mem_flatMap, List.mem_range, List.mem_append, Option.mem_toList] at hmem
      obtain ⟨j, hj, hl⟩ := hmem
      have hjv : (nodeIx j).val = j := nodeIx_val (by have : s.root.val < 511 := s.root.isLt; show j < 511; omega)
      have hch : ∃ b, s.childOf (nodeIx j) b = some i := by
        rcases hl with hl | hl
        · exact ⟨false, hl⟩
        · exact ⟨true, hl⟩
      obtain ⟨b, hb⟩ := hch
      have hlt := childOf_lt hv.linksFall hb
      obtain ⟨q, hq⟩ := ih (s.root.val - j) (by omega) (nodeIx j) (by omega)
      refine ⟨q ++ [b], ?_⟩
      rw [walk_append, hq, Option.bind_some]
      simp [State.walk, hb]

theorem leaf_lt {s : State} (h : ValidLayout s) {i : NodeIx} (hk : (s.nodeAt i).kind = .leaf) : i.val < s.nsym.toNat := by
  by_contra hge
  rcases Nat.lt_or_ge i.val s.nnodes.toNat with h2 | h2
  · rw [(h.2.2.2.2.2.1 i (by omega) h2).1] at hk; cases hk
  · rw [h.2.2.2.2.2.2 i h2] at hk; cases hk

theorem root_inner {s : State} (h : ValidLayout s) : (s.nodeAt s.root).kind = .internal := by
  obtain ⟨h1, h2, h3, h4, -, h6, -⟩ := h
  refine (h6 s.root ?_ (by omega)).1
  split at h3 <;> omega

/-! ## Aggregate frequencies (R138) -/

/-- The sum of the aggregate frequencies of the nodes in Q. -/
def State.queuedFreq (s : State) : Nat := (s.q.map fun i => (s.nodeAt i).freq.toNat).sum

/-- The sum of all counts. -/
def State.countSum (s : State) : Nat := (allSymbols.map fun c => (s.freqAt c).toNat).sum

/-- A merge joins two frequencies of Q into their sum: the sum over Q stays, and no frequency exceeds it (R138). -/
theorem merge_freqs {k n T : Nat} {s : State} (h : Merging k n s) (h2 : 1 < s.q.length) (hT : T < 2 ^ 40)
    (hs : s.queuedFreq = T ∧ ∀ i, (s.nodeAt i).freq.toNat ≤ T) :
    (merge n s).queuedFreq = T ∧ ∀ i, ((merge n s).nodeAt i).freq.toNat ≤ T := by
  obtain ⟨a, b, ha, hb, hab, -, -, he⟩ := merge_eq (s := s) (by omega) h.nodup n
  have hk := h.bounds
  have hl := h.length
  have hv : (nodeIx n).val = n := nodeIx_val (show n < 511 by omega)
  have hnq : nodeIx n ∉ s.q := fun hm => by have := h.below _ hm; omega
  have hq : (merge n s).q = ((s.q.filter (· ≠ a)).filter (· ≠ b)) ++ [nodeIx n] := by rw [he]
  have hsame : ∀ i : NodeIx, i ≠ nodeIx n → (merge n s).nodeAt i = s.nodeAt i := fun i hi => by
    rw [he]; exact setNode_nodeAt_other s _ hi
  have hnew : ((merge n s).nodeAt (nodeIx n)).freq = (s.nodeAt a).freq + (s.nodeAt b).freq := by
    rw [he]; exact congrArg NodeRec.freq (setNode_nodeAt_same s _ _)
  have e1 : s.q.filter (· ≠ a) = s.q.erase a := by rw [h.nodup.erase_eq_filter]; simp [bne, Bool.beq_eq_decide_eq]
  have e2 : (s.q.filter (· ≠ a)).filter (· ≠ b) = (s.q.erase a).erase b := by
    rw [e1, (h.nodup.erase a).erase_eq_filter]; simp [bne, Bool.beq_eq_decide_eq]
  have hperm : s.q.Perm (a :: b :: (s.q.erase a).erase b) :=
    (List.perm_cons_erase ha).trans
      ((List.perm_cons_erase ((List.mem_erase_of_ne (Ne.symm hab)).2 hb)).cons a)
  have hsum := (hperm.map fun i => (s.nodeAt i).freq.toNat).sum_eq
  rw [← e2] at hsum
  simp only [List.map_cons, List.sum_cons] at hsum
  have hT' : s.queuedFreq = T := hs.1
  unfold State.queuedFreq at hT'
  have hnewT : ((merge n s).nodeAt (nodeIx n)).freq.toNat = (s.nodeAt a).freq.toNat + (s.nodeAt b).freq.toNat := by
    rw [hnew, BitVec.toNat_add]; omega
  constructor
  · unfold State.queuedFreq
    rw [hq, List.map_append, List.sum_append]
    have : ((s.q.filter (· ≠ a)).filter (· ≠ b)).map (fun i => ((merge n s).nodeAt i).freq.toNat) =
        ((s.q.filter (· ≠ a)).filter (· ≠ b)).map fun i => (s.nodeAt i).freq.toNat := by
      refine List.map_congr_left fun i hi => ?_
      rw [hsame i fun e => hnq (e ▸ (List.mem_filter.1 (List.mem_filter.1 hi).1).1)]
    rw [this, List.map_singleton, List.sum_singleton, hnewT]
    omega
  · intro i
    by_cases e : i = nodeIx n
    · rw [e, hnewT]; omega
    · rw [hsame i e]; exact hs.2 i

theorem sum_filter_pos {α : Type} (f : α → Nat) (p : α → Bool) (l : List α) (h : ∀ x ∈ l, p x = false → f x = 0) :
    ((l.filter p).map f).sum = (l.map f).sum := by
  induction l with
  | nil => rfl
  | cons x l ih =>
    have := ih fun y hy => h y (List.mem_cons_of_mem _ hy)
    by_cases hp : p x = true
    · simp [hp, this]
    · rw [Bool.not_eq_true] at hp
      simp [hp, this, h x (by simp) hp]

theorem presentSum (s : State) : (s.presentSymbols.map fun c => (s.freqAt c).toNat).sum = s.countSum :=
  sum_filter_pos _ _ _ fun c _ h => by
    have h0 : s.freqAt c = 0 := by simpa using h
    rw [h0]; rfl

theorem leaf_freq (c : Byte) (v : Word) : (NodeRec.leafOf c v).freq.toNat = v.toNat := by
  show (v.setWidth 40).toNat = _
  rw [BitVec.toNat_setWidth]
  have := v.isLt
  omega

theorem freqAt_le_countSum (s : State) (c : Byte) : (s.freqAt c).toNat ≤ s.countSum :=
  List.le_sum_of_mem (List.mem_map.2 ⟨c, mem_allSymbols c, rfl⟩)

/-- The sum of all counts is at most 256 times the largest one, so it fits FREQ_BITS (R138). -/
theorem countSum_le (s : State) {m : Nat} (h : ∀ c, (s.freqAt c).toNat ≤ m) : s.countSum ≤ 256 * m := by
  have := List.sum_le_card_nsmul (allSymbols.map fun c => (s.freqAt c).toNat) m (by
    intro x hx
    obtain ⟨c, -, rfl⟩ := List.mem_map.1 hx
    exact h c)
  rwa [List.length_map, allSymbols, List.length_map, List.length_range, smul_eq_mul] at this

theorem leavesQueued_freqs (s : State) :
    s.leavesQueued.queuedFreq = s.countSum ∧ ∀ i, (s.leavesQueued.nodeAt i).freq.toNat ≤ s.countSum := by
  have hl := presentSymbols_length s
  constructor
  · rw [← presentSum]
    unfold State.queuedFreq
    congr 1
    refine List.ext_getElem (by simp [State.leavesQueued]) fun m h1 h2 => ?_
    rw [List.length_map] at h2
    have hq : (s.leavesQueued.q)[m]'(by simpa [State.leavesQueued] using h2) = nodeIx m := by simp [State.leavesQueued]
    rw [List.getElem_map, List.getElem_map, hq, leavesQueued_nodeAt, nodeIx_val (show m < 511 by omega),
      List.getElem?_eq_getElem h2]
    exact leaf_freq _ _
  · intro i
    rw [leavesQueued_nodeAt]
    split
    · rw [leaf_freq]; exact freqAt_le_countSum s _
    · exact Nat.zero_le _

/-- R138: no aggregate frequency that BUILD writes exceeds the sum of all counts. -/
theorem buildTree_freq_le (s : State) (i : NodeIx) : ((buildTree s).nodeAt i).freq.toNat ≤ s.countSum := by
  have hl := presentSymbols_length s
  rcases buildTree_eq s with ⟨-, h⟩ | ⟨h1, h⟩ | ⟨h2, h⟩
  · have hi : (buildTree s).nodeAt i = (s.clearTree.setNode (nodeIx 0) (NodeRec.internalOf 0 none none)).nodeAt i := by
      rw [h]; rfl
    rw [hi]
    by_cases e : i = nodeIx 0
    · rw [e, setNode_nodeAt_same]; exact Nat.zero_le _
    · rw [setNode_nodeAt_other _ _ e, clearTree_nodeAt]; exact Nat.zero_le _
  · have hleaf : ∀ j, ((writeLeaves s.presentSymbols 0 s.clearTree).nodeAt j).freq.toNat ≤ s.countSum :=
      (leavesQueued_freqs s).2
    generalize writeLeaves s.presentSymbols 0 s.clearTree = l at h hleaf
    have hi : (buildTree s).nodeAt i = (l.setNode (nodeIx 1)
        (NodeRec.internalOf (l.nodeAt (nodeIx 0)).freq (some (nodeIx 0)) none)).nodeAt i := by
      rw [h]; rfl
    rw [hi]
    by_cases e : i = nodeIx 1
    · rw [e, setNode_nodeAt_same]; exact hleaf _
    · rw [setNode_nodeAt_other _ _ e]; exact hleaf i
  · rw [h]
    have hT : s.countSum < 2 ^ 40 := by
      have := countSum_le s (m := 2 ^ 32 - 1) fun c => by have := (s.freqAt c).isLt; omega
      omega
    exact (mergeLoop_induct (P := fun _ t => t.queuedFreq = s.countSum ∧ ∀ i, (t.nodeAt i).freq.toNat ≤ s.countSum)
      (fun n t ht h1 hp => merge_freqs ht h1 hT hp) s.presentSymbols.length s.presentSymbols.length s.leavesQueued
      (by simp [State.leavesQueued]) (merging_start (by omega)) (leavesQueued_freqs s)).2.2 i

end Sys2Proof.Machine
end

