-- ==== Sys2Proof/Laws/Writer.lean ====
section
/-! SUPPORT. What the writer's internal steps can do (spec/43_writer.md R162 to R168), said once each: the bytes, the
registers, and the bit sequence `writerBits` they stand for. -/

namespace Sys2Proof.Machine

/-! ## emitByte -/

/-- R162: with room the byte is stored at OLEN. -/
theorem emitByte_room {s : State} (h : s.olen.toNat < s.wlimit.toNat) (w : Word) (v : Byte) :
    emitByte w v s = .ok { s.setObuf s.olen.toNat v with olen := s.olen + 1 } := by
  have : ¬ s.wlimit ≤ s.olen := by rw [BitVec.le_def]; omega
  simp [emitByte, this]

/-- R162: at the limit nothing is stored and the writer is FAILED. -/
theorem emitByte_full {s : State} (h : s.wlimit.toNat ≤ s.olen.toNat) (w : Word) (v : Byte) :
    emitByte w v s =
      .raised (raise .capacityExceeded (zext32 s.olen) (zext32 s.wlimit) w { s with wstate := .failed }) := by
  have : s.wlimit ≤ s.olen := h
  simp [emitByte, this]

theorem emitByte_eq_ok {s t : State} {w : Word} {v : Byte} (h : emitByte w v s = .ok t) :
    s.olen.toNat < s.wlimit.toNat ∧ t = { s.setObuf s.olen.toNat v with olen := s.olen + 1 } := by
  by_cases hl : s.olen.toNat < s.wlimit.toNat
  · rw [emitByte_room hl] at h; cases h; exact ⟨hl, rfl⟩
  · rw [emitByte_full (by omega)] at h; cases h

/-- OLEN + 1 does not wrap where the guard let the byte through (R17). -/
theorem olen_succ {s : State} (h : s.olen.toNat < s.wlimit.toNat) : (s.olen + 1).toNat = s.olen.toNat + 1 := by
  have := s.wlimit.isLt
  rw [BitVec.toNat_add]; simp; omega

theorem outputFrame_emit {s : State} (h : s.olen.toNat < s.wlimit.toNat) (v : Byte) :
    ({ s.setObuf s.olen.toNat v with olen := s.olen + 1 } : State).outputFrame = s.outputFrame ++ [v] := by
  unfold State.outputFrame
  simp only [olen_succ h, List.range_succ, List.map_append, List.map_cons, List.map_nil]
  congr 1
  · refine List.map_congr_left fun k hk => ?_
    rw [List.mem_range] at hk
    exact setObuf_obufByte_other s v (by omega)
  · simp [State.obufByte, State.setObuf, Memory.read_write_same]

/-! ## writeBitCore -/

/-- WACC[6:0] ++ b (R163). -/
def pushBit (a : Byte) (b : Bool) : Byte := a.extractLsb' 0 7 ++ BitVec.ofBool b

theorem pushBit_zero (a : Byte) (b : Bool) : (pushBit a b).getLsbD 0 = b :=
  (BitVec.getLsbD_append (x := a.extractLsb' 0 7) (y := BitVec.ofBool b) (i := 0)).trans (by simp)

theorem pushBit_succ (a : Byte) (b : Bool) {j : Nat} (h : j < 7) : (pushBit a b).getLsbD (j + 1) = a.getLsbD j :=
  (BitVec.getLsbD_append (x := a.extractLsb' 0 7) (y := BitVec.ofBool b) (i := j + 1)).trans (by simp [h])

theorem pushBit_lt {a : Byte} {n : Nat} (b : Bool) (h : a.toNat < 2 ^ n) (hn : n ≤ 7) :
    (pushBit a b).toNat < 2 ^ (n + 1) := by
  have ha : (a.extractLsb' 0 7).toNat = a.toNat := by
    have : (2 : Nat) ^ n ≤ 2 ^ 7 := Nat.pow_le_pow_right (by omega) hn
    simp [BitVec.extractLsb'_toNat]; omega
  have hb : (BitVec.ofBool b).toNat < 2 := by cases b <;> simp
  have : (pushBit a b).toNat = a.toNat * 2 + (BitVec.ofBool b).toNat := by
    unfold pushBit
    rw [BitVec.toNat_append, ha, Nat.shiftLeft_eq]
    rw [← Nat.shiftLeft_eq, Nat.shiftLeft_add_eq_or_of_lt (by simpa using hb)]
  rw [this, Nat.pow_succ]; omega

/-- R163: a bit that does not complete a byte becomes pending. -/
theorem writeBitCore_pending {s : State} (h : s.wn ≠ 7) (w : Word) (b : Bool) :
    writeBitCore w b s = .ok { s with wacc := pushBit s.wacc b, wn := s.wn + 1 } :=
  if_neg h

/-- R163: the eighth bit stores the byte. -/
theorem writeBitCore_flush {s : State} (h : s.wn = 7) (hl : s.olen.toNat < s.wlimit.toNat) (w : Word) (b : Bool) :
    writeBitCore w b s =
      .ok { s.setObuf s.olen.toNat (pushBit s.wacc b) with olen := s.olen + 1, wacc := 0, wn := 0 } := by
  simp [writeBitCore, h, emitByte_room hl, pushBit]

/-- R163: at the limit the eighth bit faults and leaves WACC and WN. -/
theorem writeBitCore_full {s : State} (h : s.wn = 7) (hl : s.wlimit.toNat ≤ s.olen.toNat) (w : Word) (b : Bool) :
    writeBitCore w b s =
      .raised (raise .capacityExceeded (zext32 s.olen) (zext32 s.wlimit) w { s with wstate := .failed }) := by
  simp [writeBitCore, h, emitByte_full hl]

theorem wn_succ {s : State} (h : s.wn ≠ 7) : (s.wn + 1).toNat = s.wn.toNat + 1 := by
  have : s.wn.toNat ≠ 7 := fun e => h (BitVec.eq_of_toNat_eq e)
  have := s.wn.isLt
  rw [BitVec.toNat_add]; simp; omega

/-- Everything a completed writeBitCore can do to the state. -/
theorem writeBitCore_eq_ok {s t : State} {w : Word} {b : Bool} (h : writeBitCore w b s = .ok t) :
    (s.wn ≠ 7 ∧ t = { s with wacc := pushBit s.wacc b, wn := s.wn + 1 }) ∨
      (s.wn = 7 ∧ s.olen.toNat < s.wlimit.toNat ∧
        t = { s.setObuf s.olen.toNat (pushBit s.wacc b) with olen := s.olen + 1, wacc := 0, wn := 0 }) := by
  by_cases hn : s.wn = 7
  · by_cases hl : s.olen.toNat < s.wlimit.toNat
    · rw [writeBitCore_flush hn hl] at h; cases h; exact .inr ⟨hn, hl, rfl⟩
    · rw [writeBitCore_full hn (by omega)] at h; cases h
  · rw [writeBitCore_pending hn] at h; cases h; exact .inl ⟨hn, rfl⟩

theorem writerBits_pending {s : State} (h : s.wn ≠ 7) (b : Bool) :
    ({ s with wacc := pushBit s.wacc b, wn := s.wn + 1 } : State).writerBits = s.writerBits ++ [b] := by
  have hlt : s.wn.toNat < 7 := by
    have : s.wn.toNat ≠ 7 := fun e => h (BitVec.eq_of_toNat_eq e)
    have := s.wn.isLt; omega
  have hp : ({ s with wacc := pushBit s.wacc b, wn := s.wn + 1 } : State).pendingBits = s.pendingBits ++ [b] := by
    unfold State.pendingBits
    simp only [wn_succ h, List.range_succ, List.map_append, List.map_cons, List.map_nil]
    congr 1
    · refine List.map_congr_left fun i hi => ?_
      rw [List.mem_range] at hi
      have : s.wn.toNat + 1 - 1 - i = (s.wn.toNat - 1 - i) + 1 := by omega
      rw [this, pushBit_succ _ _ (by omega)]
    · rw [Nat.add_sub_cancel, Nat.sub_self, pushBit_zero]
  have ho : ({ s with wacc := pushBit s.wacc b, wn := s.wn + 1 } : State).outputFrame = s.outputFrame := rfl
  unfold State.writerBits
  rw [hp, ho, List.append_assoc]

theorem topBits_pushBit {s : State} (h : s.wn = 7) (b : Bool) :
    topBits 8 (pushBit s.wacc b) = s.pendingBits ++ [b] := by
  unfold topBits State.pendingBits
  have h7 : s.wn.toNat = 7 := by rw [h]; rfl
  rw [h7, List.range_succ, List.map_append, List.map_cons, List.map_nil]
  congr 1
  · refine List.map_congr_left fun i hi => ?_
    rw [List.mem_range] at hi
    have : 7 - i = (7 - 1 - i) + 1 := by omega
    rw [this, pushBit_succ _ _ (by omega)]
  · rw [Nat.sub_self, pushBit_zero]

theorem writerBits_flush {s : State} (h : s.wn = 7) (hl : s.olen.toNat < s.wlimit.toNat) (b : Bool) :
    ({ s.setObuf s.olen.toNat (pushBit s.wacc b) with olen := s.olen + 1, wacc := 0, wn := 0 } : State).writerBits =
      s.writerBits ++ [b] := by
  have ho := outputFrame_emit hl (pushBit s.wacc b)
  have ho' : ({ s.setObuf s.olen.toNat (pushBit s.wacc b) with olen := s.olen + 1, wacc := 0, wn := 0 } :
      State).outputFrame = s.outputFrame ++ [pushBit s.wacc b] := ho
  have hp : ({ s.setObuf s.olen.toNat (pushBit s.wacc b) with olen := s.olen + 1, wacc := 0, wn := 0 } :
      State).pendingBits = [] := rfl
  unfold State.writerBits
  rw [ho', hp, List.flatMap_append, List.flatMap_singleton, topBits_pushBit h, List.append_nil, List.append_assoc]

/-- R168: a completed writeBitCore appends its bit to the sequence the writer stands for. -/
theorem writeBitCore_writerBits {s t : State} {w : Word} {b : Bool} (h : writeBitCore w b s = .ok t) :
    t.writerBits = s.writerBits ++ [b] := by
  rcases writeBitCore_eq_ok h with ⟨hn, rfl⟩ | ⟨hn, hl, rfl⟩
  · exact writerBits_pending hn b
  · exact writerBits_flush hn hl b

/-- The registers a writer step may write; everything else is unchanged. -/
def State.sameButWriter (s t : State) : Prop :=
  t = { s with wacc := t.wacc, wn := t.wn, olen := t.olen, obuf := t.obuf }

theorem State.sameButWriter.trans {s t u : State} (h₁ : s.sameButWriter t) (h₂ : t.sameButWriter u) :
    s.sameButWriter u := by
  unfold State.sameButWriter at *
  rw [h₂, h₁]

theorem writeBitCore_frame {s t : State} {w : Word} {b : Bool} (h : writeBitCore w b s = .ok t) :
    s.sameButWriter t := by
  rcases writeBitCore_eq_ok h with ⟨_, rfl⟩ | ⟨_, _, rfl⟩ <;> rfl

/-- Bits accounted for (R168): one more. -/
theorem writeBitCore_count {s t : State} {w : Word} {b : Bool} (h : writeBitCore w b s = .ok t) :
    8 * t.olen.toNat + t.wn.toNat = 8 * s.olen.toNat + s.wn.toNat + 1 := by
  rcases writeBitCore_eq_ok h with ⟨hn, rfl⟩ | ⟨hn, hl, rfl⟩
  · show 8 * s.olen.toNat + (s.wn + 1).toNat = _
    rw [wn_succ hn]; omega
  · show 8 * (s.olen + 1).toNat + (0 : BitVec 3).toNat = _
    rw [olen_succ hl, hn]; simp; omega

/-! ## writeBits -/

theorem writeBits_append (w : Word) (xs ys : List Bool) (s : State) :
    writeBits w (xs ++ ys) s = (writeBits w xs s).andThen (writeBits w ys) := by
  induction xs generalizing s with
  | nil => rfl
  | cons x xs ih =>
    simp only [List.cons_append, writeBits]
    cases writeBitCore w x s with
    | ok t => simp [ih]
    | raised t => rfl

/-- What a completed sequence of bits leaves (R168, R169). -/
theorem writeBits_eq_ok {w : Word} {bits : List Bool} {s t : State} (h : writeBits w bits s = .ok t) :
    t.writerBits = s.writerBits ++ bits ∧ s.sameButWriter t ∧
      8 * t.olen.toNat + t.wn.toNat = 8 * s.olen.toNat + s.wn.toNat + bits.length := by
  induction bits generalizing s with
  | nil => cases h; exact ⟨by simp, rfl, by simp⟩
  | cons b bs ih =>
    obtain ⟨u, hu, ht⟩ := Ran.andThen_eq_ok h
    obtain ⟨hb, hf, hc⟩ := ih ht
    refine ⟨?_, (writeBitCore_frame hu).trans hf, ?_⟩
    · rw [hb, writeBitCore_writerBits hu, List.append_assoc]; rfl
    · rw [hc, writeBitCore_count hu, List.length_cons]; omega

/-- With room for every byte they complete, the bits are all written. -/
theorem writeBits_room {s : State} (bits : List Bool) (w : Word)
    (h : (8 * s.olen.toNat + s.wn.toNat + bits.length) / 8 ≤ s.wlimit.toNat) : ∃ t, writeBits w bits s = .ok t := by
  induction bits generalizing s with
  | nil => exact ⟨s, rfl⟩
  | cons b bs ih =>
    have hn7 := s.wn.isLt
    rw [List.length_cons] at h
    have hstep : ∃ u, writeBitCore w b s = .ok u := by
      by_cases hn : s.wn = 7
      · have : s.wn.toNat = 7 := by rw [hn]; rfl
        exact ⟨_, writeBitCore_flush hn (by omega) w b⟩
      · exact ⟨_, writeBitCore_pending hn w b⟩
    obtain ⟨u, hu⟩ := hstep
    have hl : u.wlimit = s.wlimit := by rw [writeBitCore_frame hu]
    have hc := writeBitCore_count hu
    obtain ⟨t, ht⟩ := ih (s := u) (by rw [hl]; omega)
    exact ⟨t, by simp [writeBits, hu, ht]⟩

/-! ## WCLOSE -/

/-- WCLOSE's effect where both bytes fit (R165). -/
theorem closeWriter_room {s : State} (h : s.olen.toNat + 2 ≤ s.wlimit.toNat) (w : Word) :
    closeWriter w s =
      .ok { (s.setObuf s.olen.toNat s.partialByte).setObuf (s.olen.toNat + 1) (s.wn.setWidth 8) with
        olen := s.olen + 1 + 1, wacc := 0, wn := 0, wstate := .closed } := by
  have h1 : s.olen.toNat < s.wlimit.toNat := by omega
  have h2 : (s.olen + 1).toNat < s.wlimit.toNat := by rw [olen_succ h1]; omega
  unfold closeWriter
  rw [emitByte_room h1]
  simp only [Ran.andThen_ok]
  rw [emitByte_room (s := { s.setObuf s.olen.toNat s.partialByte with olen := s.olen + 1 }) h2]
  simp only [Ran.andThen_ok, olen_succ h1]
  rfl

/-- WCLOSE completes only where both bytes fit. -/
theorem closeWriter_eq_ok {s t : State} {w : Word} (h : closeWriter w s = .ok t) :
    s.olen.toNat + 2 ≤ s.wlimit.toNat := by
  obtain ⟨u, hu, _⟩ := Ran.andThen_eq_ok h
  obtain ⟨v, hv, hv'⟩ := Ran.andThen_eq_ok hu
  obtain ⟨h1, rfl⟩ := emitByte_eq_ok hv
  obtain ⟨h2, _⟩ := emitByte_eq_ok hv'
  have : (s.olen + 1).toNat < s.wlimit.toNat := h2
  rw [olen_succ h1] at this; omega

end Sys2Proof.Machine
end

