-- ==== Sys2Proof/Laws/Step.lean ====
section
/-! SUPPORT. What each command may change, said once per command: if `exec` answers next t, then t is the state before it but
for the fields named. -/

namespace Sys2Proof.Machine

/-- The fault registers, and nothing else. -/
def State.sameButFault (s t : State) : Prop :=
  t = { s with fault := t.fault, faultInfo0 := t.faultInfo0, faultInfo1 := t.faultInfo1, faultCmd := t.faultCmd }

theorem raise_frame (f : FaultCode) (i0 i1 w : Word) (s : State) : s.sameButFault (raise f i0 i1 w s) := by
  unfold raise State.sameButFault; split <;> rfl

/-- R28, R244, R245: a faulted command other than SRST and CLRFAULT changes nothing. -/
theorem exec_faulted {i : Instr} {s : State} (h : s.fault ≠ .noFault) (h1 : i ≠ .srst) (h2 : i ≠ .clrfault) :
    exec i s = .next s := by
  cases i <;> first | exact absurd rfl h1 | exact absurd rfl h2 | skip
  all_goals
    simp only [exec, execNop, execFreqClr, execFreqInc, execFreqSet, execFreqGet, execBuild, execDerive, execWopen,
      execWbit, execWclose, execEncode, execRopen, execRbit, execRhasnext, execDecode, unlessFaulted_drop h]

theorem execNop_eq (s : State) : execNop s = .next s := by
  by_cases h : s.fault = .noFault
  · exact unlessFaulted_run h _
  · exact unlessFaulted_drop h _

/-- A guarded command whose body keeps a reflexive relation keeps it. -/
theorem unlessFaulted_frame {s t : State} {body : State → Result} {P : State → Prop} (h : unlessFaulted s body = .next t)
    (h0 : P s) (h1 : s.fault = .noFault → body s = .next t → P t) : P t := by
  rcases unlessFaulted_cases h with ⟨hf, hb⟩ | ⟨hf, hb⟩
  · exact h1 hf hb
  · cases hb; exact h0

/-! ## FREQ -/

theorem execFreqClr_frame {s t : State} (h : execFreqClr s = .next t) : t = { s with freq := t.freq } :=
  unlessFaulted_frame (P := fun t => t = { s with freq := t.freq }) h rfl fun _ hb => by cases hb; rfl

theorem execFreqInc_frame {s t : State} {c : Byte} (h : execFreqInc c s = .next t) :
    t = { s with
      freq := t.freq, fault := t.fault, faultInfo0 := t.faultInfo0, faultInfo1 := t.faultInfo1,
      faultCmd := t.faultCmd } := by
  refine unlessFaulted_frame (P := fun t => t = { s with
      freq := t.freq, fault := t.fault, faultInfo0 := t.faultInfo0, faultInfo1 := t.faultInfo1,
      faultCmd := t.faultCmd }) h rfl fun hf hb => ?_
  split at hb <;> cases hb
  · rw [raise_first hf]
  · rfl

theorem execFreqSet_frame {s t : State} {c : Byte} (h : execFreqSet c s = .next t) :
    t = { s with
      freq := t.freq, fault := t.fault, faultInfo0 := t.faultInfo0, faultInfo1 := t.faultInfo1,
      faultCmd := t.faultCmd } := by
  refine unlessFaulted_frame (P := fun t => t = { s with
      freq := t.freq, fault := t.fault, faultInfo0 := t.faultInfo0, faultInfo1 := t.faultInfo1,
      faultCmd := t.faultCmd }) h rfl fun hf hb => ?_
  split at hb <;> cases hb
  · rw [raise_first hf]
  · rfl

theorem execFreqGet_frame {s t : State} {c : Byte} (h : execFreqGet c s = .next t) :
    t = { s with result := t.result } :=
  unlessFaulted_frame (P := fun t => t = { s with result := t.result }) h rfl fun _ hb => by cases hb; rfl

/-! ## TREE and CTAB -/

theorem execBuild_frame {s t : State} (h : execBuild s = .next t) :
    t = { s with
      node := t.node, tstate := t.tstate, root := t.root, nnodes := t.nnodes, nsym := t.nsym, q := t.q,
      cursor := t.cursor, ct := t.ct, tvalid := t.tvalid } := by
  refine unlessFaulted_frame (P := fun t => t = { s with
      node := t.node, tstate := t.tstate, root := t.root, nnodes := t.nnodes, nsym := t.nsym, q := t.q,
      cursor := t.cursor, ct := t.ct, tvalid := t.tvalid }) h rfl fun _ hb => ?_
  cases hb
  rw [buildTree_frame]

theorem execDerive_frame {s t : State} (h : execDerive s = .next t) :
    t = { s with
      ct := t.ct, tvalid := t.tvalid, fault := t.fault, faultInfo0 := t.faultInfo0, faultInfo1 := t.faultInfo1,
      faultCmd := t.faultCmd } := by
  refine unlessFaulted_frame (P := fun t => t = { s with
      ct := t.ct, tvalid := t.tvalid, fault := t.fault, faultInfo0 := t.faultInfo0, faultInfo1 := t.faultInfo1,
      faultCmd := t.faultCmd }) h rfl fun hf hb => ?_
  split at hb
  · cases hb; rw [raise_first hf]
  · cases hb; rfl
  · split at hb <;> cases hb; rfl

/-! ## WR -/

/-- What a writer command may change: the writer, OBUF and the fault record. -/
def State.sameButWriterUnit (s t : State) : Prop :=
  t = { s with
    wstate := t.wstate, wacc := t.wacc, wn := t.wn, olen := t.olen, wlimit := t.wlimit, obuf := t.obuf,
    fault := t.fault, faultInfo0 := t.faultInfo0, faultInfo1 := t.faultInfo1, faultCmd := t.faultCmd }

theorem State.sameButWriterUnit.refl (s : State) : s.sameButWriterUnit s := rfl

theorem State.sameButWriterUnit.trans {s t u : State} (h₁ : s.sameButWriterUnit t) (h₂ : t.sameButWriterUnit u) :
    s.sameButWriterUnit u := by
  unfold State.sameButWriterUnit at *
  rw [h₂, h₁]

theorem raise_sameButWriterUnit (f : FaultCode) (i0 i1 w : Word) (s : State) : s.sameButWriterUnit (raise f i0 i1 w s) := by
  unfold raise State.sameButWriterUnit; split <;> rfl

theorem emitByte_frame (w : Word) (v : Byte) (s : State) : s.sameButWriterUnit (emitByte w v s).state := by
  unfold emitByte raise State.sameButWriterUnit; split
  · split <;> rfl
  · rfl

theorem andThen_frame {r : Ran} {f : State → Ran} {s : State} (h : s.sameButWriterUnit r.state)
    (hf : ∀ t : State, t.sameButWriterUnit (f t).state) : s.sameButWriterUnit (r.andThen f).state := by
  cases r with
  | ok t => exact h.trans (hf t)
  | raised t => exact h

theorem writeBitCore_sameButWriterUnit (w : Word) (b : Bool) (s : State) :
    s.sameButWriterUnit (writeBitCore w b s).state := by
  unfold writeBitCore
  simp only
  split
  · exact andThen_frame (emitByte_frame ..) fun _ => rfl
  · rfl

theorem writeBits_sameButWriterUnit (w : Word) (bits : List Bool) (s : State) :
    s.sameButWriterUnit (writeBits w bits s).state := by
  induction bits generalizing s with
  | nil => rfl
  | cons b bs ih => exact andThen_frame (writeBitCore_sameButWriterUnit w b s) ih

theorem closeWriter_sameButWriterUnit (w : Word) (s : State) : s.sameButWriterUnit (closeWriter w s).state :=
  andThen_frame (andThen_frame (emitByte_frame ..) fun _ => emitByte_frame ..) fun _ => rfl

theorem execWopen_frame {s t : State} (h : execWopen s = .next t) :
    t = { s with
      wstate := t.wstate, wacc := t.wacc, wn := t.wn, olen := t.olen, wlimit := t.wlimit,
      fault := t.fault, faultInfo0 := t.faultInfo0, faultInfo1 := t.faultInfo1, faultCmd := t.faultCmd } := by
  refine unlessFaulted_frame (P := fun t => t = { s with
      wstate := t.wstate, wacc := t.wacc, wn := t.wn, olen := t.olen, wlimit := t.wlimit,
      fault := t.fault, faultInfo0 := t.faultInfo0, faultInfo1 := t.faultInfo1, faultCmd := t.faultCmd })
    h rfl fun hf hb => ?_
  split at hb <;> cases hb
  · rw [raise_first hf]
  · rfl

theorem execWbit_frame {s t : State} {b : Bool} (h : execWbit b s = .next t) : s.sameButWriterUnit t := by
  refine unlessFaulted_frame (P := s.sameButWriterUnit) h rfl fun _ hb => ?_
  split at hb <;> cases hb
  · exact raise_sameButWriterUnit ..
  · exact writeBitCore_sameButWriterUnit ..

theorem execWclose_frame {s t : State} (h : execWclose s = .next t) : s.sameButWriterUnit t := by
  refine unlessFaulted_frame (P := s.sameButWriterUnit) h rfl fun _ hb => ?_
  split at hb <;> cases hb
  · exact raise_sameButWriterUnit ..
  · exact closeWriter_sameButWriterUnit ..

theorem execEncode_frame {s t : State} {c : Byte} (h : execEncode c s = .next t) : s.sameButWriterUnit t := by
  refine unlessFaulted_frame (P := s.sameButWriterUnit) h rfl fun _ hb => ?_
  split at hb
  · cases hb; exact raise_sameButWriterUnit ..
  · split at hb
    · cases hb; exact raise_sameButWriterUnit ..
    · split at hb <;> cases hb
      · exact raise_sameButWriterUnit ..
      · exact writeBits_sameButWriterUnit ..

/-! ## RD -/

/-- What the reader's internal steps may change: the reader and the fault record. -/
def State.sameButReader (s t : State) : Prop :=
  t = { s with
    cur := t.cur, nxt := t.nxt, aft := t.aft, aftv := t.aftv, rem := t.rem, rstate := t.rstate, rlen := t.rlen,
    rbase := t.rbase, fault := t.fault, faultInfo0 := t.faultInfo0, faultInfo1 := t.faultInfo1,
    faultCmd := t.faultCmd }

theorem State.sameButReader.trans {s t u : State} (h₁ : s.sameButReader t) (h₂ : t.sameButReader u) :
    s.sameButReader u := by
  unfold State.sameButReader at *
  rw [h₂, h₁]

theorem raise_sameButReader (f : FaultCode) (i0 i1 w : Word) (s : State) : s.sameButReader (raise f i0 i1 w s) := by
  unfold raise State.sameButReader; split <;> rfl

theorem raiseFormat_frame (w i0 i1 : Word) (s : State) : s.sameButReader (raiseFormat w i0 i1 s) := by
  unfold raiseFormat raise State.sameButReader; split <;> rfl

theorem fillWindow_frame (w tail : Word) (a : Option Byte) (s : State) :
    s.sameButReader (fillWindow w a tail s).state := by
  cases a with
  | some a => rfl
  | none =>
    unfold fillWindow
    simp only
    split
    · exact State.sameButReader.trans (t := { s with aft := 0, aftv := false }) rfl (raiseFormat_frame ..)
    · rfl

theorem readBitCore_frame (w : Word) (s : State) : s.sameButReader (readBitCore w s).state := by
  unfold readBitCore
  simp only
  split
  · unfold advance
    simp only
    exact State.sameButReader.trans
      (t := { s with cur := s.nxt, rem := s.rem - 1, nxt := s.aft, rbase := s.rbase + 1 }) rfl (fillWindow_frame ..)
  · rfl

/-- What a reader command may change: the reader, RESULT, CURSOR and the fault record. -/
def State.sameButReaderUnit (s t : State) : Prop :=
  t = { s with
    result := t.result, cursor := t.cursor, cur := t.cur, nxt := t.nxt, aft := t.aft, aftv := t.aftv, rem := t.rem,
    rstate := t.rstate, rlen := t.rlen, rbase := t.rbase, fault := t.fault, faultInfo0 := t.faultInfo0,
    faultInfo1 := t.faultInfo1, faultCmd := t.faultCmd }

theorem State.sameButReaderUnit.trans {s t u : State} (h₁ : s.sameButReaderUnit t) (h₂ : t.sameButReaderUnit u) :
    s.sameButReaderUnit u := by
  unfold State.sameButReaderUnit at *
  rw [h₂, h₁]

theorem State.sameButReader.unit {s t : State} (h : s.sameButReader t) : s.sameButReaderUnit t := by
  unfold State.sameButReader at h
  unfold State.sameButReaderUnit
  rw [h]

theorem State.sameButReader.result {s t : State} (h : s.sameButReader t) : t.result = s.result := by
  unfold State.sameButReader at h; rw [h]

theorem State.sameButReader.cursor {s t : State} (h : s.sameButReader t) : t.cursor = s.cursor := by
  unfold State.sameButReader at h; rw [h]

theorem openReader_frame (w : Word) (s : State) :
    s.sameButReaderUnit (openReader w s).state ∧ (openReader w s).state.result = s.result := by
  unfold openReader
  simp only
  split
  · have h : s.sameButReader _ :=
      State.sameButReader.trans (t := { s with rlen := s.ilen }) rfl (raiseFormat_frame w 0 (zext32 s.ilen) _)
    exact ⟨h.unit, h.result⟩
  · generalize hb : State.mk _ _ _ _ _ _ _ _ _ _ _ _ _ _ _ _ _ _ _ _ _ _ _ _ _ _ _ _ _ _ _ _ _ _ _ _ = u
    have hu : s.sameButReader u := by subst hb; rfl
    have hv := hu.trans (fillWindow_frame w 1 (u.fetch 2) u)
    cases hr : fillWindow w (u.fetch 2) 1 u with
    | ok v => rw [hr] at hv; exact ⟨hv.unit.trans rfl, hv.result⟩
    | raised v => rw [hr] at hv; exact ⟨hv.unit, hv.result⟩

/-- ROPEN changes no RESULT. -/
theorem execRopen_frame {s t : State} (h : execRopen s = .next t) : s.sameButReaderUnit t ∧ t.result = s.result := by
  refine unlessFaulted_frame (P := fun t => s.sameButReaderUnit t ∧ t.result = s.result) h ⟨rfl, rfl⟩ fun _ hb => ?_
  cases hb
  exact openReader_frame ..

/-- RBIT moves no CURSOR. -/
theorem execRbit_frame {s t : State} (h : execRbit s = .next t) : s.sameButReaderUnit t ∧ t.cursor = s.cursor := by
  refine unlessFaulted_frame (P := fun t => s.sameButReaderUnit t ∧ t.cursor = s.cursor) h ⟨rfl, rfl⟩ fun _ hb => ?_
  split at hb
  · cases hb; exact ⟨(raise_sameButReader ..).unit, (raise_sameButReader ..).cursor⟩
  · split at hb <;> cases hb
    · exact ⟨(raise_sameButReader ..).unit, (raise_sameButReader ..).cursor⟩
    · have h := readBitCore_frame (encode .rbit) { s with result := zext32 (BitVec.ofBool s.nextBit) }
      exact ⟨State.sameButReaderUnit.trans (t := { s with result := zext32 (BitVec.ofBool s.nextBit) }) rfl h.unit,
        h.cursor⟩

theorem execRhasnext_frame {s t : State} (h : execRhasnext s = .next t) :
    t = { s with
      result := t.result, fault := t.fault, faultInfo0 := t.faultInfo0, faultInfo1 := t.faultInfo1,
      faultCmd := t.faultCmd } := by
  refine unlessFaulted_frame (P := fun t => t = { s with
      result := t.result, fault := t.fault, faultInfo0 := t.faultInfo0, faultInfo1 := t.faultInfo1,
      faultCmd := t.faultCmd }) h rfl fun hf hb => ?_
  split at hb <;> cases hb
  · unfold raiseReaderState; rw [raise_first hf]
  · rfl

theorem decodeStep_frame (w : Word) (b : Bool) (s : State) :
    match decodeStep w b s with
    | .emitted t => s.sameButReaderUnit t
    | .moved t => s.sameButReaderUnit t
    | .raised t => s.sameButReaderUnit t := by
  unfold decodeStep
  cases s.childOf s.cursor b with
  | none => exact (raise_sameButReader ..).unit
  | some c =>
    simp only
    split
    · rename_i h; split at h <;> cases h; rfl
    · rename_i h; split at h <;> cases h; rfl
    · rename_i h; split at h <;> cases h

theorem decodeLoop_frame (w : Word) (n : Nat) {s t : State} (h : decodeLoop w n s = .next t) :
    s.sameButReaderUnit t := by
  induction n generalizing s with
  | zero => cases h
  | succ n ih =>
    unfold decodeLoop at h
    split at h
    · cases h; rfl
    · have hr := (readBitCore_frame w s).unit
      cases hb : readBitCore w s with
      | raised u => rw [hb] at h hr; cases h; exact hr
      | ok u =>
        rw [hb] at h hr
        have hd := decodeStep_frame w s.nextBit u
        cases hs : decodeStep w s.nextBit u with
        | raised v => simp only [hs] at h hd; cases h; exact State.sameButReaderUnit.trans hr hd
        | emitted v => simp only [hs] at h hd; cases h; exact State.sameButReaderUnit.trans hr hd
        | moved v => simp only [hs] at h hd; exact State.sameButReaderUnit.trans hr (hd.trans (ih h))

theorem execDecode_frame {s t : State} (h : execDecode s = .next t) : s.sameButReaderUnit t := by
  refine unlessFaulted_frame (P := s.sameButReaderUnit) h rfl fun _ hb => ?_
  split at hb
  · cases hb; exact (raise_sameButReader ..).unit
  · split at hb <;> cases hb
    · exact (raise_sameButReader ..).unit
    · rfl
  · split at hb
    · cases hb; exact (raise_sameButReader ..).unit
    · exact decodeLoop_frame _ _ hb

end Sys2Proof.Machine
end

