-- ==== Sys2Proof/Machine/HostProgram.lean ====
section
/-! DEFINITION. The host programs spec/30_encoding.md R100 and R101 and spec/70_reset_and_hazards.md R274 write down: a
sequence of bus operations, the pseudo-instructions, and the compress and decompress sequences. They are host software
(R6): no rule of HUFCORE depends on them, and `step` uses none of them. -/

namespace Sys2Proof.Machine

/-- A bare command: `W 0x010, <encoding>` (R100). -/
def issue (i : Instr) : BusOp := BusOp.command (encode i)

/-- `W <register>, value` (R100). -/
def writeReg (r : Reg) (v : Word) : BusOp := .write (BitVec.ofNat 24 r.offset) 4 v

/-- `R <register>` (R100). -/
def readReg (r : Reg) : BusOp := .read (BitVec.ofNat 24 r.offset) 4

/-- `W IBUF[k], v` (R100). -/
def writeIbuf (k : Nat) (v : Byte) : BusOp := .write (BitVec.ofNat 24 (ibufAddr k)) 4 (zext32 v)

/-- `R OBUF[k]` (R100). -/
def readObuf (k : Nat) : BusOp := .read (BitVec.ofNat 24 (obufAddr k)) 4

/-- `FREQ.SETI sym, n` (R101). -/
def freqSetI (sym : Byte) (n : Word) : List BusOp := [writeReg .arg n, issue (.freqSet sym)]

/-- `WOPENI n` (R101). -/
def wopenI (n : Word) : List BusOp := [writeReg .arg n, issue .wopen]

/-- `WBYTE v`: bits 7 down to 0 (R101). -/
def wbyte (v : Byte) : List BusOp := (List.range 8).map fun i => issue (.wbit (v.getLsbD (7 - i)))

/-- `COUNT "str"` (R101). -/
def countAll (xs : List Byte) : List BusOp := xs.map fun x => issue (.freqInc x)

/-- `ENCODES "str"` (R101). -/
def encodeAll (xs : List Byte) : List BusOp := xs.map fun x => issue (.encodeSym x)

/-- `LOADFRAME b0, …, bn−1` (R101). -/
def loadFrame (f : List Byte) : List BusOp :=
  f.zipIdx.map (fun p => writeIbuf p.2 p.1) ++ [writeReg .ilen (BitVec.ofNat 32 f.length)]

/-- compress(x_0..x_{n-1}, limit) (R274). -/
def compressProgram (xs : List Byte) (limit : Word) : List BusOp :=
  issue .freqClr :: countAll xs ++ [issue .build, issue .deriveTable] ++ wopenI limit ++ encodeAll xs ++
    [issue .wclose]

/-- decompress(F) with `rounds` turns of its loop (R274): the host stops at the first RESULT whose VALID is 0. -/
def decompressProgram (f : List Byte) (rounds : Nat) : List BusOp :=
  loadFrame f ++ issue .ropen ::
    (List.replicate rounds [issue .decodeSym, readReg .fault, readReg .result]).flatten

end Sys2Proof.Machine
end

