-- ==== Sys2Proof/Tests/Slice0.lean ====
section
/-! SUPPORT. The model's own tests. Expected values are the spec's: the words are written out from the fields of
30_encoding.md R90 to R95, the results are those of the vectors of 95_test_vectors.md (named in each docstring). Then one
witness per obligation that has hypotheses: a concrete state and operands that meet them together. -/

open Sys2Proof Sys2Proof.Machine

namespace Sys2Proof.Tests

set_option maxRecDepth 20000
set_option Elab.async false
set_option synthInstance.maxHeartbeats 400000
set_option synthInstance.maxSize 4000

/-! ## Well-formed parameters (R7), and the encodings the decoder rejects by name (R97) -/

theorem test_standard_parameters_are_legal : Config.standard.wf = true := by decide
theorem test_bounds_are_legal : (Config.mk 1 2 2).wf = true ∧ (Config.mk 32 (2 ^ 20) (2 ^ 20)).wf = true := by decide
theorem test_count_bits_0_is_refused : (Config.mk 0 64 64).countBitsOk = false := by decide
theorem test_count_bits_33_is_refused : (Config.mk 33 64 64).countBitsOk = false := by decide
theorem test_ibuf_size_1_is_refused : (Config.mk 32 1 64).ibufSizeOk = false := by decide
theorem test_ibuf_size_above_2_20_is_refused : (Config.mk 32 (2 ^ 20 + 1) 64).ibufSizeOk = false := by decide
theorem test_obuf_size_1_is_refused : (Config.mk 32 64 1).obufSizeOk = false := by decide
theorem test_obuf_size_above_2_20_is_refused : (Config.mk 32 64 (2 ^ 20 + 1)).obufSizeOk = false := by decide
/-- Every operand is typed at its field's width (R92, R93): no term of `Instr` is ill formed. -/
theorem test_widest_operands_are_legal : (Instr.encodeSym 0xFF).wf = true ∧ (Instr.wbit true).wf = true := by decide

/-- E3, E5. -/
theorem test_unassigned_opcodes_are_rejected :
    decode 0x50000000 = .error .unassignedOpcode ∧ decode 0x03000000 = .error .unassignedOpcode := by decide
/-- E1. -/
theorem test_reserved_bits_are_rejected : decode 0x11000100 = .error .reservedNotZero := by decide
/-- E4, E6. -/
theorem test_format_n_operands_are_rejected :
    decode 0x00000001 = .error .operandNotZero ∧ decode 0x200000FF = .error .operandNotZero := by decide
/-- E2. -/
theorem test_wide_bit_operand_is_rejected : decode 0x31000002 = .error .bitOperandTooWide := by decide

/-! ## Every command's word, bit by bit: OP (8 bits), RSV (16 bits, zero), OPD (8 bits) (R90, R95) -/

theorem test_decode_nop : decode 0b00000000000000000000000000000000 = .ok .nop := by decide
theorem test_decode_srst : decode 0b00000001000000000000000000000000 = .ok .srst := by decide
theorem test_decode_clrfault : decode 0b00000010000000000000000000000000 = .ok .clrfault := by decide
theorem test_decode_freq_clr : decode 0b00010000000000000000000000000000 = .ok .freqClr := by decide
theorem test_decode_freq_inc : decode 0b00010001000000000000000010100101 = .ok (.freqInc 0xA5) := by decide
theorem test_decode_freq_set : decode 0b00010010000000000000000000000001 = .ok (.freqSet 0x01) := by decide
theorem test_decode_freq_get : decode 0b00010011000000000000000011111111 = .ok (.freqGet 0xFF) := by decide
theorem test_decode_build : decode 0b00100000000000000000000000000000 = .ok .build := by decide
theorem test_decode_derive : decode 0b00100001000000000000000000000000 = .ok .deriveTable := by decide
theorem test_decode_wopen : decode 0b00110000000000000000000000000000 = .ok .wopen := by decide
theorem test_decode_wbit : decode 0b00110001000000000000000000000001 = .ok (.wbit true) := by decide
theorem test_decode_wclose : decode 0b00110010000000000000000000000000 = .ok .wclose := by decide
theorem test_decode_encode : decode 0b00110011000000000000000010000000 = .ok (.encodeSym 0x80) := by decide
theorem test_decode_ropen : decode 0b01000000000000000000000000000000 = .ok .ropen := by decide
theorem test_decode_rbit : decode 0b01000001000000000000000000000000 = .ok .rbit := by decide
theorem test_decode_rhasnext : decode 0b01000010000000000000000000000000 = .ok .rhasnext := by decide
theorem test_decode_decode : decode 0b01000011000000000000000000000000 = .ok .decodeSym := by decide
theorem test_table_word_decodes : decodeTableWord 32 0x31000001 = some (.wbit true) := by decide

/-! ## Small states -/

/-- The state an outcome goes on in. -/
def after (r : Result) : State :=
  match r with
  | .next t => t
  | .fault _ => State.reset
  | .refused _ => State.reset

/-- Reset, with the counts of a list of (symbol, count). -/
def counted (l : List (Byte × Word)) : State :=
  { State.reset with freq := l.foldl (fun v p => v.set p.1.toNat p.2 p.1.isLt) State.reset.freq }

/-- A list's records, from index `k` on. -/
def placedFrom : Nat → List NodeRec → Vector NodeRec nodeCount → Vector NodeRec nodeCount
  | _, [], v => v
  | k, r :: rs, v => placedFrom (k + 1) rs (v.set (nodeIx k).val r (nodeIx k).isLt)

/-- The records of a list, from NODE[0] on. -/
def placed (l : List NodeRec) (s : State) : State := { s with node := placedFrom 0 l s.node }

/-- The entries of a list of (symbol, path). -/
def coded (l : List (Byte × List Bool)) (s : State) : State :=
  { s with ct := l.foldl (fun v p => v.set p.1.toNat (CtEntry.ofPath p.2) p.1.isLt) s.ct, tvalid := true }

/-- The bytes of a list, from IBUF[0] on, and their number in ILEN. -/
def framed (l : List Byte) (s : State) : State :=
  { s with ibuf := l.zipIdx.map (fun p => (p.2, p.1)), ilen := BitVec.ofNat 21 l.length }

/-- LEAF c/n. -/
def leaf (c : Byte) (n : Word) : NodeRec := NodeRec.leafOf c n

/-- INTERNAL n with two children. -/
def join (n : BitVec 40) (l r : NodeIx) : NodeRec := NodeRec.internalOf n (some l) (some r)

/-- T3's records, written out from its table. -/
def recordsT3 : List NodeRec :=
  [leaf 0x61 5, leaf 0x62 2, leaf 0x63 1, leaf 0x64 1, leaf 0x72 2, join 2 2 3, join 4 1 4, join 6 5 6, join 11 0 7]

/-- T3's tree. -/
def treeT3 : State :=
  { placed recordsT3 (counted [(0x61, 5), (0x62, 2), (0x63, 1), (0x64, 1), (0x72, 2)]) with
    tstate := .valid, root := 8, nnodes := 9, nsym := 5, cursor := 8 }

/-- T3's code table, written out from its table. -/
def codesT3 : List (Byte × List Bool) :=
  [(0x61, [false]), (0x63, [true, false, false]), (0x64, [true, false, true]), (0x62, [true, true, false]),
    (0x72, [true, true, true])]

/-- T3 after DERIVE. -/
def tableT3 : State := coded codesT3 treeT3

/-- T4's records: the leaf of z and the wrapper. -/
def recordsT4 : List NodeRec := [leaf 0x7A 4, NodeRec.internalOf 4 (some 0) none]

/-- T4's tree. -/
def treeT4 : State :=
  { placed recordsT4 (counted [(0x7A, 4)]) with
    tstate := .valid, root := 1, nnodes := 2, nsym := 1, cursor := 1 }

/-- T5's sentinel. -/
def treeT5 : State :=
  { placed [NodeRec.internalOf 0 none none] State.reset with tstate := .empty, nnodes := 1 }

/-- WR1: an open writer with limit 16. -/
def writerWR1 : State := { State.reset with arg := 16, wstate := .opened, wlimit := 16 }

/-- WR5 before WCLOSE: one byte emitted, limit 1. -/
def writerWR5 : State :=
  { State.reset with arg := 1, wstate := .opened, wlimit := 1, olen := 1, obuf := [(0, 0)] }

/-- RD1 after ROPEN: frame A5 00 00. -/
def readerRD1 : State :=
  { framed [0xA5, 0x00, 0x00] State.reset with
    rstate := .opened, rlen := 3, cur := 0xA5, nxt := 0, aft := 0, aftv := true, rem := 8 }

/-- RD4 before its 8th RBIT: frame FF 00 09. -/
def readerRD4 : State :=
  { framed [0xFF, 0x00, 0x09] State.reset with
    rstate := .opened, rlen := 3, cur := 0x80, nxt := 0, aft := 9, aftv := true, rem := 1 }

/-- D1 after ROPEN: frame 6E 8A DC 07 over T3's tree and table. -/
def readerD1 : State :=
  { framed [0x6E, 0x8A, 0xDC, 0x07] tableT3 with
    rstate := .opened, rlen := 4, cur := 0x6E, nxt := 0x8A, aft := 0xDC, aftv := true, rem := 8 }

/-- D3 after ROPEN: frame 80 01. -/
def readerD3 : State :=
  { framed [0x80, 0x01] treeT3 with rstate := .opened, rlen := 2, cur := 0x80, nxt := 1, rem := 1 }

/-- D2 after ROPEN: frame 80 01 over the degenerate tree. -/
def readerD2 : State :=
  { framed [0x80, 0x01] treeT4 with rstate := .opened, rlen := 2, cur := 0x80, nxt := 1, rem := 1 }

/-- A faulted state. -/
def faultedState : State := { State.reset with fault := .noTree, faultCmd := 0x21000000 }

/-- `s` with one host access to come. -/
def pending (op : BusOp) (s : State) : State := { s with bus := [op] }

/-- The word a read of an address returns. -/
def readBack (a : Addr) (s : State) : List Word := (after (step (pending (.read a 4) s))).reads

/-! ## One step of each command -/

/-- E10. -/
theorem test_nop : step (pending (.write 0x010 4 0x00000000) treeT5) = .next treeT5 := by rfl

/-- E9. -/
theorem test_srst :
    (after (exec .srst tableT3)).root = 0 ∧ (after (exec .srst tableT3)).nnodes = 0 ∧
      (after (exec .srst tableT3)).status = 0 ∧ (after (exec .srst tableT3)).nodeAt 8 = NodeRec.unused := by
  decide +kernel

/-- E8. -/
theorem test_clrfault :
    (after (exec .clrfault faultedState)).fault = .noFault ∧ (after (exec .clrfault faultedState)).faultCmd = 0 := by
  decide +kernel

/-- E7: a command after a fault is dropped. -/
theorem test_dropped_while_faulted : exec (.freqInc 0x61) faultedState = .next faultedState := by rfl

/-- F2. -/
theorem test_freq_clr : (after (exec .freqClr (counted [(0x61, 3), (0x62, 1)]))).freqAt 0x61 = 0 := by decide +kernel

/-- F1. -/
theorem test_freq_inc :
    (after (exec (.freqInc 0x61) (counted [(0x61, 2), (0x62, 1)]))).freqAt 0x61 = 3 ∧
      (after (exec (.freqInc 0x61) (counted [(0x61, 2), (0x62, 1)]))).freqAt 0x62 = 1 := by decide +kernel

/-- F6: COUNT_BITS = 4. -/
theorem test_freq_inc_overflow :
    exec (.freqInc 0x61) ((State.resetWith ⟨4, 64, 64⟩ 0).setFreq 0x61 15) =
      .next { (State.resetWith ⟨4, 64, 64⟩ 0).setFreq 0x61 15 with
        fault := .countOverflow, faultInfo0 := 0x61, faultInfo1 := 0x0F, faultCmd := 0x11000061 } := by rfl

/-- F3. -/
theorem test_freq_set : (after (exec (.freqSet 0x61) { State.reset with arg := 3 })).freqAt 0x61 = 3 := by
  decide +kernel

/-- F5: COUNT_BITS = 4. -/
theorem test_freq_set_refused :
    exec (.freqSet 0x61) { State.resetWith ⟨4, 64, 64⟩ 0 with arg := 16 } =
      .next { State.resetWith ⟨4, 64, 64⟩ 0 with
        arg := 16, fault := .badArgument, faultInfo0 := 0x10, faultInfo1 := 0x0F, faultCmd := 0x12000061 } := by rfl

/-- F1. -/
theorem test_freq_get : (after (exec (.freqGet 0x62) (counted [(0x61, 3), (0x62, 1)]))).result = 1 := by decide +kernel

/-- T3. -/
theorem test_build_abracadabra :
    let t := after (exec .build (counted [(0x61, 5), (0x62, 2), (0x63, 1), (0x64, 1), (0x72, 2)]))
    t.nodeAt 4 = leaf 0x72 2 ∧ t.nodeAt 5 = join 2 2 3 ∧ t.nodeAt 6 = join 4 1 4 ∧ t.nodeAt 7 = join 6 5 6 ∧
      t.nodeAt 8 = join 11 0 7 ∧ t.nodeAt 9 = NodeRec.unused ∧ t.root = 8 ∧ t.nnodes = 9 ∧ t.nsym = 5 ∧ t.cursor = 8 := by
  decide +kernel

/-- T7: of c (2, 2) and node 3 (2, 3) the lower index is taken first. -/
theorem test_build_mixed_tie :
    (after (exec .build (counted [(0x61, 1), (0x62, 1), (0x63, 2)]))).nodeAt 4 = join 4 2 3 := by decide +kernel

/-- T3's codes. -/
theorem test_derive_abracadabra :
    let t := after (exec .deriveTable treeT3)
    (t.ctAt 0x61).bits = [false] ∧ (t.ctAt 0x63).bits = [true, false, false] ∧
      (t.ctAt 0x64).bits = [true, false, true] ∧ (t.ctAt 0x62).bits = [true, true, false] ∧
      (t.ctAt 0x72).bits = [true, true, true] ∧ t.ctAt 0x7A = CtEntry.empty ∧ t.tvalid = true := by decide +kernel

/-- T4: the degenerate tree gives z the code "0". -/
theorem test_derive_degenerate :
    (after (exec .deriveTable treeT4)).ctAt 0x7A = { valid := true, len := 1, code := 0 } := by decide +kernel

/-- WR1. -/
theorem test_wopen : exec .wopen { State.reset with arg := 16 } = .next writerWR1 := by rfl

/-- WR11. -/
theorem test_wopen_refused :
    (after (exec .wopen { State.reset with arg := 65 })).fault = .badArgument ∧
      (after (exec .wopen { State.reset with arg := 65 })).faultInfo1 = 64 ∧
      (after (exec .wopen { State.reset with arg := 65 })).wstate = .idle := by decide +kernel

/-- WR2's fourth bit: WACC register 0x0000040E. -/
theorem test_wbit : (after (exec (.wbit false) { writerWR1 with wacc := 7, wn := 3 })).waccWord = 0x40E := by
  decide +kernel

/-- WR3's eighth bit. -/
theorem test_wbit_completes_a_byte :
    exec (.wbit true) { writerWR1 with wacc := 0x52, wn := 7 } =
      .next { writerWR1 with olen := 1, obuf := [(0, 0xA5)] } := by rfl

/-- WR2: OBUF = E0 04. -/
theorem test_wclose :
    exec .wclose { writerWR1 with wacc := 0x0E, wn := 4 } =
      .next { writerWR1 with olen := 2, obuf := [(0, 0xE0), (1, 0x04)], wstate := .closed } := by rfl

/-- WR5. -/
theorem test_wclose_over_the_limit :
    (after (exec .wclose writerWR5)).status = 0x830 ∧ (after (exec .wclose writerWR5)).olen = 1 ∧
      (after (exec .wclose writerWR5)).faultCmd = 0x32000000 := by decide +kernel

/-- The ENCODE trace of "abracadabra": 'a' after 0x737 completes the byte 0x6E. -/
theorem test_encode :
    let s := { tableT3 with wstate := .opened, wlimit := 16, wacc := 0x37, wn := 7 }
    (after (exec (.encodeSym 0x61) s)).obuf = [(0, 0x6E)] ∧ (after (exec (.encodeSym 0x61) s)).olen = 1 ∧
      (after (exec (.encodeSym 0x61) s)).waccWord = 0 := by decide +kernel

/-- WR7's last ENCODE. -/
theorem test_encode_over_the_limit :
    let s := { tableT3 with wstate := .opened, wlimit := 1, olen := 1, wacc := 0x45, wn := 7 }
    (after (exec (.encodeSym 0x61) s)).waccWord = 0x745 ∧
      (after (exec (.encodeSym 0x61) s)).fault = .capacityExceeded := by decide +kernel

/-- RD1. -/
theorem test_ropen : exec .ropen (framed [0xA5, 0x00, 0x00] State.reset) = .next readerRD1 := by rfl

/-- RD3. -/
theorem test_ropen_bad_trailing_byte :
    (after (exec .ropen (framed [0x00, 0x09] State.reset))).status = 0x880 ∧
      (after (exec .ropen (framed [0x00, 0x09] State.reset))).faultInfo0 = 1 ∧
      (after (exec .ropen (framed [0x00, 0x09] State.reset))).faultInfo1 = 9 := by decide +kernel

/-- RD1's first bit. -/
theorem test_rbit :
    (after (exec .rbit readerRD1)).result = 1 ∧ (after (exec .rbit readerRD1)).cur = 0x4A ∧
      (after (exec .rbit readerRD1)).rem = 7 := by decide +kernel

/-- RD4's eighth bit. -/
theorem test_rbit_finds_a_bad_trailing_byte :
    (after (exec .rbit readerRD4)).result = 1 ∧ (after (exec .rbit readerRD4)).fault = .format ∧
      (after (exec .rbit readerRD4)).faultInfo0 = 2 ∧ (after (exec .rbit readerRD4)).faultInfo1 = 9 ∧
      (after (exec .rbit readerRD4)).rstate = .failed := by decide +kernel

/-- RD5: an empty frame has no next bit. -/
theorem test_rhasnext_empty_frame :
    (after (exec .rhasnext { framed [0, 0] State.reset with rstate := .opened, rlen := 2, result := 7 })).result = 0 := by
  decide +kernel

theorem test_rhasnext : (after (exec .rhasnext readerRD1)).result = 1 := by decide +kernel

/-- D1's first DECODE: 'a', RWIN 0x17DC8ADC. -/
theorem test_decode_symbol :
    (after (exec .decodeSym readerD1)).result = 0x80000061 ∧ (after (exec .decodeSym readerD1)).rwinWord = 0x17DC8ADC ∧
      (after (exec .decodeSym readerD1)).cursor = 8 := by decide +kernel

/-- D3: PARTIAL, with the cursor at node 7. -/
theorem test_decode_partial :
    (after (exec .decodeSym readerD3)).result = 0x60000000 ∧ (after (exec .decodeSym readerD3)).cursor = 7 := by
  decide +kernel

/-- DECODE after one bit of the same command finds a trailing byte above 8: FORMAT at byte 2, CURSOR at the node that bit led
to, RESULT unchanged (R195, R201). -/
theorem test_decode_finds_a_bad_trailing_byte :
    let s := { framed [0x80, 0x00, 0x09] treeT3 with
      rstate := .opened, rlen := 3, cur := 0x80, nxt := 0, aft := 9, aftv := true, rem := 2, result := 5 }
    (after (exec .decodeSym s)).fault = .format ∧ (after (exec .decodeSym s)).faultInfo0 = 2 ∧
      (after (exec .decodeSym s)).faultInfo1 = 9 ∧ (after (exec .decodeSym s)).cursor = 7 ∧
      (after (exec .decodeSym s)).result = 5 ∧ (after (exec .decodeSym s)).rstate = .failed := by decide +kernel

/-- The codes of 60_exceptions.md R241's table. -/
theorem test_fault_codes :
    ([.noFault, .format, .endOfStream, .emptyInput, .capacityExceeded, .ioFailure, .illegalCommand, .badAccess,
      .badArgument, .writerState, .readerState, .noTree, .noTable, .unknownSymbol, .noChild, .countOverflow] :
        List FaultCode).map FaultCode.code =
      [0x00, 0x01, 0x02, 0x03, 0x04, 0x05, 0x06, 0x07, 0x08, 0x09, 0x0A, 0x0B, 0x0C, 0x0D, 0x0E, 0x0F] := by decide

/-! ## Host accesses -/

/-- B1. -/
theorem test_read_id : readBack 0x000 State.reset = [0x48554631] ∧ readBack 0x008 State.reset = [64] := by
  decide +kernel

/-- B2. -/
theorem test_write_to_a_read_only_register :
    step (pending (.write 0x018 4 5) State.reset) =
      .next { State.reset with fault := .badAccess, faultInfo0 := 0x18, faultInfo1 := 1 } := by rfl

/-- B3, B4, B6: misaligned, unlisted and unmapped reads. -/
theorem test_bad_reads :
    (after (step (pending (.read 0x015 4) State.reset))).faultInfo0 = 0x15 ∧
      (after (step (pending (.read 0x05C 4) State.reset))).faultInfo0 = 0x5C ∧
      (after (step (pending (.read 0x013FE0 4) State.reset))).faultInfo0 = 0x13FE0 ∧
      readBack 0x013FE0 State.reset = [0] := by decide +kernel

/-- B5: the OBUF window cannot be written. -/
theorem test_obuf_is_read_only :
    (after (step (pending (.write 0x800000 4 1) State.reset))).fault = .badAccess ∧
      (after (step (pending (.write 0x800000 4 1) State.reset))).obuf = [] := by decide +kernel

/-- B7: a CMD read returns 0 and raises nothing. -/
theorem test_cmd_reads_zero :
    step (pending (.read 0x010 4) State.reset) = .next { State.reset with reads := [0] } := by rfl

/-- RD12. -/
theorem test_ilen_above_ibuf_size_is_refused :
    (after (step (pending (.write 0x038 4 65) State.reset))).fault = .badArgument ∧
      (after (step (pending (.write 0x038 4 65) State.reset))).faultCmd = 0 ∧
      (after (step (pending (.write 0x038 4 65) State.reset))).ilen = 0 := by decide +kernel

/-- T3's node window: node 8 at 0x010100, node 0 at 0x010000. -/
theorem test_node_window :
    readBack 0x010100 treeT3 = [0x00000002] ∧ readBack 0x010104 treeT3 = [0x80000000] ∧
      readBack 0x010108 treeT3 = [0x80000007] ∧ readBack 0x01010C treeT3 = [0x0000000B] ∧
      readBack 0x010000 treeT3 = [0x00006101] ∧ readBack 0x010120 treeT3 = [0] := by decide +kernel

/-- T3's code-table window: b has code 110. -/
theorem test_code_table_window :
    readBack 0x021880 tableT3 = [0x80000003] ∧ readBack 0x021884 tableT3 = [0x6] := by decide +kernel

/-- P2's read of STATUS and RWIN after its last DECODE. -/
theorem test_status_and_rwin :
    readBack 0x01C { tableT3 with wstate := .closed, rstate := .opened, rlen := 2, nxt := 4 } = [0x266] ∧
      readBack 0x058 { tableT3 with wstate := .closed, rstate := .opened, rlen := 2, nxt := 4 } = [0x400] := by
  decide +kernel

/-- A command placed by the host's test interface is the next step's. -/
theorem test_withFetchWord :
    (after (step (State.reset.withFetchWord 32 0x11000061))).freqAt 0x61 = 1 := by decide +kernel

theorem test_reset_buffers_are_canonical :
    Memory.wf State.reset.ibuf = true ∧ Memory.wf State.reset.obuf = true := by decide

/-- Writing below, on and above an entry keeps the order. -/
theorem test_buffer_write :
    Memory.write (Memory.write (Memory.write [(3, 1)] 1 2) 3 4) 9 5 = [(1, 2), (3, 4), (9, 5)] := by decide

/-! ## Witnesses: for each obligation with hypotheses, a state and operands that meet them -/

/-- An outcome is a next state. -/
def goesOn (r : Result) : Bool :=
  match r with
  | .next _ => true
  | .fault _ => false
  | .refused _ => false

theorem eq_next_after {r : Result} (h : goesOn r = true) : r = .next (after r) := by
  cases r <;> simp_all [goesOn, after]

/-- A freq entry tells two states apart. -/
theorem freq_ne {s t : State} (c : Byte) (h : t.freqAt c ≠ s.freqAt c) : t.freq ≠ s.freq := fun e =>
  h (by unfold State.freqAt; rw [e])

theorem node_ne {s t : State} (i : NodeIx) (h : t.nodeAt i ≠ s.nodeAt i) : t.node ≠ s.node := fun e =>
  h (by unfold State.nodeAt; rw [e])

theorem ct_ne {s t : State} (c : Byte) (h : t.ctAt c ≠ s.ctAt c) : t.ct ≠ s.ct := fun e =>
  h (by unfold State.ctAt; rw [e])

/-- A host that writes command `i` next. -/
def issuing (i : Instr) (s : State) : State := pending (BusOp.command (encode i)) s

/-! The invariants of the small states, part by part. -/

theorem nodeIx_self (i : NodeIx) : nodeIx i.val = i := Fin.ext (nodeIx_val i.isLt)

/-- A bounded check over node indices. -/
theorem forall_below {n : Nat} {P : NodeIx → Prop} (h : ∀ k : Fin n, P (nodeIx k.val)) :
    ∀ i : NodeIx, i.val < n → P i := fun i hi => nodeIx_self i ▸ h ⟨i.val, hi⟩

theorem forall_between {a n : Nat} {P : NodeIx → Prop}
    (h : ∀ k : Fin n, a ≤ (nodeIx k.val).val → P (nodeIx k.val)) : ∀ i : NodeIx, a ≤ i.val → i.val < n → P i :=
  fun i ha hi => forall_below (P := fun i => a ≤ i.val → P i) h i hi ha

theorem forall_pair_below {n : Nat} {P : NodeIx → NodeIx → Prop}
    (h : ∀ k j : Fin n, P (nodeIx k.val) (nodeIx j.val)) : ∀ i j : NodeIx, i.val < n → j.val < n → P i j :=
  fun i j hi hj => nodeIx_self i ▸ nodeIx_self j ▸ h ⟨i.val, hi⟩ ⟨j.val, hj⟩

theorem placedFrom_above (l : List NodeRec) : ∀ (k : Nat) (v : Vector NodeRec nodeCount) (i : NodeIx),
    k + l.length ≤ i.val → (placedFrom k l v)[i.val]'i.isLt = v[i.val]'i.isLt := by
  induction l with
  | nil => intros; rfl
  | cons r rs ih =>
    intro k v i h
    simp only [List.length_cons] at h
    rw [placedFrom, ih (k + 1) _ i (by omega)]
    have : (nodeIx k).val = k := nodeIx_val (by have := i.isLt; omega)
    exact Vector.getElem_set_ne _ _ (by omega)

theorem reset_unused (i : NodeIx) : State.reset.nodeAt i = NodeRec.unused := by
  simp [State.nodeAt, State.reset, State.resetWith]

/-- Past the records a small tree lists, NODE holds UNUSED records. -/
theorem placed_above {l : List NodeRec} {s : State} (hs : ∀ i, s.nodeAt i = NodeRec.unused) (i : NodeIx)
    (h : l.length ≤ i.val) : (placed l s).nodeAt i = NodeRec.unused :=
  (placedFrom_above l 0 s.node i (by omega)).trans (hs i)

theorem codedFrom_cases (l : List (Byte × List Bool)) : ∀ (v : Vector CtEntry alpha) (c : Byte),
    (l.foldl (fun v p => v.set p.1.toNat (CtEntry.ofPath p.2) p.1.isLt) v)[c.toNat]'c.isLt = v[c.toNat]'c.isLt ∨
      ∃ e ∈ l, e.1 = c ∧
        (l.foldl (fun v p => v.set p.1.toNat (CtEntry.ofPath p.2) p.1.isLt) v)[c.toNat]'c.isLt =
          CtEntry.ofPath e.2 := by
  induction l with
  | nil => intros; exact .inl rfl
  | cons e es ih =>
    intro v c
    rcases ih (v.set e.1.toNat (CtEntry.ofPath e.2) e.1.isLt) c with h | ⟨d, hd, hc, h⟩
    · by_cases hec : e.1 = c
      · subst hec
        exact .inr ⟨e, by simp, rfl, by simpa using h⟩
      · left
        rw [List.foldl_cons, h]
        exact Vector.getElem_set_ne _ _ (fun hv => hec (BitVec.eq_of_toNat_eq hv))
    · exact .inr ⟨d, by simp [hd], hc, by simpa using h⟩

/-- A listed code table is the tree's when each listed path leads to its symbol's leaf and every leaf has an entry. -/
theorem coded_tableOk {l : List (Byte × List Bool)} {s : State} (hct : s.ct = (coded l State.reset).ct)
    (ht : s.tvalid = true) (hs : s.tstate = .valid) (hv : ValidLayout s)
    (hl : ∀ e ∈ l, 1 ≤ (CtEntry.ofPath e.2).len.toNat ∧
      (CtEntry.ofPath e.2).code.toNat < 2 ^ (CtEntry.ofPath e.2).len.toNat ∧
        s.leadsTo (CtEntry.ofPath e.2).bits e.1 = true)
    (hk : ∀ k : Fin s.nsym.toNat, (s.ctAt (s.nodeAt (nodeIx k.val)).sym).valid = true) : TableOk s := by
  have hc : ∀ c, s.ctAt c = CtEntry.empty ∨ ∃ e ∈ l, e.1 = c ∧ s.ctAt c = CtEntry.ofPath e.2 := by
    intro c
    rw [ctAt_congr hct]
    rcases codedFrom_cases l State.reset.ct c with h | h
    · left
      refine Eq.trans h ?_
      simp [State.reset, State.resetWith]
    · exact .inr h
  refine ⟨fun c h => ?_, fun c h => ?_, fun _ i hi => ?_⟩
  · rcases hc c with h' | ⟨e, -, -, h'⟩
    · exact h'
    · rw [h'] at h; cases h
  · rcases hc c with h' | ⟨e, he, rfl, h'⟩
    · rw [h'] at h; cases h
    · rw [h']; exact ⟨ht, hs, hl e he⟩
  · exact forall_below (P := fun i => (s.ctAt (s.nodeAt i).sym).valid = true) hk i (leaf_lt hv hi)

/-- With COUNT_BITS = 32 every count fits. -/
theorem counts_32 {s : State} (h : s.cfg.countBits = 32) : CountsOk s := fun c => by
  have := (s.freqAt c).isLt
  simp only [countMax, h]
  omega

theorem no_tree_ok {s : State} (hn : ∀ i, s.nodeAt i = NodeRec.unused)
    (h : s.tstate = .none ∧ s.root = 0 ∧ s.nnodes = 0 ∧ s.nsym = 0 ∧ s.cursor = 0 ∧ s.tvalid = false) : TreeOk s := by
  obtain ⟨h1, h2⟩ := h
  exact ⟨fun _ => ⟨h2.1, h2.2.1, h2.2.2.1, h2.2.2.2.1, h2.2.2.2.2, hn⟩, fun h => by simp [h1] at h,
    fun h => by simp [h1] at h⟩

theorem tree_ok {s : State} (h : s.tstate = .valid) (hv : ValidLayout s) (hc : (s.nodeAt s.cursor).kind = .internal) :
    TreeOk s :=
  ⟨fun h' => by simp [h] at h', fun h' => by simp [h] at h', fun _ => ⟨hv, hc⟩⟩

theorem unused_aggregate {s : State} {i : NodeIx} (h : s.nodeAt i = NodeRec.unused) :
    (s.nodeAt i).freq.toNat < 2 ^ (s.cfg.countBits + 8) := h ▸ Nat.two_pow_pos _

/-- The listed records' frequencies are decided; the records past them are UNUSED. -/
theorem placed_aggregates {l : List NodeRec} {s : State} (hn : s.node = (placed l State.reset).node)
    (h : ∀ k : Fin l.length, (s.nodeAt (nodeIx k.val)).freq.toNat < 2 ^ (s.cfg.countBits + 8)) : AggregatesOk s :=
  fun i => if hi : i.val < l.length then
      forall_below (P := fun i => (s.nodeAt i).freq.toNat < 2 ^ (s.cfg.countBits + 8)) h i hi
    else unused_aggregate ((nodeAt_congr hn i).trans (placed_above reset_unused i (Nat.le_of_not_lt hi)))

/-- The parts of `Inv` that a decision settles at once, and the three that range over the tables. -/
theorem inv_of {s : State} (h : s.cfg.wf = true ∧ s.q = [] ∧ BuffersOk s ∧ FaultRecordOk s ∧ WriterOk s ∧ ReaderOk s)
    (hc : CountsOk s) (ht : TreeOk s) (ha : AggregatesOk s) : Inv s :=
  ⟨h.1, h.2.1, h.2.2.1, hc, h.2.2.2.1, h.2.2.2.2.1, h.2.2.2.2.2, ht, ha⟩

/-- The same, for a state without a tree and COUNT_BITS = 32. -/
theorem inv_no_tree {s : State} (h : s.cfg.wf = true ∧ s.q = [] ∧ BuffersOk s ∧ FaultRecordOk s ∧ WriterOk s ∧ ReaderOk s)
    (hb : s.cfg.countBits = 32) (hn : s.node = State.reset.node)
    (ht : s.tstate = .none ∧ s.root = 0 ∧ s.nnodes = 0 ∧ s.nsym = 0 ∧ s.cursor = 0 ∧ s.tvalid = false) : Inv s :=
  inv_of h (counts_32 hb) (no_tree_ok (fun i => (nodeAt_congr hn i).trans (reset_unused i)) ht)
    fun i => unused_aggregate ((nodeAt_congr hn i).trans (reset_unused i))

theorem treeT3_layout : ValidLayout treeT3 :=
  ⟨by decide +kernel, by decide +kernel, by decide +kernel, by decide +kernel, forall_below (by decide +kernel),
    forall_between (by decide +kernel),
    fun i h => placed_above reset_unused i h⟩

theorem treeT4_layout : ValidLayout treeT4 :=
  ⟨by decide +kernel, by decide +kernel, by decide +kernel, by decide +kernel, forall_below (by decide +kernel),
    forall_between (by decide +kernel),
    fun i h => placed_above reset_unused i h⟩

theorem treeT3_shape : TreeShape treeT3 := fun _ =>
  ⟨forall_below (n := 9) (by decide +kernel), forall_pair_below (n := 5) (by decide +kernel)⟩

theorem tableT3_ok : TableOk tableT3 :=
  coded_tableOk rfl rfl rfl treeT3_layout (by decide +kernel) (by decide +kernel)

theorem tableT4_ok : TableOk (coded [(0x7A, [false])] treeT4) :=
  coded_tableOk rfl rfl rfl treeT4_layout (by decide +kernel) (by decide +kernel)

theorem treeT3_aggregates : AggregatesOk treeT3 := placed_aggregates (l := recordsT3) rfl (by decide +kernel)
theorem treeT4_aggregates : AggregatesOk treeT4 := placed_aggregates (l := recordsT4) rfl (by decide +kernel)

/-- A state that carries the tree and the parameters of `t`, whatever its other units hold. -/
theorem inv_over {s t : State} (ha : AggregatesOk t) (hv : ValidLayout s)
    (h : (s.cfg.wf = true ∧ s.q = [] ∧ BuffersOk s ∧ FaultRecordOk s ∧ WriterOk s ∧ ReaderOk s) ∧
      s.cfg.countBits = 32 ∧ s.tstate = .valid ∧ (s.nodeAt s.cursor).kind = .internal)
    (hn : s.node = t.node) (hc : s.cfg = t.cfg) : Inv s :=
  inv_of h.1 (counts_32 h.2.1) (tree_ok h.2.2.1 hv h.2.2.2) fun i => by rw [nodeAt_congr hn i, hc]; exact ha i

theorem treeT3_inv : Inv treeT3 := inv_over treeT3_aggregates treeT3_layout (by decide +kernel) rfl rfl

/-- One illegal word for each of R97's four reasons, and a legal one. -/
theorem witness_IllegalWordsRaiseIllegalCommand :
    (pending (BusOp.command 0x50000000) State.reset).bus = BusOp.command 0x50000000 :: [] ∧
      State.reset.fault = .noFault ∧ illegalWord 0x50000000 ∧ illegalWord 0x44000000 ∧ illegalWord 0x11000100 ∧
      illegalWord 0x00000001 ∧ illegalWord 0x31000002 ∧ ¬ illegalWord 0x31000001 ∧ ¬ illegalWord 0x330000FF := by
  decide +kernel

theorem witness_StepRunsDecodedCommand :
    (pending (BusOp.command 0x11000061) State.reset).bus = BusOp.command 0x11000061 :: [] ∧
      decode 0x11000061 = .ok (.freqInc 0x61) ∧ State.reset.bus = [] := by decide +kernel

theorem witness_CommandsAreDroppedWhileFaulted :
    faultedState.fault ≠ .noFault ∧
      (pending (BusOp.command 0x20000000) faultedState).bus = BusOp.command 0x20000000 :: [] ∧
      (0x20000000 : Word) ≠ 0x01000000 ∧ (0x20000000 : Word) ≠ 0x02000000 ∧
      targetOf faultedState.cfg 0x020 = some (.reg .fault) ∧ (64 : Word).toNat ≤ faultedState.cfg.ibufSize ∧
      faultedState.cfg.wf = true ∧ 63 < faultedState.cfg.ibufSize := by decide +kernel

theorem witness_ConfigurationRegistersAreConstant :
    (pending (.read 0x000 4) State.reset).bus = .read 0x000 4 :: [] ∧
      (pending (.write 0x00C 4 1) State.reset).bus = .write 0x00C 4 1 :: [] ∧ State.reset.fault = .noFault ∧
      faultedState.fault ≠ .noFault := by decide +kernel

theorem witness_StatusAndStateRegisters :
    (pending (.read 0x054 4) writerWR1).bus = .read 0x054 4 :: [] ∧
      (0 : Word) = (0#21 ++ writerWR1.wn) ++ writerWR1.wacc := by decide +kernel

/-- The last readable address of each region and the first after it; the writable registers and the IBUF window's ends. -/
theorem witness_BadAccessesAreRefused :
    readableAddr Config.standard 0x058 ∧ ¬ readableAddr Config.standard 0x05C ∧
      ¬ readableAddr Config.standard 0x059 ∧ readableAddr Config.standard 0x013FDC ∧
      ¬ readableAddr Config.standard 0x013FE0 ∧ readableAddr Config.standard 0x023FFC ∧
      ¬ readableAddr Config.standard 0x024000 ∧ readableAddr Config.standard 0x4000FC ∧
      ¬ readableAddr Config.standard 0x400100 ∧ readableAddr Config.standard 0x8000FC ∧
      ¬ readableAddr Config.standard 0x800100 ∧ writableAddr Config.standard 0x010 ∧
      ¬ writableAddr Config.standard 0x018 ∧ writableAddr Config.standard 0x4000FC ∧
      ¬ writableAddr Config.standard 0x400100 ∧ ¬ writableAddr Config.standard 0x800000 := by decide +kernel

theorem witness_BufferWindowsHoldOneByteAWord :
    State.reset.cfg.wf = true ∧ 0 < State.reset.cfg.ibufSize ∧ 63 < State.reset.cfg.ibufSize ∧
      63 < State.reset.cfg.obufSize ∧
      (pending (.write (BitVec.ofNat 24 (0x400000 + 4 * 63)) 4 0xE0) State.reset).bus =
        .write (BitVec.ofNat 24 (0x400000 + 4 * 63)) 4 0xE0 :: [] := by decide +kernel

/-- The last word of the last record and of the last entry. -/
theorem witness_NodeAndCodeTableWindows :
    (pending (.read (BitVec.ofNat 24 (0x010000 + 32 * 510 + 4 * 7)) 4) treeT3).bus =
        .read (BitVec.ofNat 24 (0x010000 + 32 * (510 : NodeIx).val + 4 * 7)) 4 :: [] ∧
      (pending (.read (BitVec.ofNat 24 (0x020000 + 64 * 255 + 4 * 15)) 4) tableT3).bus =
        .read (BitVec.ofNat 24 (0x020000 + 64 * (0xFF : Byte).toNat + 4 * 15)) 4 :: [] ∧
      treeT3.nodeAt 510 = NodeRec.unused := by decide +kernel

theorem witness_ArgAndIlenWrites :
    (pending (.write 0x038 4 64) State.reset).bus = .write 0x038 4 64 :: [] ∧
      (64 : Word).toNat ≤ State.reset.cfg.ibufSize ∧ State.reset.cfg.ibufSize < (65 : Word).toNat ∧
      State.reset.fault = .noFault ∧ faultedState.fault ≠ .noFault := by decide +kernel

theorem witness_FirstFaultIsKept :
    (pending (.write 0x018 4 5) faultedState).fault ≠ .noFault ∧
      step (pending (.write 0x018 4 5) faultedState) = .next (after (step (pending (.write 0x018 4 5) faultedState))) :=
  ⟨by decide +kernel, eq_next_after (by decide +kernel)⟩

theorem witness_OnlyTheirWritersChangeFreqResultAndArg :
    (step (issuing (.freqInc 0x61) State.reset) = .next (after (step (issuing (.freqInc 0x61) State.reset))) ∧
      (after (step (issuing (.freqInc 0x61) State.reset))).freq ≠ (issuing (.freqInc 0x61) State.reset).freq) ∧
    (step (issuing .rbit readerRD1) = .next (after (step (issuing .rbit readerRD1))) ∧
      (after (step (issuing .rbit readerRD1))).result ≠ (issuing .rbit readerRD1).result) ∧
    (step (pending (.write 0x014 4 5) State.reset) = .next (after (step (pending (.write 0x014 4 5) State.reset))) ∧
      (after (step (pending (.write 0x014 4 5) State.reset))).arg ≠ (pending (.write 0x014 4 5) State.reset).arg) :=
  ⟨⟨eq_next_after (by decide +kernel), freq_ne 0x61 (by decide +kernel)⟩,
    ⟨eq_next_after (by decide +kernel), by decide +kernel⟩, ⟨eq_next_after (by decide +kernel), by decide +kernel⟩⟩

theorem witness_OnlyBuildAndResetsChangeTheTree :
    step (issuing .build State.reset) = .next (after (step (issuing .build State.reset))) ∧
      (after (step (issuing .build State.reset))).node ≠ (issuing .build State.reset).node :=
  ⟨eq_next_after (by decide +kernel), node_ne 0 (by decide +kernel)⟩

theorem witness_OnlyDeriveBuildAndResetsChangeTheCodeTable :
    step (issuing .deriveTable treeT4) = .next (after (step (issuing .deriveTable treeT4))) ∧
      (after (step (issuing .deriveTable treeT4))).ct ≠ (issuing .deriveTable treeT4).ct :=
  ⟨eq_next_after (by decide +kernel), ct_ne 0x7A (by decide +kernel)⟩

theorem witness_OnlyWriterCommandsChangeTheWriter :
    step (issuing (.wbit true) { writerWR5 with olen := 0, wn := 7 }) =
        .next (after (step (issuing (.wbit true) { writerWR5 with olen := 0, wn := 7 }))) ∧
      (after (step (issuing (.wbit true) { writerWR5 with olen := 0, wn := 7 }))).olen ≠ 0 ∧
      (after (step (issuing (.wbit true) { writerWR5 with olen := 0, wn := 7 }))).obufByte 0 ≠
        (issuing (.wbit true) { writerWR5 with olen := 0, wn := 7 }).obufByte 0 :=
  ⟨eq_next_after (by decide +kernel), by decide +kernel, by decide +kernel⟩

theorem witness_OnlyReaderCommandsChangeTheReader :
    (step (issuing .decodeSym readerD3) = .next (after (step (issuing .decodeSym readerD3))) ∧
      (after (step (issuing .decodeSym readerD3))).cur ≠ (issuing .decodeSym readerD3).cur ∧
      (after (step (issuing .decodeSym readerD3))).cursor ≠ (issuing .decodeSym readerD3).cursor) ∧
    (step (pending (.write 0x038 4 2) State.reset) = .next (after (step (pending (.write 0x038 4 2) State.reset))) ∧
      (after (step (pending (.write 0x038 4 2) State.reset))).ilen ≠ 0) ∧
    (step (pending (.write 0x400000 4 2) readerRD1) = .next (after (step (pending (.write 0x400000 4 2) readerRD1))) ∧
      (after (step (pending (.write 0x400000 4 2) readerRD1))).ibufByte 0 ≠
        (pending (.write 0x400000 4 2) readerRD1).ibufByte 0) :=
  ⟨⟨eq_next_after (by decide +kernel), by decide +kernel, by decide +kernel⟩,
    ⟨eq_next_after (by decide +kernel), by decide +kernel⟩, ⟨eq_next_after (by decide +kernel), by decide +kernel⟩⟩

theorem witness_HardwareResetLeavesTheResetValues :
    (pending .hardwareReset tableT3).bus = .hardwareReset :: [] := by decide +kernel

theorem witness_NopAndClrfaultChangeNoUnit :
    (pending (BusOp.command 0x00000001) State.reset).bus = BusOp.command 0x00000001 :: [] ∧
      State.reset.fault = .noFault ∧ Inv writerWR1 ∧ writerWR1.fault = .noFault :=
  ⟨rfl, rfl, inv_no_tree (by decide +kernel) rfl rfl ⟨rfl, rfl, rfl, rfl, rfl, rfl⟩, rfl⟩

theorem witness_FreqClrEmptiesTheTable : (counted [(0x61, 3)]).fault = .noFault := by decide +kernel

/-- Reset with COUNT_BITS = 4 and one count. -/
def narrow (n : Word) : State := (State.resetWith ⟨4, 64, 64⟩ 0).setFreq 0x61 n

theorem narrow_parts (n : Word) : (narrow n).cfg.wf = true ∧ (narrow n).q = [] ∧ BuffersOk (narrow n) ∧
    FaultRecordOk (narrow n) ∧ WriterOk (narrow n) ∧ ReaderOk (narrow n) :=
  show (narrow 0).cfg.wf = true ∧ (narrow 0).q = [] ∧ BuffersOk (narrow 0) ∧ FaultRecordOk (narrow 0) ∧
    WriterOk (narrow 0) ∧ ReaderOk (narrow 0) by decide +kernel

theorem narrow_inv {n : Word} (h : n.toNat ≤ 15) : Inv (narrow n) := by
  refine inv_of (narrow_parts n) (fun c => ?_) (no_tree_ok (fun i => reset_unused i) ⟨rfl, rfl, rfl, rfl, rfl, rfl⟩)
    fun i => unused_aggregate (reset_unused i)
  by_cases hc : c = 0x61
  · subst hc; exact (congrArg BitVec.toNat (setFreq_freqAt_same _ _ _)).trans_le h
  · refine (congrArg BitVec.toNat (setFreq_freqAt_other _ _ hc)).trans_le ?_
    simp [State.freqAt, State.resetWith]

/-- COUNT_BITS = 4: a count of 14 goes to 15, a count of 15 overflows. -/
theorem witness_FreqIncCountsOrOverflows :
    (Inv (narrow 14) ∧ (narrow 14).fault = .noFault ∧ ((narrow 14).freqAt 0x61).toNat ≠ 2 ^ 4 - 1) ∧
      (Inv (narrow 15) ∧ (narrow 15).fault = .noFault ∧ ((narrow 15).freqAt 0x61).toNat = 2 ^ 4 - 1) :=
  ⟨⟨narrow_inv (by decide), rfl, by decide +kernel⟩, ⟨narrow_inv (by decide), rfl, by decide +kernel⟩⟩

/-- Reset with COUNT_BITS = 4 and ARG = n. -/
def narrowArg (n : Word) : State := { State.resetWith ⟨4, 64, 64⟩ 0 with arg := n }

/-- COUNT_BITS = 4: 15 is loaded, 16 refused. -/
theorem witness_FreqSetLoadsArgOrRefuses :
    (narrowArg 15).fault = .noFault ∧ (narrowArg 15).arg.toNat = 2 ^ (narrowArg 15).cfg.countBits - 1 ∧
      exec (.freqSet 0x61) (narrowArg 15) = .next (after (exec (.freqSet 0x61) (narrowArg 15))) ∧
      (narrowArg 16).fault = .noFault ∧ 2 ^ (narrowArg 16).cfg.countBits - 1 < (narrowArg 16).arg.toNat :=
  ⟨rfl, by decide +kernel, eq_next_after (by decide +kernel), rfl, by decide +kernel⟩

theorem witness_FreqGetReadsTheCount : (counted [(0x61, 3)]).fault = .noFault := by decide +kernel

theorem witness_BuildOfEmptyTableMakesTheSentinel :
    State.reset.fault = .noFault ∧ ∀ c, State.reset.freqAt c = 0 :=
  ⟨rfl, fun c => by simp [State.freqAt, State.reset, State.resetWith]⟩

theorem witness_BuildOfOneSymbolMakesTheDegenerateTree :
    (State.reset.setFreq 0x7A 4).fault = .noFault ∧ (State.reset.setFreq 0x7A 4).freqAt 0x7A ≠ 0 ∧
      ∀ c, c ≠ 0x7A → (State.reset.setFreq 0x7A 4).freqAt c = 0 :=
  ⟨rfl, by decide +kernel, fun c hc => (setFreq_freqAt_other _ _ hc).trans (by
    simp [State.freqAt, State.reset, State.resetWith])⟩

theorem witness_BuildReplacesOnlyTreeAndTable :
    (tableT3.fault = .noFault ∧ tableT3.q = []) ∧
      (treeT3.fault = .noFault ∧ treeT3.tvalid = false ∧
        step (pending (.write 0x014 4 5) treeT3) = .next (after (step (pending (.write 0x014 4 5) treeT3))) ∧
        ¬ (pending (.write 0x014 4 5) treeT3).runsCommand (fun i => i = .deriveTable)) := by
  refine ⟨by decide +kernel, rfl, rfl, eq_next_after (by decide +kernel), ?_⟩
  rintro ⟨i, rest, h, rfl⟩
  cases h

theorem witness_BuildWritesLeavesInSymbolOrder :
    (counted [(0x61, 3), (0x62, 1)]).fault = .noFault ∧ (∃ c, (counted [(0x61, 3), (0x62, 1)]).freqAt c ≠ 0) ∧
      ((List.range 256).filter fun n =>
        (counted [(0x61, 3), (0x62, 1)]).freqAt (BitVec.ofNat 8 n) ≠ 0)[(1 : NodeIx).val]? = some 0x62 :=
  ⟨by decide +kernel, ⟨0x61, by decide +kernel⟩, by decide +kernel⟩

/-- T7's second merge: c at index 2 and node 3 have the same frequency. -/
theorem witness_MergeJoinsTheTwoSmallestKeys :
    ({ placed [leaf 0x61 1, leaf 0x62 1, leaf 0x63 2, join 2 0 1] State.reset with q := [2, 3] } : State).q.Nodup ∧
      2 ≤ ({ placed [leaf 0x61 1, leaf 0x62 1, leaf 0x63 2, join 2 0 1] State.reset with q := [2, 3] } : State).q.length ∧
      (4 : NodeIx) ∉ ({ placed [leaf 0x61 1, leaf 0x62 1, leaf 0x63 2, join 2 0 1] State.reset with
        q := [2, 3] } : State).q := by decide +kernel

theorem witness_BuildMakesATree :
    (counted [(0x61, 3), (0x62, 1)]).fault = .noFault ∧ ∃ c, (counted [(0x61, 3), (0x62, 1)]).freqAt c ≠ 0 :=
  ⟨by decide +kernel, 0x61, by decide +kernel⟩

/-- T1: "aaab". -/
def countsT1 : State := counted [(0x61, 3), (0x62, 1)]

theorem countsT1_inv : Inv countsT1 := inv_no_tree (by decide +kernel) rfl rfl ⟨rfl, rfl, rfl, rfl, rfl, rfl⟩

theorem witness_BuildFrequenciesNeverWrap :
    countsT1.fault = .noFault ∧ Inv countsT1 ∧ exec .build countsT1 = .next (after (exec .build countsT1)) ∧
      (after (exec .build countsT1)).tstate = .valid :=
  ⟨rfl, countsT1_inv, eq_next_after (by decide +kernel), by decide +kernel⟩

theorem witness_BuildDependsOnFreqAlone :
    State.reset.fault = .noFault ∧ treeT5.fault = .noFault ∧ State.reset.freq = treeT5.freq ∧
      exec .build State.reset = .next (after (exec .build State.reset)) ∧
      exec .build treeT5 = .next (after (exec .build treeT5)) :=
  ⟨rfl, rfl, rfl, eq_next_after (by decide +kernel), eq_next_after (by decide +kernel)⟩

/-- The leaf r, at index 4; no leaf holds z. -/
theorem witness_DeriveRecordsEachLeafPath :
    treeT3.fault = .noFault ∧ Inv treeT3 ∧ TreeShape treeT3 ∧ treeT3.tstate = .valid ∧
      (treeT3.nodeAt 4).kind = .leaf ∧
      ∀ i : NodeIx, (treeT3.nodeAt i).kind = .leaf → (treeT3.nodeAt i).sym ≠ 0x7A :=
  ⟨rfl, treeT3_inv, treeT3_shape, rfl, by decide +kernel, fun i hi =>
    forall_below (n := 5) (P := fun i => (treeT3.nodeAt i).sym ≠ 0x7A) (by decide +kernel) i (leaf_lt treeT3_layout hi)⟩

theorem witness_DeriveWithoutLeaves :
    State.reset.fault = .noFault ∧ State.reset.tstate = .none ∧ treeT5.fault = .noFault ∧ treeT5.tstate = .empty := by
  decide +kernel

theorem witness_DerivedCodesArePrefixFree :
    treeT3.fault = .noFault ∧ Inv treeT3 ∧ TreeShape treeT3 ∧ treeT3.tstate = .valid ∧
      exec .deriveTable treeT3 = .next (after (exec .deriveTable treeT3)) ∧
      ((after (exec .deriveTable treeT3)).ctAt 0x61).valid = true ∧
      ((after (exec .deriveTable treeT3)).ctAt 0x62).valid = true :=
  ⟨rfl, treeT3_inv, treeT3_shape, rfl, eq_next_after (by decide +kernel), by decide +kernel, by decide +kernel⟩

/-- Both clauses: NSYM = 5, and NSYM = 1. -/
theorem witness_CodeLengthsAreBounded :
    (Inv tableT3 ∧ TableOk tableT3 ∧ (tableT3.ctAt 0x72).valid = true ∧ 2 ≤ tableT3.nsym.toNat) ∧
      (Inv (coded [(0x7A, [false])] treeT4) ∧ TableOk (coded [(0x7A, [false])] treeT4) ∧
        ((coded [(0x7A, [false])] treeT4).ctAt 0x7A).valid = true ∧
        (coded [(0x7A, [false])] treeT4).nsym.toNat = 1) :=
  ⟨⟨inv_over treeT3_aggregates treeT3_layout (by decide +kernel) rfl rfl, tableT3_ok, by decide +kernel, by decide +kernel⟩,
    ⟨inv_over treeT4_aggregates treeT4_layout (by decide +kernel) rfl rfl, tableT4_ok, by decide +kernel, by decide +kernel⟩⟩

theorem witness_MoreFrequentSymbolsGetNoLongerCodes :
    countsT1.fault = .noFault ∧ Inv countsT1 ∧ exec .build countsT1 = .next (after (exec .build countsT1)) ∧
      exec .deriveTable (after (exec .build countsT1)) =
        .next (after (exec .deriveTable (after (exec .build countsT1)))) ∧
      (countsT1.freqAt 0x62).toNat < (countsT1.freqAt 0x61).toNat ∧ countsT1.freqAt 0x62 ≠ 0 :=
  ⟨rfl, countsT1_inv, eq_next_after (by decide +kernel), eq_next_after (by decide +kernel), by decide +kernel,
    by decide +kernel⟩

theorem witness_WopenStartsAFrameOrRefuses :
    ({ State.reset with arg := 64 } : State).fault = .noFault ∧ (64 : Word).toNat ≤ State.reset.cfg.obufSize ∧
      State.reset.cfg.obufSize < (65 : Word).toNat ∧
      (writerWR5.fault = .noFault ∧ writerWR5.wstate = .opened ∧ writerWR5.wlimit.toNat ≤ 1) := by decide +kernel

/-- Both clauses: with room for a byte and WN = 7, and with WN = 0 and no room. -/
theorem witness_WbitAppendsItsBit :
    (Inv { writerWR1 with wacc := 0x52, wn := 7 } ∧ writerWR1.fault = .noFault ∧ writerWR1.wstate = .opened ∧
        writerWR1.olen.toNat < writerWR1.wlimit.toNat) ∧
      (Inv writerWR5 ∧ writerWR5.fault = .noFault ∧ writerWR5.wstate = .opened ∧ writerWR5.wn ≠ 7) :=
  ⟨⟨inv_no_tree (by decide +kernel) rfl rfl ⟨rfl, rfl, rfl, rfl, rfl, rfl⟩, by decide +kernel⟩,
    ⟨inv_no_tree (by decide +kernel) rfl rfl ⟨rfl, rfl, rfl, rfl, rfl, rfl⟩, by decide +kernel⟩⟩

/-- A limit of exactly two bytes. -/
theorem witness_WcloseCompletesTheFrame :
    Inv { writerWR1 with wlimit := 2, wacc := 0x0E, wn := 4 } ∧ writerWR1.fault = .noFault ∧
      writerWR1.wstate = .opened ∧ writerWR1.olen.toNat + 2 ≤ (2 : BitVec 21).toNat :=
  ⟨inv_no_tree (by decide +kernel) rfl rfl ⟨rfl, rfl, rfl, rfl, rfl, rfl⟩, by decide +kernel⟩

theorem witness_WbitAndWcloseFaults :
    State.reset.fault = .noFault ∧ State.reset.wstate ≠ .opened ∧
      (({ writerWR5 with wn := 7 } : State).wn = 7 ∧ writerWR5.wlimit.toNat ≤ writerWR5.olen.toNat ∧
        writerWR5.wstate = .opened ∧ writerWR5.fault = .noFault) ∧
      (({ writerWR5 with olen := 0 } : State).wlimit.toNat = ({ writerWR5 with olen := 0 } : State).olen.toNat + 1) := by
  decide +kernel

theorem witness_WriterBitAccounting :
    writerWR1.wstate = .opened ∧ writerWR1.olen = 0 ∧ writerWR1.wn = 0 ∧
      (∃ t u, writeBits 0x31000000 [true, true, true, false] writerWR1 = .ok t ∧ closeWriter 0x32000000 t = .ok u) :=
  ⟨rfl, rfl, rfl, _, _, rfl, rfl⟩

/-- The limit is reached exactly: 8 bits, one byte. -/
theorem witness_EncodeAppendsTheCode :
    Inv { tableT3 with wstate := .opened, wlimit := 1, wacc := 0x0D, wn := 5 } ∧ tableT3.fault = .noFault ∧
      tableT3.tvalid = true ∧ (tableT3.ctAt 0x72).valid = true ∧
      (8 * tableT3.olen.toNat + (5 : BitVec 3).toNat + (tableT3.ctAt 0x72).len.toNat) / 8 ≤ (1 : BitVec 21).toNat :=
  ⟨inv_over treeT3_aggregates treeT3_layout (by decide +kernel) rfl rfl, by decide +kernel⟩

theorem witness_EncodeFaultsInOrder :
    (State.reset.fault = .noFault ∧ State.reset.tvalid = false) ∧
      (tableT3.fault = .noFault ∧ tableT3.tvalid = true ∧ tableT3.wstate ≠ .opened) ∧
      (tableT3.ctAt 0x7A).valid = false := by decide +kernel

/-- One byte more than fits. -/
theorem witness_EncodeOverTheLimitKeepsEarlierBits :
    Inv { tableT3 with wstate := .opened, wlimit := 0, wacc := 0x0D, wn := 5 } ∧ tableT3.fault = .noFault ∧
      tableT3.tvalid = true ∧ (tableT3.ctAt 0x72).valid = true ∧
      (0 : BitVec 21).toNat <
        (8 * tableT3.olen.toNat + (5 : BitVec 3).toNat + (tableT3.ctAt 0x72).len.toNat) / 8 :=
  ⟨inv_over treeT3_aggregates treeT3_layout (by decide +kernel) rfl rfl, by decide +kernel⟩

/-- The boundary: a two-byte frame with trailing byte 8. -/
theorem witness_RopenOpensTheFrame :
    Inv (framed [0xA5, 0x08] State.reset) ∧ (framed [0xA5, 0x08] State.reset).fault = .noFault ∧
      2 ≤ (framed [0xA5, 0x08] State.reset).ilen.toNat ∧
      ((framed [0xA5, 0x08] State.reset).ilen.toNat = 2 → ((framed [0xA5, 0x08] State.reset).ibufByte 1).toNat ≤ 8) :=
  ⟨inv_no_tree (by decide +kernel) rfl rfl ⟨rfl, rfl, rfl, rfl, rfl, rfl⟩, by decide +kernel⟩

/-- RD4 after ROPEN: the frame FF 00 09, whose bad trailing byte the first seven bits do not meet. -/
def readerRD4Open : State :=
  { framed [0xFF, 0x00, 0x09] State.reset with
    rstate := .opened, rlen := 3, cur := 0xFF, nxt := 0, aft := 9, aftv := true, rem := 8 }

/-- RD1's first bit; RD4's first bit, and the two bits around its boundary: the seventh is delivered, the eighth is not. -/
theorem witness_RbitDeliversTheNextBit :
    (Inv readerRD1 ∧ readerRD1.rstate = .opened ∧ readerRD1.fault = .noFault ∧
      readerRD1.readerBits = true :: [false, true, false, false, true, false, true] ∧ ¬ readerRD1.formatNext) ∧
    (Inv readerRD4Open ∧ readerRD4Open.rstate = .opened ∧ readerRD4Open.fault = .noFault ∧
      8 < readerRD4Open.trailingByte.toNat ∧
      readerRD4Open.readerBits = true :: List.replicate 7 true ∧ ¬ readerRD4Open.formatNext) ∧
    (Inv { readerRD4Open with cur := 0xC0, rem := 2 } ∧ ¬ ({ readerRD4Open with rem := 2 } : State).formatNext) ∧
    readerRD4.formatNext :=
  ⟨⟨inv_no_tree (by decide +kernel) rfl rfl ⟨rfl, rfl, rfl, rfl, rfl, rfl⟩, by decide +kernel⟩,
    ⟨inv_no_tree (by decide +kernel) rfl rfl ⟨rfl, rfl, rfl, rfl, rfl, rfl⟩, by decide +kernel⟩,
    ⟨inv_no_tree (by decide +kernel) rfl rfl ⟨rfl, rfl, rfl, rfl, rfl, rfl⟩, by decide +kernel⟩, by decide +kernel⟩

theorem witness_RopenAndRbitFaults :
    State.reset.fault = .noFault ∧ State.reset.ilen.toNat < 2 ∧
      ((framed [0x00, 0x09] State.reset).ilen.toNat = 2 ∧ 8 < ((framed [0x00, 0x09] State.reset).ibufByte 1).toNat) ∧
      State.reset.rstate ≠ .opened ∧
      (readerD3.rstate = .opened ∧ readerD3.aftv = false ∧ ({ readerD3 with rem := 0 } : State).rem = 0) ∧
      (Inv readerRD4 ∧ readerRD4.rstate = .opened ∧ readerRD4.aftv = true ∧ readerRD4.rem = 1 ∧
        readerRD4.rbase.toNat + 3 = readerRD4.rlen.toNat ∧ 8 < readerRD4.aft.toNat) :=
  ⟨rfl, by decide +kernel, by decide +kernel, by decide +kernel, by decide +kernel,
    inv_no_tree (by decide +kernel) rfl rfl ⟨rfl, rfl, rfl, rfl, rfl, rfl⟩, by decide +kernel⟩

theorem witness_RhasnextReportsHasNext :
    (readerRD1.fault = .noFault ∧ readerRD1.rstate = .opened) ∧ State.reset.rstate ≠ .opened := by decide +kernel

/-- WR2 before WCLOSE. -/
def writerWR2 : State := { writerWR1 with wacc := 0x0E, wn := 4 }

/-- WR2's frame: E0 04. -/
theorem witness_ReaderDeliversWhatTheWriterTook :
    writerWR2.fault = .noFault ∧ Inv writerWR2 ∧ writerWR2.wstate = .opened ∧
      exec .wclose writerWR2 = .next (after (exec .wclose writerWR2)) ∧
      (after (exec .wclose writerWR2)).wstate = .closed ∧ (framed [0xE0, 0x04] State.reset).fault = .noFault ∧
      Inv (framed [0xE0, 0x04] State.reset) ∧
      (framed [0xE0, 0x04] State.reset).inputFrame = (after (exec .wclose writerWR2)).outputFrame ∧
      exec .ropen (framed [0xE0, 0x04] State.reset) = .next (after (exec .ropen (framed [0xE0, 0x04] State.reset))) :=
  ⟨rfl, inv_no_tree (by decide +kernel) rfl rfl ⟨rfl, rfl, rfl, rfl, rfl, rfl⟩, rfl,
    eq_next_after (by decide +kernel), by decide +kernel, rfl,
    inv_no_tree (by decide +kernel) rfl rfl ⟨rfl, rfl, rfl, rfl, rfl, rfl⟩, by decide +kernel,
    eq_next_after (by decide +kernel)⟩

theorem readerD1_inv : Inv readerD1 := inv_over treeT3_aggregates treeT3_layout (by decide +kernel) rfl rfl

theorem readerD1_table : TableOk readerD1 :=
  coded_tableOk rfl rfl rfl treeT3_layout (by decide +kernel) (by decide +kernel)

/-- The three ways a walk ends: D1's first symbol, D3's partial code, D2's absent child. -/
theorem witness_DecodeWalksTheTree :
    (Inv readerD1 ∧ readerD1.fault = .noFault ∧ readerD1.tstate = .valid ∧ readerD1.rstate = .opened ∧
      readerD1.trailingByte.toNat ≤ 8 ∧
      readerD1.decodeFrom readerD1.cursor readerD1.readerBits = .symbol 0x61 (readerD1.readerBits.drop 1)) ∧
    (Inv readerD3 ∧ readerD3.fault = .noFault ∧ readerD3.tstate = .valid ∧ readerD3.rstate = .opened ∧
      readerD3.trailingByte.toNat ≤ 8 ∧ readerD3.decodeFrom readerD3.cursor readerD3.readerBits = .ended 7) ∧
    (Inv readerD2 ∧ readerD2.fault = .noFault ∧ readerD2.tstate = .valid ∧ readerD2.rstate = .opened ∧
      readerD2.trailingByte.toNat ≤ 8 ∧
      readerD2.decodeFrom readerD2.cursor readerD2.readerBits = .noChild 1 true []) :=
  ⟨⟨readerD1_inv, by decide +kernel⟩, ⟨inv_over treeT3_aggregates treeT3_layout (by decide +kernel) rfl rfl, by decide +kernel⟩,
    ⟨inv_over treeT4_aggregates treeT4_layout (by decide +kernel) rfl rfl, by decide +kernel⟩⟩

/-- A reader on the frame c 00 09 over a tree. -/
def badFrame (c : Byte) (s : State) : State :=
  { framed [c, 0x00, 0x09] s with rstate := .opened, rlen := 3, cur := c, nxt := 0, aft := 9, aftv := true, rem := 8 }

/-- The three ways: over T3, the frame 7F reaches the leaf of a at its first bit, and with
two bits of 80 left the walk of the first stands at node 7 when the second meets the bad trailing byte; over T4 the bit 1 has no child. -/
theorem witness_DecodeOverABadTrailingByte :
    (Inv (badFrame 0x7F treeT3) ∧ (badFrame 0x7F treeT3).fault = .noFault ∧ (badFrame 0x7F treeT3).tstate = .valid ∧
      (badFrame 0x7F treeT3).rstate = .opened ∧ 8 < (badFrame 0x7F treeT3).trailingByte.toNat ∧
      (badFrame 0x7F treeT3).readerBits = (false :: List.replicate 6 true) ++ [true] ∧
      (badFrame 0x7F treeT3).decodeFrom 8 (false :: List.replicate 6 true) = .symbol 0x61 (List.replicate 6 true)) ∧
    (Inv { badFrame 0x80 treeT3 with rem := 2 } ∧
      ({ badFrame 0x80 treeT3 with rem := 2 } : State).readerBits = [true] ++ [false] ∧
      ({ badFrame 0x80 treeT3 with rem := 2 } : State).decodeFrom 8 [true] = .ended 7) ∧
    (Inv (badFrame 0xFF treeT4) ∧ (badFrame 0xFF treeT4).readerBits = List.replicate 7 true ++ [true] ∧
      (badFrame 0xFF treeT4).decodeFrom 1 (List.replicate 7 true) = .noChild 1 true (List.replicate 6 true)) :=
  ⟨⟨inv_over treeT3_aggregates treeT3_layout (by decide +kernel) rfl rfl, by decide +kernel⟩,
    ⟨inv_over treeT3_aggregates treeT3_layout (by decide +kernel) rfl rfl, by decide +kernel⟩,
    ⟨inv_over treeT4_aggregates treeT4_layout (by decide +kernel) rfl rfl, by decide +kernel⟩⟩

/-- RD4's eighth bit, over T3's tree. -/
def readerRD4T3 : State :=
  { framed [0xFF, 0x00, 0x09] treeT3 with
    rstate := .opened, rlen := 3, cur := 0x80, nxt := 0, aft := 9, aftv := true, rem := 1 }

/-- The four clauses. -/
theorem witness_DecodeFaultsAndSentinel :
    (State.reset.fault = .noFault ∧ State.reset.tstate = .none) ∧
      (treeT3.fault = .noFault ∧ treeT3.tstate ≠ .none ∧ treeT3.rstate ≠ .opened) ∧
      (treeT5.fault = .noFault ∧ treeT5.tstate = .empty ∧
        ({ treeT5 with rstate := .opened, rlen := 2 } : State).rstate = .opened) ∧
      (Inv readerRD4T3 ∧ readerRD4T3.fault = .noFault ∧ readerRD4T3.tstate = .valid ∧
        readerRD4T3.rstate = .opened ∧ readerRD4T3.aftv = true ∧ readerRD4T3.rem = 1 ∧
        readerRD4T3.rbase.toNat + 3 = readerRD4T3.rlen.toNat ∧ 8 < readerRD4T3.aft.toNat) :=
  ⟨by decide +kernel, by decide +kernel, by decide +kernel,
    inv_over treeT3_aggregates treeT3_layout (by decide +kernel) rfl rfl, by decide +kernel⟩

/-- D1: the frame begins with the code of 'a'. -/
theorem witness_DecodeInvertsEncode :
    readerD1.fault = .noFault ∧ Inv readerD1 ∧ TableOk readerD1 ∧ readerD1.rstate = .opened ∧
      readerD1.trailingByte.toNat ≤ 8 ∧ readerD1.cursor = readerD1.root ∧ (readerD1.ctAt 0x61).valid = true ∧
      readerD1.readerBits = (readerD1.ctAt 0x61).bits ++ readerD1.readerBits.drop 1 :=
  ⟨rfl, readerD1_inv, readerD1_table, rfl, by decide +kernel⟩

theorem witness_ResetHasInvariant : (Config.mk 4 2 (2 ^ 20)).wf = true := by decide

/-- A DECODE step over T3's tree and table. -/
theorem witness_StepKeepsInvariant :
    Inv (issuing .decodeSym readerD1) ∧
      step (issuing .decodeSym readerD1) = .next (after (step (issuing .decodeSym readerD1))) :=
  ⟨readerD1_inv, eq_next_after (by decide +kernel)⟩

theorem witness_StepKeepsTreeShape :
    Inv (issuing .deriveTable treeT3) ∧ TreeShape (issuing .deriveTable treeT3) ∧
      step (issuing .deriveTable treeT3) = .next (after (step (issuing .deriveTable treeT3))) :=
  ⟨treeT3_inv, treeT3_shape, eq_next_after (by decide +kernel)⟩

theorem witness_StepKeepsTableOfTheTree :
    Inv (issuing .decodeSym readerD1) ∧ TreeShape (issuing .decodeSym readerD1) ∧
      TableOk (issuing .decodeSym readerD1) ∧
      step (issuing .decodeSym readerD1) = .next (after (step (issuing .decodeSym readerD1))) :=
  ⟨readerD1_inv, treeT3_shape,
    coded_tableOk rfl rfl rfl treeT3_layout (by decide +kernel) (by decide +kernel), eq_next_after (by decide +kernel)⟩

theorem witness_EveryStepCompletes : Inv readerD1 := readerD1_inv

end Sys2Proof.Tests
end

/-! # The invariant over every step (spec/00_scope.md R14, R17; spec/60_exceptions.md R240)

One development settles both statements about every step: from a state of `Inv` each command and each host access
completes, in a state of `Inv` again (`CompletesInv`). The units are taken one at a time; a unit's lemma says what it may
change and which of `Inv`'s parts has to be shown anew. -/

namespace Sys2Proof.Machine

/-! ## The parts of the invariant -/

theorem Inv.cfg_wf {s : State} (h : Inv s) : s.cfg.wf = true := h.1

theorem Inv.q_nil {s : State} (h : Inv s) : s.q = [] := h.2.1

theorem Inv.buffersOk {s : State} (h : Inv s) : BuffersOk s := h.2.2.1

theorem Inv.obufOk {s : State} (h : Inv s) : Memory.wf s.obuf = true ∧ Memory.below s.obuf s.cfg.obufSize = true := by
  obtain ⟨-, hwf, -, hbelow⟩ := h.buffersOk
  exact ⟨hwf, hbelow⟩

theorem Inv.countsOk {s : State} (h : Inv s) : CountsOk s := h.2.2.2.1

theorem Inv.faultRecordOk {s : State} (h : Inv s) : FaultRecordOk s := h.2.2.2.2.1

theorem Inv.writerOk {s : State} (h : Inv s) : WriterOk s := h.2.2.2.2.2.1

theorem Inv.readerOk {s : State} (h : Inv s) : ReaderOk s := h.2.2.2.2.2.2.1

theorem Inv.treeOk {s : State} (h : Inv s) : TreeOk s := h.2.2.2.2.2.2.2.1

theorem Inv.aggregatesOk {s : State} (h : Inv s) : AggregatesOk s := h.2.2.2.2.2.2.2.2

theorem Inv.validLayout {s : State} (h : Inv s) (hs : s.tstate = .valid) : ValidLayout s := (h.treeOk.2.2 hs).1

theorem Inv.cursor_internal {s : State} (h : Inv s) (hs : s.tstate = .valid) : (s.nodeAt s.cursor).kind = .internal :=
  (h.treeOk.2.2 hs).2

/-- The invariant says nothing of the host's side of the bus. -/
theorem Inv.withBus {s : State} (h : Inv s) (bus : List BusOp) : Inv { s with bus := bus } := h

/-- The invariant says nothing of the words the host's reads returned. -/
theorem Inv.withReads {s : State} (h : Inv s) (reads : List Word) : Inv { s with reads := reads } := h

/-- The invariant says nothing of RESULT. -/
theorem Inv.withResult {s : State} (h : Inv s) (v : Word) : Inv { s with result := v } := h

/-- The invariant says nothing of ARG. -/
theorem Inv.withArg {s : State} (h : Inv s) (v : Word) : Inv { s with arg := v } := h

/-! ## How a command can end -/

/-- The command or the access completes (R14), and what it answers meets the invariant. -/
def CompletesInv (r : Result) : Prop := ∃ t, r = .next t ∧ Inv t

theorem completesInv_next {t : State} (h : Inv t) : CompletesInv (.next t) := ⟨t, rfl, h⟩

theorem unlessFaulted_completesInv {s : State} {body : State → Result} (h : Inv s) (hb : CompletesInv (body s)) :
    CompletesInv (unlessFaulted s body) := by
  by_cases hf : s.fault = .noFault
  · rwa [unlessFaulted_run hf]
  · rw [unlessFaulted_drop hf]; exact completesInv_next h

/-- A property that every part of a sequence of internal steps keeps holds at its end, whether it completed or raised. -/
theorem Ran.andThen_state {P : State → Prop} {r : Ran} {f : State → Ran} (hr : P r.state)
    (hf : ∀ t, P t → P (f t).state) : P (r.andThen f).state := by
  cases r with
  | ok t => exact hf t hr
  | raised t => exact hr

/-! ## The fault record -/

/-- The codes a raise may record: neither 0 nor one of the two that R241 never raises. -/
abbrev FaultCode.raisable (f : FaultCode) : Prop := f ≠ .noFault ∧ f ≠ .emptyInput ∧ f ≠ .ioFailure

theorem raise_inv {s : State} {f : FaultCode} (h : Inv s) (hf : f.raisable) (i0 i1 w : Word) :
    Inv (raise f i0 i1 w s) := by
  obtain ⟨hne, hcodes⟩ := hf
  unfold raise
  split
  · obtain ⟨hcfg, hq, hb, hc, -, hw, hr, ht, ha⟩ := h
    exact ⟨hcfg, hq, hb, hc, ⟨fun e => absurd e hne, hcodes⟩, hw, hr, ht, ha⟩
  · exact h

theorem clearFault_inv {s : State} (h : Inv s) : Inv (clearFault s) := by
  obtain ⟨hcfg, hq, hb, hc, -, hw, hr, ht, ha⟩ := h
  exact ⟨hcfg, hq, hb, hc, ⟨fun _ => ⟨rfl, rfl, rfl⟩, by simp⟩, hw, hr, ht, ha⟩

/-! ## Resets (R50, R231, R270) -/

theorem resetWith_nodeAt (c : Config) (epoch : Nat) (i : NodeIx) :
    (State.resetWith c epoch).nodeAt i = NodeRec.unused := by simp [State.nodeAt, State.resetWith]

theorem resetWith_freqAt (c : Config) (epoch : Nat) (b : Byte) : (State.resetWith c epoch).freqAt b = 0 := by
  simp [State.freqAt, State.resetWith]

theorem resetWith_inv {c : Config} (hc : c.wf = true) (epoch : Nat) : Inv (State.resetWith c epoch) := by
  refine ⟨hc, rfl, ⟨rfl, rfl, rfl, rfl⟩, fun b => ?counts, ⟨fun _ => ⟨rfl, rfl, rfl⟩, by simp [State.resetWith]⟩,
    ⟨Nat.le_refl 0, Nat.zero_le _, Nat.one_pos, fun _ => rfl⟩,
    ⟨Nat.zero_le _, Nat.zero_le _, Nat.zero_le 8, nofun, nofun⟩,
    ⟨fun _ => ⟨rfl, rfl, rfl, rfl, rfl, resetWith_nodeAt c epoch⟩, nofun, nofun⟩, fun i => ?freqs⟩
  case counts => rw [resetWith_freqAt]; exact Nat.zero_le _
  case freqs => rw [resetWith_nodeAt]; exact Nat.two_pow_pos _

theorem hardReset_inv {s : State} (h : Inv s) : Inv (hardReset s) := resetWith_inv h.cfg_wf (s.epoch + 1)

/-- SRST keeps the buffers, which are canonical before it (R231). -/
theorem softReset_inv {s : State} (h : Inv s) : Inv (softReset s) := by
  obtain ⟨hcfg, hq, -, hc, hf, hw, hr, ht, ha⟩ := resetWith_inv h.cfg_wf s.epoch
  exact ⟨hcfg, hq, h.buffersOk, hc, hf, hw, hr, ht, ha⟩

/-! ## FREQ (R111 to R114) -/

theorem countMax_lt {c : Config} (h : c.wf = true) : countMax c < 2 ^ 32 := by
  have hle : 2 ^ c.countBits ≤ 2 ^ 32 := Nat.pow_le_pow_right (by decide) (wf_sizes h).1.2
  unfold countMax
  omega

theorem truncCount_le (c : Config) (v : Word) : (truncCount c v).toNat ≤ countMax c := by
  have hlt : v.toNat % 2 ^ c.countBits < 2 ^ c.countBits := Nat.mod_lt _ (Nat.two_pow_pos _)
  calc (truncCount c v).toNat
      ≤ v.toNat % 2 ^ c.countBits := by rw [truncCount, BitVec.toNat_ofNat]; exact Nat.mod_le ..
    _ ≤ countMax c := by unfold countMax; omega

theorem setFreq_inv {s : State} {v : Word} (h : Inv s) (c : Byte) (hv : v.toNat ≤ countMax s.cfg) :
    Inv (s.setFreq c v) := by
  obtain ⟨hcfg, hq, hb, hc, hf, hw, hr, ht, ha⟩ := h
  refine ⟨hcfg, hq, hb, fun d => ?_, hf, hw, hr, ht, ha⟩
  by_cases hd : d = c
  · rw [hd, setFreq_freqAt_same]; exact hv
  · rw [setFreq_freqAt_other s v hd]; exact hc d

theorem execFreqClr_completesInv {s : State} (h : Inv s) : CompletesInv (execFreqClr s) := by
  refine unlessFaulted_completesInv h (completesInv_next ?_)
  obtain ⟨hcfg, hq, hb, -, hf, hw, hr, ht, ha⟩ := h
  refine ⟨hcfg, hq, hb, fun c => ?_, hf, hw, hr, ht, ha⟩
  simp [State.freqAt]

/-- FREQ.INC counts only below the largest count, where + 1 does not wrap (R112). -/
theorem execFreqInc_completesInv {s : State} (h : Inv s) (c : Byte) : CompletesInv (execFreqInc c s) := by
  refine unlessFaulted_completesInv h ?_
  split
  · exact completesInv_next (raise_inv h (by decide) ..)
  · next hne =>
    have hle := h.countsOk c
    have hmax := countMax_lt h.cfg_wf
    refine completesInv_next (setFreq_inv h c ?_)
    rw [BitVec.toNat_add, show (1 : Word).toNat = 1 from rfl]
    omega

theorem execFreqSet_completesInv {s : State} (h : Inv s) (c : Byte) : CompletesInv (execFreqSet c s) := by
  refine unlessFaulted_completesInv h ?_
  split
  · exact completesInv_next (raise_inv h (by decide) ..)
  · exact completesInv_next (setFreq_inv h c (truncCount_le ..))

theorem execFreqGet_completesInv {s : State} (h : Inv s) (c : Byte) : CompletesInv (execFreqGet c s) :=
  unlessFaulted_completesInv h (completesInv_next (h.withResult _))

/-! ## BUILD (R131 to R138) -/

/-- A finished tree with the cursor at its root agrees with TSTATE = VALID. -/
theorem treeOk_of_validLayout {s : State} (hs : s.tstate = .valid) (hv : ValidLayout s) (hc : s.cursor = s.root) :
    TreeOk s :=
  ⟨fun e => by simp [hs] at e, fun e => by simp [hs] at e, fun _ => ⟨hv, hc ▸ root_inner hv⟩⟩

theorem buildSentinel_treeOk {s : State} (hu : ∀ i, s.nodeAt i = NodeRec.unused) : TreeOk (buildSentinel s) :=
  ⟨nofun, fun _ => ⟨rfl, rfl, rfl, rfl, setNode_nodeAt_same s .., fun i hi => (setNode_nodeAt_other s _ hi).trans (hu i)⟩,
    nofun⟩

/-- The wrapper of the single leaf (R135): node 1, whose only child is node 0. -/
theorem buildDegenerate_validLayout {s : State}
    (hleaf : ∀ i : NodeIx, i.val < 1 → (s.nodeAt i).kind = .leaf ∧ (s.nodeAt i).left = none ∧ (s.nodeAt i).right = none)
    (hu : ∀ i : NodeIx, 1 ≤ i.val → s.nodeAt i = NodeRec.unused) : ValidLayout (buildDegenerate s) := by
  have hother : ∀ i : NodeIx, i.val ≠ 1 → (buildDegenerate s).nodeAt i = s.nodeAt i :=
    fun i hi => setNode_nodeAt_other s _ fun e => hi (congrArg Fin.val e)
  have hroot : ∀ i : NodeIx, i.val = 1 → (buildDegenerate s).nodeAt i =
      NodeRec.internalOf (s.nodeAt (nodeIx 0)).freq (some (nodeIx 0)) none := fun i hi => by
    obtain rfl : i = nodeIx 1 := Fin.ext hi
    exact setNode_nodeAt_same s ..
  refine ⟨Nat.le_refl 1, (by decide : 1 ≤ 256), rfl, rfl, fun i hi => ?leaf, fun i h1 h2 => ?inner, fun i hi => ?unused⟩
  case leaf =>
    have hi : i.val < 1 := hi
    rw [hother i (by omega)]; exact hleaf i hi
  case inner =>
    have h1 : 1 ≤ i.val := h1
    have h2 : i.val < 2 := h2
    have hi : i.val = 1 := by omega
    rw [hroot i hi]
    obtain rfl : i = nodeIx 1 := Fin.ext hi
    exact ⟨rfl, rfl, rfl, (if_pos (show (buildDegenerate s).nsym.toNat = 1 from rfl)).mpr rfl⟩
  case unused =>
    have hi : 2 ≤ i.val := hi
    rw [hother i (by omega)]; exact hu i (by omega)

/-- What the rounds of mergeAll(k) end in has the layout of a tree with k leaves (R132 to R134). -/
theorem Merging.validLayout {k : Nat} {s : State} (h : Merging k (2 * k - 1) s) (h2 : 2 ≤ k) (q : List NodeIx) :
    ValidLayout (({ s with q := q } : State).finishTree .valid (nodeIx (2 * k - 2)) (2 * k - 1) k) := by
  obtain ⟨-, hk, -⟩ := h.bounds
  have hsym : (BitVec.ofNat 9 k).toNat = k := by rw [BitVec.toNat_ofNat]; omega
  have hnodes : (BitVec.ofNat 10 (2 * k - 1)).toNat = 2 * k - 1 := by rw [BitVec.toNat_ofNat]; omega
  have hroot : (nodeIx (2 * k - 2)).val = 2 * k - 2 := nodeIx_val (show _ < 511 by omega)
  have hne : k ≠ 1 := by omega
  simp only [ValidLayout, finishTree_nsym, finishTree_nnodes, finishTree_root, hsym, hnodes, hroot, if_neg hne]
  exact ⟨by omega, hk, trivial, by omega, h.leaf, h.inner, h.unused⟩

theorem buildTree_treeOk (s : State) : TreeOk (buildTree s) := by
  rcases buildTree_eq s with ⟨-, he⟩ | ⟨h1, he⟩ | ⟨h2, he⟩
  · rw [he]; exact buildSentinel_treeOk (clearTree_nodeAt s)
  · have hm := merging_start (s := s) (by omega)
    rw [h1] at hm
    rw [he]
    exact treeOk_of_validLayout rfl (buildDegenerate_validLayout hm.leaf hm.unused) rfl
  · obtain ⟨hm, hq⟩ := mergeLoop_end h2
    rw [he, hq]
    exact treeOk_of_validLayout rfl (hm.validLayout h2 []) rfl

/-- Q is empty again when BUILD completes (R33). -/
theorem buildTree_q {s : State} (h : s.q = []) : (buildTree s).q = [] := by
  rcases buildTree_eq s with ⟨-, he⟩ | ⟨-, he⟩ | ⟨-, he⟩
  · rw [he]; exact h
  · rw [he, writeLeaves_frame]; exact h
  · rw [he]; rfl

/-- No aggregate frequency exceeds the sum of 256 counts, which fits COUNT_BITS + 8 bits (R138). -/
theorem buildTree_freq_lt {s : State} (h : CountsOk s) (i : NodeIx) :
    ((buildTree s).nodeAt i).freq.toNat < 2 ^ (s.cfg.countBits + 8) := by
  have hpos := Nat.two_pow_pos s.cfg.countBits
  calc ((buildTree s).nodeAt i).freq.toNat
      ≤ s.countSum := buildTree_freq_le s i
    _ ≤ 256 * countMax s.cfg := countSum_le s h
    _ < 2 ^ (s.cfg.countBits + 8) := by unfold countMax; rw [Nat.pow_add]; omega

theorem buildTree_inv {s : State} (h : Inv s) : Inv (buildTree s) := by
  have htree := buildTree_treeOk s
  have hq := buildTree_q h.q_nil
  have hfreq := buildTree_freq_lt h.countsOk
  obtain ⟨hcfg, -, hb, hc, hf, hw, hr, -, -⟩ := h
  generalize hbt : buildTree s = t at htree hq hfreq ⊢
  have he := buildTree_frame s
  rw [hbt] at he
  rw [he] at htree hq hfreq ⊢
  exact ⟨hcfg, hq, hb, hc, hf, hw, hr, htree, hfreq⟩

theorem execBuild_completesInv {s : State} (h : Inv s) : CompletesInv (execBuild s) :=
  unlessFaulted_completesInv h (completesInv_next (buildTree_inv h))

/-! ## DERIVE (R140, R141) -/

/-- With a tree or the sentinel the code table may be filled and TVALID set: the invariant speaks of neither (R36). -/
theorem Inv.withTable {s : State} (h : Inv s) (hs : s.tstate ≠ .none) (ct : Vector CtEntry alpha) :
    Inv { s with ct := ct, tvalid := true } := by
  obtain ⟨hcfg, hq, hb, hc, hf, hw, hr, ⟨-, hte, htv⟩, ha⟩ := h
  exact ⟨hcfg, hq, hb, hc, hf, hw, hr, ⟨fun e => absurd e hs, hte, htv⟩, ha⟩

/-- The traversal of a tree ends: child links point to lower indices, so its depth is at most ROOT + 1 ≤ NODE_COUNT. -/
theorem execDerive_completesInv {s : State} (h : Inv s) : CompletesInv (execDerive s) := by
  refine unlessFaulted_completesInv h ?_
  split
  · exact completesInv_next (raise_inv h (by decide) ..)
  · next hs => exact completesInv_next (h.withTable (by simp [hs]) _)
  · next hs =>
    obtain ⟨ct, hct, -⟩ := preorder_spec (h.validLayout hs).linksFall nodeCount s.root [] s.clearCt.ct s.root.isLt
    rw [hct]
    exact completesInv_next (h.withTable (by simp [hs]) _)

/-! ## The writer (R161 to R169) -/

/-- A writer step keeps the invariant when it keeps OBUF canonical, the writer inside its bounds, and the fault record. -/
theorem Inv.of_sameButWriterUnit {s t : State} (h : Inv s) (he : s.sameButWriterUnit t)
    (hobuf : Memory.wf t.obuf = true ∧ Memory.below t.obuf s.cfg.obufSize = true) (hw : WriterOk t)
    (hf : FaultRecordOk t) : Inv t := by
  obtain ⟨hcfg, hq, ⟨hiwf, -, hibelow, -⟩, hc, -, -, hr, ht, ha⟩ := h
  unfold State.sameButWriterUnit at he
  rw [he] at hobuf hw hf ⊢
  exact ⟨hcfg, hq, ⟨hiwf, hobuf.1, hibelow, hobuf.2⟩, hc, hf, hw, hr, ht, ha⟩

/-- The low 21 bits of a word, which OLEN, WLIMIT and ILEN hold, are at most the word. -/
theorem low21_le (v : Word) : (v.extractLsb' 0 21).toNat ≤ v.toNat := by
  rw [BitVec.extractLsb'_toNat, Nat.shiftRight_zero]
  exact Nat.mod_le ..

/-- A failed writer may hold pending bits (R37). -/
theorem Inv.withFailedWriter {s : State} (h : Inv s) : Inv { s with wstate := .failed } := by
  obtain ⟨hol, hlim, hacc, -⟩ := h.writerOk
  exact h.of_sameButWriterUnit rfl h.obufOk ⟨hol, hlim, hacc, by simp⟩ h.faultRecordOk

/-- With WACC = 0 and WN = 0 no bit is pending, whatever WSTATE is. -/
theorem Inv.withEmptyWacc {s : State} (h : Inv s) (ws : WState) : Inv { s with wacc := 0, wn := 0, wstate := ws } := by
  obtain ⟨hol, hlim, -, -⟩ := h.writerOk
  exact h.of_sameButWriterUnit rfl h.obufOk ⟨hol, hlim, Nat.one_pos, fun _ => rfl⟩
    h.faultRecordOk

theorem emitByte_inv {s : State} (h : Inv s) (w : Word) (v : Byte) : Inv (emitByte w v s).state := by
  obtain ⟨howf, hobelow⟩ := h.obufOk
  obtain ⟨hol, hlim, hacc, hpend⟩ := h.writerOk
  by_cases hroom : s.olen.toNat < s.wlimit.toNat
  · have hsucc := olen_succ hroom
    rw [emitByte_room hroom]
    exact h.of_sameButWriterUnit rfl
      ⟨Memory.write_wf _ v howf, Memory.write_below v (by omega) hobelow⟩
      ⟨show (s.olen + 1).toNat ≤ s.wlimit.toNat by omega, hlim, hacc, hpend⟩ h.faultRecordOk
  · rw [emitByte_full (by omega)]
    exact raise_inv h.withFailedWriter (by decide) ..

/-- A writer that is neither idle nor closed, so one that may hold pending bits; and the invariant. -/
def BusyWriter (s : State) : Prop := Inv s ∧ s.wstate ≠ .idle ∧ s.wstate ≠ .closed

theorem BusyWriter.of_opened {s : State} (h : Inv s) (ho : s.wstate = .opened) : BusyWriter s := ⟨h, by simp [ho]⟩

/-- writeBitCore keeps the bits above WN 0 (R163, R37). -/
theorem writeBitCore_busyWriter {s : State} (h : BusyWriter s) (w : Word) (b : Bool) :
    BusyWriter (writeBitCore w b s).state := by
  obtain ⟨h, hidle, hclosed⟩ := h
  obtain ⟨hol, hlim, hacc, -⟩ := h.writerOk
  by_cases hn : s.wn = 7
  · by_cases hroom : s.olen.toNat < s.wlimit.toNat
    · have hemit := emitByte_inv h w (pushBit s.wacc b)
      rw [emitByte_room hroom] at hemit
      rw [writeBitCore_flush hn hroom]
      exact ⟨hemit.withEmptyWacc s.wstate, hidle, hclosed⟩
    · rw [writeBitCore_full hn (by omega)]
      exact ⟨raise_inv h.withFailedWriter (by decide) .., by simp⟩
  · have hsucc := wn_succ hn
    have hlt : (pushBit s.wacc b).toNat < 2 ^ (s.wn + 1).toNat := by
      have := s.wn.isLt
      rw [hsucc]; exact pushBit_lt b hacc (by omega)
    rw [writeBitCore_pending hn]
    exact ⟨h.of_sameButWriterUnit rfl h.obufOk
      ⟨hol, hlim, hlt, fun e => absurd e (by simp [hidle, hclosed])⟩ h.faultRecordOk, hidle, hclosed⟩

theorem writeBits_busyWriter (w : Word) (bits : List Bool) {s : State} (h : BusyWriter s) :
    BusyWriter (writeBits w bits s).state := by
  induction bits generalizing s with
  | nil => exact h
  | cons b bs ih => exact Ran.andThen_state (writeBitCore_busyWriter h w b) fun _ ht => ih ht

theorem closeWriter_inv {s : State} (h : Inv s) (w : Word) : Inv (closeWriter w s).state :=
  Ran.andThen_state (P := Inv)
    (Ran.andThen_state (P := Inv) (emitByte_inv h w _) fun _ ht => emitByte_inv ht w _)
    fun _ ht => ht.withEmptyWacc .closed

theorem raiseWriterState_inv {s : State} (h : Inv s) (w : Word) : Inv (raiseWriterState w s) :=
  raise_inv h (by decide) ..

theorem execWopen_completesInv {s : State} (h : Inv s) : CompletesInv (execWopen s) := by
  refine unlessFaulted_completesInv h ?_
  split
  · exact completesInv_next (raise_inv h (by decide) ..)
  · next hlim =>
    have hle := low21_le s.limitOperand
    refine completesInv_next (h.of_sameButWriterUnit rfl h.obufOk ?_ h.faultRecordOk)
    exact ⟨Nat.zero_le _, show (s.limitOperand.extractLsb' 0 21).toNat ≤ s.cfg.obufSize by omega, Nat.one_pos,
      fun _ => rfl⟩

theorem execWbit_completesInv {s : State} (h : Inv s) (b : Bool) : CompletesInv (execWbit b s) := by
  refine unlessFaulted_completesInv h ?_
  split
  · exact completesInv_next (raiseWriterState_inv h _)
  · next ho => exact completesInv_next (writeBitCore_busyWriter (.of_opened h (not_not.1 ho)) _ b).1

theorem execWclose_completesInv {s : State} (h : Inv s) : CompletesInv (execWclose s) := by
  refine unlessFaulted_completesInv h ?_
  split
  · exact completesInv_next (raiseWriterState_inv h _)
  · exact completesInv_next (closeWriter_inv h _)

theorem execEncode_completesInv {s : State} (h : Inv s) (c : Byte) : CompletesInv (execEncode c s) := by
  refine unlessFaulted_completesInv h ?_
  split
  · exact completesInv_next (raise_inv h (by decide) ..)
  · split
    · exact completesInv_next (raiseWriterState_inv h _)
    · next ho =>
      split
      · exact completesInv_next (raise_inv h (by decide) ..)
      · exact completesInv_next (writeBits_busyWriter _ _ (.of_opened h (not_not.1 ho))).1

/-! ## The reader (R191 to R199) -/

/-- A reader step keeps the invariant when it keeps the reader inside its bounds, and the fault record. -/
theorem Inv.of_sameButReader {s t : State} (h : Inv s) (he : s.sameButReader t) (hr : ReaderOk t)
    (hf : FaultRecordOk t) : Inv t := by
  obtain ⟨hcfg, hq, hb, hc, -, hw, -, ht, ha⟩ := h
  unfold State.sameButReader at he
  rw [he] at hr hf ⊢
  exact ⟨hcfg, hq, hb, hc, hf, hw, hr, ht, ha⟩

theorem raiseReaderState_inv {s : State} (h : Inv s) (w : Word) : Inv (raiseReaderState w s) :=
  raise_inv h (by decide) ..

/-- readBitCore keeps the invariant, whether it completes or finds a bad trailing byte. -/
theorem readBitCore_inv {s : State} (h : Inv s) (hn : s.hasNext = true) (w : Word) : Inv (readBitCore w s).state := by
  rcases readBitCore_cases h.readerOk hn w with ⟨t, he, hr, hf⟩ | ⟨i0, t, he, hr, -, hf⟩
  · have hs : s.sameButReader t := by rw [State.sameButWindow] at hf; rw [hf]; rfl
    have hrec : FaultRecordOk t := by rw [State.sameButWindow] at hf; rw [hf]; exact h.faultRecordOk
    rw [he]
    exact h.of_sameButReader hs hr hrec
  · have hs : s.sameButReader t := by rw [hf]; rfl
    have hrec : FaultRecordOk t := by rw [hf]; exact h.faultRecordOk
    rw [he]
    exact raise_inv (h.of_sameButReader hs hr hrec) (by decide) ..

/-- The cursor may move to ROOT and, in a tree, to any internal node. -/
theorem Inv.withCursor {s : State} (h : Inv s) {c : NodeIx}
    (hc : c = s.root ∨ (s.tstate = .valid ∧ (s.nodeAt c).kind = .internal)) : Inv { s with cursor := c } := by
  obtain ⟨hcfg, hq, hb, hcnt, hf, hw, hr, ⟨htn, hte, htv⟩, ha⟩ := h
  have hroot (hne : s.tstate ≠ .valid) : c = s.root := hc.resolve_right fun hv => hne hv.1
  refine ⟨hcfg, hq, hb, hcnt, hf, hw, hr, ⟨fun e => ?none, fun e => ?empty, fun e => ?valid⟩, ha⟩
  case none =>
    obtain ⟨hzero, hnodes, hsym, -, htail⟩ := htn e
    exact ⟨hzero, hnodes, hsym, (hroot (e.trans_ne nofun)).trans hzero, htail⟩
  case empty =>
    obtain ⟨hzero, hnodes, hsym, -, htail⟩ := hte e
    exact ⟨hzero, hnodes, hsym, (hroot (e.trans_ne nofun)).trans hzero, htail⟩
  case valid =>
    obtain ⟨hlay, -⟩ := htv e
    refine ⟨hlay, ?_⟩
    rcases hc with rfl | ⟨-, hk⟩
    · exact root_inner hlay
    · exact hk

/-- ROPEN's cursor is ROOT: without a tree ROOT is 0 too (R34, R191). -/
theorem Inv.withOpenCursor {s : State} (h : Inv s) :
    Inv { s with cursor := if s.tstate ≠ .none then s.root else 0 } := by
  refine h.withCursor (.inl ?_)
  split
  · rfl
  · next hs => exact (h.treeOk.1 (not_not.1 hs)).1.symm

theorem openReader_inv {s : State} (h : Inv s) (w : Word) : Inv (openReader w s).state := by
  obtain ⟨hilen, -, hrem, -, -⟩ := h.readerOk
  rcases Nat.lt_or_ge s.ilen.toNat 2 with hshort | h2
  · rw [openReader_short hshort, Ran.state_raised]
    have hfailed : Inv { s with rlen := s.ilen, rstate := .failed } :=
      h.of_sameButReader rfl ⟨hilen, hilen, hrem, nofun, nofun⟩ h.faultRecordOk
    exact raise_inv hfailed (by decide) ..
  · rcases Nat.lt_or_ge 2 s.ilen.toNat with hlong | hle
    · rw [openReader_long hlong]
      refine Inv.withOpenCursor (h.of_sameButReader (t := { s with
        rlen := s.ilen, cur := s.ibufByte 0, nxt := s.ibufByte 1, rbase := 0, aft := s.ibufByte 2, aftv := true,
        rem := 8, rstate := .opened }) rfl ?_ h.faultRecordOk)
      exact ⟨hilen, hilen, Nat.le_refl 8, fun _ _ => ⟨Nat.one_le_ofNat, hlong⟩, nofun⟩
    · have htwo : s.ilen.toNat = 2 := by omega
      by_cases htail : (s.ibufByte 1).toNat ≤ 8
      · have hnib := lowNibble_toNat htail
        rw [openReader_two htwo htail]
        refine Inv.withOpenCursor (h.of_sameButReader (t := { s with
          rlen := s.ilen, cur := s.ibufByte 0, nxt := s.ibufByte 1, rbase := 0, aft := 0, aftv := false,
          rem := (s.ibufByte 1).extractLsb' 0 4, rstate := .opened }) rfl ?_ h.faultRecordOk)
        exact ⟨hilen, hilen, hnib.trans_le htail, nofun, fun _ _ => ⟨htwo.symm, rfl, htail, hnib.le⟩⟩
      · rw [openReader_two_bad htwo (by omega), Ran.state_raised]
        have hfailed : Inv { s with
            rlen := s.ilen, cur := s.ibufByte 0, nxt := s.ibufByte 1, rbase := 0, aft := 0, aftv := false,
            rstate := .failed } :=
          h.of_sameButReader rfl ⟨hilen, hilen, hrem, nofun, nofun⟩ h.faultRecordOk
        exact raise_inv hfailed (by decide) ..

theorem execRopen_completesInv {s : State} (h : Inv s) : CompletesInv (execRopen s) :=
  unlessFaulted_completesInv h (completesInv_next (openReader_inv h _))

theorem execRbit_completesInv {s : State} (h : Inv s) : CompletesInv (execRbit s) := by
  refine unlessFaulted_completesInv h ?_
  split
  · exact completesInv_next (raiseReaderState_inv h _)
  · split
    · exact completesInv_next (raise_inv h (by decide) ..)
    · next hn =>
      have hn : s.hasNext = true := by simpa using hn
      exact completesInv_next (readBitCore_inv (h.withResult (zext32 (BitVec.ofBool s.nextBit))) hn _)

theorem execRhasnext_completesInv {s : State} (h : Inv s) : CompletesInv (execRhasnext s) := by
  refine unlessFaulted_completesInv h ?_
  split
  · exact completesInv_next (raiseReaderState_inv h _)
  · exact completesInv_next (h.withResult _)

/-! ## DECODE (R201, R202) -/

/-- A child that is no leaf is an internal node: children lie below their parent, so none is UNUSED (R31). -/
theorem childOf_internal {s : State} (hv : ValidLayout s) {i c : NodeIx} {b : Bool} (hc : s.childOf i b = some c)
    (hk : (s.nodeAt c).kind ≠ .leaf) : (s.nodeAt c).kind = .internal := by
  have hlt := childOf_lt hv.linksFall hc
  have hin := (childOf_inner hv hc).2
  obtain ⟨-, -, -, -, hleaf, hinner, -⟩ := hv
  exact (hinner c (Nat.le_of_not_lt fun hl => hk (hleaf c hl).1) (by omega)).1

/-- decodeStep ends the command or moves the cursor to a lower node; each way the invariant is kept. -/
theorem decodeStep_inv {s : State} (h : Inv s) (hs : s.tstate = .valid) (w : Word) (b : Bool) :
    (∃ u, (decodeStep w b s = .raised u ∨ decodeStep w b s = .emitted u) ∧ Inv u) ∨
      ∃ u, decodeStep w b s = .moved u ∧ Inv u ∧ u.tstate = .valid ∧ u.cursor.val < s.cursor.val := by
  unfold decodeStep
  split
  · exact .inl ⟨_, .inl rfl, raise_inv h (by decide) ..⟩
  · next c hc =>
    by_cases hk : (s.nodeAt c).kind = .leaf
    · rw [if_pos hk]
      exact .inl ⟨_, .inr rfl, (h.withResult _).withCursor (.inl rfl)⟩
    · rw [if_neg hk]
      exact .inr ⟨_, rfl, h.withCursor (.inr ⟨hs, childOf_internal (h.validLayout hs) hc hk⟩), hs,
        childOf_lt (h.validLayout hs).linksFall hc⟩

/-- DECODE's loop ends within its bound: each round lowers the cursor (R14). -/
theorem decodeLoop_completesInv (w : Word) (n : Nat) {s : State} (h : Inv s) (hs : s.tstate = .valid)
    (hn : s.cursor.val < n) : CompletesInv (decodeLoop w n s) := by
  induction n generalizing s with
  | zero => exact absurd hn (Nat.not_lt_zero _)
  | succ n ih =>
    unfold decodeLoop
    split
    · exact completesInv_next (h.withResult _)
    · next hnext =>
      have hi := readBitCore_inv h (by simpa using hnext) w
      have hf := readBitCore_frame w s
      cases hb : readBitCore w s with
      | raised t => rw [hb] at hi; exact completesInv_next hi
      | ok t =>
        rw [hb, Ran.state_ok] at hi hf
        have hts : t.tstate = .valid := by rw [State.sameButReader] at hf; rw [hf]; exact hs
        rcases decodeStep_inv hi hts w s.nextBit with ⟨u, he | he, hu⟩ | ⟨u, he, hu, hus, hlt⟩
        · simp only [he]; exact completesInv_next hu
        · simp only [he]; exact completesInv_next hu
        · simp only [he]
          rw [hf.cursor] at hlt
          exact ih hu hus (by omega)

theorem execDecode_completesInv {s : State} (h : Inv s) : CompletesInv (execDecode s) := by
  refine unlessFaulted_completesInv h ?_
  split
  · exact completesInv_next (raise_inv h (by decide) ..)
  · split
    · exact completesInv_next (raiseReaderState_inv h _)
    · exact completesInv_next (h.withResult _)
  · next hs =>
    split
    · exact completesInv_next (raiseReaderState_inv h _)
    · exact decodeLoop_completesInv _ _ h hs s.cursor.isLt

/-! ## Every command, and every access -/

theorem exec_completesInv {s : State} (h : Inv s) (i : Instr) : CompletesInv (exec i s) := by
  cases i with
  | nop => exact unlessFaulted_completesInv h (completesInv_next h)
  | srst => exact completesInv_next (softReset_inv h)
  | clrfault => exact completesInv_next (clearFault_inv h)
  | freqClr => exact execFreqClr_completesInv h
  | freqInc c => exact execFreqInc_completesInv h c
  | freqSet c => exact execFreqSet_completesInv h c
  | freqGet c => exact execFreqGet_completesInv h c
  | build => exact execBuild_completesInv h
  | deriveTable => exact execDerive_completesInv h
  | wopen => exact execWopen_completesInv h
  | wbit b => exact execWbit_completesInv h b
  | wclose => exact execWclose_completesInv h
  | encodeSym c => exact execEncode_completesInv h c
  | ropen => exact execRopen_completesInv h
  | rbit => exact execRbit_completesInv h
  | rhasnext => exact execRhasnext_completesInv h
  | decodeSym => exact execDecode_completesInv h

theorem cmdWrite_completesInv {s : State} (h : Inv s) (w : Word) : CompletesInv (cmdWrite w s) := by
  unfold cmdWrite
  split
  · exact exec_completesInv h _
  · exact unlessFaulted_completesInv h (completesInv_next (raise_inv h (by decide) ..))

/-- A value above IBUF_SIZE is refused, so ILEN stays within it (R43). -/
theorem ilenWrite_inv {s : State} (h : Inv s) (v : Word) : Inv (ilenWrite v s) := by
  unfold ilenWrite
  split
  · exact raise_inv h (by decide) ..
  · have hle := low21_le v
    obtain ⟨hcfg, hq, hb, hc, hf, hw, ⟨-, hr⟩, ht, ha⟩ := h
    exact ⟨hcfg, hq, hb, hc, hf, hw, ⟨show (v.extractLsb' 0 21).toNat ≤ s.cfg.ibufSize by omega, hr⟩, ht, ha⟩

theorem setIbuf_inv {s : State} (h : Inv s) {k : Nat} (hk : k < s.cfg.ibufSize) (v : Byte) : Inv (s.setIbuf k v) := by
  obtain ⟨hcfg, hq, ⟨hiwf, howf, hibelow, hobelow⟩, hc, hf, hw, hr, ht, ha⟩ := h
  exact ⟨hcfg, hq, ⟨Memory.write_wf k v hiwf, howf, Memory.write_below v hk hibelow, hobelow⟩, hc, hf, hw, hr, ht, ha⟩

/-- Every step from a state of the invariant answers a next state of the invariant. -/
theorem step_completesInv {s : State} (h : Inv s) : CompletesInv (step s) := by
  rcases step_cases (s := s) rfl with ⟨-, he⟩ | ⟨op, rest, -, hop⟩
  · exact he ▸ completesInv_next h
  · have hb := h.withBus rest
    rcases hop with ⟨a, t, -, -, he⟩ | ⟨a, size, -, -, he⟩ | ⟨w, -, he⟩ | ⟨v, -, he⟩ | ⟨v, -, he⟩ | ⟨a, k, v, -, ht, he⟩ |
      ⟨a, size, v, -, -, he⟩ | ⟨-, he⟩
    · exact he ▸ completesInv_next (hb.withReads _)
    · exact he ▸ completesInv_next ((raise_inv hb (by decide) ..).withReads _)
    · exact he ▸ cmdWrite_completesInv hb w
    · exact he ▸ completesInv_next (hb.withArg v)
    · exact he ▸ completesInv_next (ilenWrite_inv hb v)
    · exact he ▸ completesInv_next (setIbuf_inv hb (targetOf_eq_ibuf ht).2 _)
    · exact he ▸ completesInv_next (raise_inv hb (by decide) ..)
    · exact he ▸ completesInv_next (hardReset_inv hb)

/-- Settles O55: a next state of a state of the invariant is the one that `step_completesInv` answers. -/
theorem stepKeepsInvariant : Obligations.StepKeepsInvariant := by
  intro s t h hstep
  obtain ⟨u, hu, hinv⟩ := step_completesInv h
  rw [hstep] at hu
  cases hu
  exact hinv

/-- Settles O58: the walks of DERIVE and DECODE fall from node to lower node, and nothing else could stop a step. -/
theorem everyStepCompletes : Obligations.EveryStepCompletes := by
  intro s h
  obtain ⟨t, ht, -⟩ := step_completesInv h
  exact ⟨t, ht⟩

end Sys2Proof.Machine

/-! # What a step may change (spec/10_state.md R21 to R43)

The state falls into parts; `partsWritten` lists the parts each command may write, and `step_changes` says who can have
changed a part over one step: a command that writes it, a hardware reset, or a host write to a place of its own. The
statements about who may change what are read off from it. -/

namespace Sys2Proof.Machine

/-! ## Command words (R96, R97) -/

theorem word_eq_fields (w : Word) : opField w ++ rsvField w ++ opdField w = w := by
  refine BitVec.eq_of_getLsbD_eq fun j hj => ?_
  simp only [opField, rsvField, opdField, BitVec.getLsbD_append, BitVec.getLsbD_extractLsb']
  split
  · simp [*]
  · split
    · simp only [*, decide_true, Bool.true_and]; congr 1; omega
    · rw [decide_eq_true (show j - 8 - 16 < 8 by omega), Bool.true_and]; congr 1; omega

theorem Opcode.instr_opcode (o : Opcode) (opd : BitVec 8) : (o.instr opd).opcode = o := by cases o <;> rfl

/-- A bit operand that passes format B's check is the bit, zero-extended (R93). -/
theorem bitOperand_eq {opd : BitVec 8} (h : opd.extractLsb' 1 7 = 0) :
    (BitVec.ofBool (opd.getLsbD 0)).setWidth 8 = opd := by
  revert opd; decide

/-- An operand field that passes its format's check is the operand of the command it makes (R91 to R94). -/
theorem Opcode.instr_operand {o : Opcode} {opd : BitVec 8} (h : o.format.check opd = none) :
    (o.instr opd).operand = opd := by
  cases hf : o.format with
  | n =>
    obtain rfl : opd = 0 := by simpa [hf, Format.check] using h
    cases o <;> cases hf <;> rfl
  | s => cases o <;> cases hf <;> rfl
  | b =>
    have hb : opd.extractLsb' 1 7 = 0 := by simpa [hf, Format.check] using h
    cases o <;> cases hf
    exact bitOperand_eq hb

/-- R96: a word that decodes to a command is its encoding. -/
theorem eq_encode_of_decode {w : Word} {i : Instr} (h : decode w = .ok i) : w = encode i := by
  unfold decode at h
  split at h
  · cases h
  · next o ho =>
    have hop : o.code = opField w := by simpa using List.find?_some ho
    split at h
    · cases h
    · next hrsv =>
      split at h
      · cases h
      · next hopd =>
        cases h
        have hrsv : rsvField w = 0 := not_not.1 hrsv
        rw [encode, Opcode.instr_opcode, Opcode.instr_operand hopd, hop, ← hrsv, word_eq_fields]

/-! ## The parts of the state, and who writes them -/

/-- The parts of R20 that the rules name writers for. The fault record is none of them: every access may write it. -/
inductive Part where
  | config | arg | result | freq | tree | table | cursor | writer | obuf | reader | ilen | ibuf
deriving DecidableEq

/-- The two states agree on a part. A buffer's bytes are what its list and the last draw make them (R39, R43). -/
def State.agreeOn (p : Part) (s t : State) : Prop :=
  match p with
  | .config => t.cfg = s.cfg
  | .arg => t.arg = s.arg
  | .result => t.result = s.result
  | .freq => t.freq = s.freq
  | .tree => (t.node, t.tstate, t.root, t.nnodes, t.nsym) = (s.node, s.tstate, s.root, s.nnodes, s.nsym)
  | .table => (t.ct, t.tvalid) = (s.ct, s.tvalid)
  | .cursor => t.cursor = s.cursor
  | .writer => (t.wstate, t.wacc, t.wn, t.olen, t.wlimit) = (s.wstate, s.wacc, s.wn, s.olen, s.wlimit)
  | .obuf => (t.obuf, t.epoch) = (s.obuf, s.epoch)
  | .reader => (t.cur, t.nxt, t.aft, t.aftv, t.rem, t.rstate, t.rlen, t.rbase) =
      (s.cur, s.nxt, s.aft, s.aftv, s.rem, s.rstate, s.rlen, s.rbase)
  | .ilen => t.ilen = s.ilen
  | .ibuf => (t.ibuf, t.epoch) = (s.ibuf, s.epoch)

/-- The parts a command may write besides the fault record. -/
def partsWritten : Instr → List Part
  | .nop | .clrfault => []
  | .srst => [.arg, .result, .freq, .tree, .table, .cursor, .writer, .reader, .ilen]
  | .freqClr | .freqInc _ | .freqSet _ => [.freq]
  | .freqGet _ | .rhasnext => [.result]
  | .build => [.tree, .table, .cursor]
  | .deriveTable => [.table]
  | .wopen => [.writer]
  | .wbit _ | .wclose | .encodeSym _ => [.writer, .obuf]
  | .ropen => [.cursor, .reader]
  | .rbit => [.result, .reader]
  | .decodeSym => [.result, .cursor, .reader]

/-! Who writes each part, read off from `partsWritten`. -/

section
variable {i : Instr}

theorem writes_arg (h : Part.arg ∈ partsWritten i) : i = .srst := by
  cases i <;> simp [partsWritten] at h ⊢

theorem writes_result (h : Part.result ∈ partsWritten i) :
    (∃ c, i = .freqGet c) ∨ i = .rbit ∨ i = .rhasnext ∨ i = .decodeSym ∨ i = .srst := by
  cases i <;> simp [partsWritten] at h ⊢

theorem writes_freq (h : Part.freq ∈ partsWritten i) :
    i = .freqClr ∨ (∃ c, i = .freqInc c) ∨ (∃ c, i = .freqSet c) ∨ i = .srst := by
  cases i <;> simp [partsWritten] at h ⊢

theorem writes_tree (h : Part.tree ∈ partsWritten i) : i = .build ∨ i = .srst := by
  cases i <;> simp [partsWritten] at h ⊢

theorem writes_table (h : Part.table ∈ partsWritten i) : i = .deriveTable ∨ i = .build ∨ i = .srst := by
  cases i <;> simp [partsWritten] at h ⊢

theorem writes_cursor (h : Part.cursor ∈ partsWritten i) :
    i = .build ∨ i = .ropen ∨ i = .decodeSym ∨ i = .srst := by
  cases i <;> simp [partsWritten] at h ⊢

theorem writes_writer (h : Part.writer ∈ partsWritten i) :
    i = .wopen ∨ (∃ b, i = .wbit b) ∨ i = .wclose ∨ (∃ c, i = .encodeSym c) ∨ i = .srst := by
  cases i <;> simp [partsWritten] at h ⊢

theorem writes_obuf (h : Part.obuf ∈ partsWritten i) :
    (∃ b, i = .wbit b) ∨ i = .wclose ∨ ∃ c, i = .encodeSym c := by
  cases i <;> simp [partsWritten] at h ⊢

theorem writes_reader (h : Part.reader ∈ partsWritten i) :
    i = .ropen ∨ i = .rbit ∨ i = .decodeSym ∨ i = .srst := by
  cases i <;> simp [partsWritten] at h ⊢

theorem writes_ilen (h : Part.ilen ∈ partsWritten i) : i = .srst := by
  cases i <;> simp [partsWritten] at h ⊢

theorem not_writes_ibuf (i : Instr) : Part.ibuf ∉ partsWritten i := by
  cases i <;> simp [partsWritten]

theorem not_writes_config (i : Instr) : Part.config ∉ partsWritten i := by
  cases i <;> simp [partsWritten]

end

/-- The two states agree on every part outside a list. -/
def State.sameOutside (s t : State) (ps : List Part) : Prop := ∀ p, p ∉ ps → s.agreeOn p t

theorem State.agreeOn_refl (s : State) (p : Part) : s.agreeOn p s := by cases p <;> rfl

theorem softReset_outside (s : State) : s.sameOutside (softReset s) (partsWritten .srst) := by
  intro p hp
  cases p <;> simp [partsWritten] at hp <;> rfl

/-- Each command leaves every part alone that it is not listed to write. -/
theorem exec_outside {i : Instr} {s t : State} (h : exec i s = .next t) : s.sameOutside t (partsWritten i) := by
  intro p hp
  cases i
  case nop => cases (execNop_eq s).symm.trans h; exact s.agreeOn_refl p
  case srst => cases h; exact softReset_outside s p hp
  case ropen =>
    obtain ⟨he, hresult⟩ := execRopen_frame h
    cases p <;> simp [partsWritten] at hp
    case result => exact hresult
    all_goals rw [he]; rfl
  case rbit =>
    obtain ⟨he, hcursor⟩ := execRbit_frame h
    cases p <;> simp [partsWritten] at hp
    case cursor => exact hcursor
    all_goals rw [he]; rfl
  case' clrfault => cases h
  case' freqClr => rw [execFreqClr_frame h]
  case' freqInc => rw [execFreqInc_frame h]
  case' freqSet => rw [execFreqSet_frame h]
  case' freqGet => rw [execFreqGet_frame h]
  case' build => rw [execBuild_frame h]
  case' deriveTable => rw [execDerive_frame h]
  case' wopen => rw [execWopen_frame h]
  case' wbit => rw [execWbit_frame h]
  case' wclose => rw [execWclose_frame h]
  case' encodeSym => rw [execEncode_frame h]
  case' rhasnext => rw [execRhasnext_frame h]
  case' decodeSym => rw [execDecode_frame h]
  all_goals cases p <;> simp [partsWritten] at hp <;> rfl

/-! ## One step -/

/-- The host writes a part itself: ARG, ILEN or a byte of IBUF (R25, R43, R65). -/
def State.hostWrites (s : State) (p : Part) : Prop :=
  match p with
  | .arg => ∃ v rest, s.bus = .write 0x014 4 v :: rest
  | .ilen => ∃ v rest, s.bus = .write 0x038 4 v :: rest
  | .ibuf => ∃ a v rest, s.bus = .write a 4 v :: rest ∧ 0x400000 ≤ a.toNat ∧ a.toNat < 0x400000 + 4 * s.cfg.ibufSize
  | _ => False

theorem raise_agreeOn (f : FaultCode) (i0 i1 w : Word) (s : State) (p : Part) : s.agreeOn p (raise f i0 i1 w s) := by
  rw [raise_frame f i0 i1 w s]; cases p <;> rfl

/-- R24, R97: a CMD write runs a command, or it changes no part: it only raises ILLEGAL_COMMAND. -/
theorem cmdWrite_cases {w : Word} {s t : State} (h : cmdWrite w s = .next t) :
    (∃ i, w = encode i ∧ exec i s = .next t) ∨ ∀ p, s.agreeOn p t := by
  unfold cmdWrite at h
  split at h
  · next i hi => exact .inl ⟨i, eq_encode_of_decode hi, h⟩
  · refine .inr (unlessFaulted_frame (P := fun t => ∀ p, s.agreeOn p t) h s.agreeOn_refl fun _ hb => ?_)
    cases hb
    exact raise_agreeOn _ _ _ _ s

/-- R43: an ILEN write changes ILEN at most. -/
theorem ilenWrite_outside (v : Word) (s : State) : s.sameOutside (ilenWrite v s) [.ilen] := by
  intro p hp
  unfold ilenWrite
  split
  · exact raise_agreeOn ..
  · cases p <;> simp at hp <;> rfl

theorem agreeOn_bus {p : Part} {t : State} (s : State) (rest : List BusOp) :
    State.agreeOn p { s with bus := rest } t ↔ s.agreeOn p t := by cases p <;> rfl

/-- Every way one step can change a part: a command, a hardware reset, or a host write to the part. -/
theorem step_changes {s t : State} (h : step s = .next t) :
    (∃ i rest, s.bus = BusOp.command (encode i) :: rest ∧ exec i { s with bus := rest } = .next t) ∨
      (∃ rest, s.bus = .hardwareReset :: rest ∧ t = hardReset { s with bus := rest }) ∨
      ∀ p, s.agreeOn p t ∨ s.hostWrites p := by
  rcases step_cases h with ⟨-, he⟩ | ⟨op, rest, hb, hop⟩
  · cases he; exact .inr (.inr fun p => .inl (s.agreeOn_refl p))
  · simp only [← agreeOn_bus s rest]
    rcases hop with ⟨a, x, -, -, he⟩ | ⟨a, size, -, -, he⟩ | ⟨w, rfl, he⟩ | ⟨v, rfl, he⟩ | ⟨v, rfl, he⟩ |
      ⟨a, k, v, rfl, ht, he⟩ | ⟨a, size, v, -, -, he⟩ | ⟨rfl, he⟩
    · cases he
      exact .inr (.inr fun p => .inl (by cases p <;> rfl))
    · cases he
      refine .inr (.inr fun p => .inl ?_)
      rw [raiseBus, raise_frame .badAccess (zext32 a) 0 0 { s with bus := rest }]
      cases p <;> rfl
    · rcases cmdWrite_cases he.symm with ⟨i, rfl, hi⟩ | hkept
      · exact .inl ⟨i, rest, hb, hi⟩
      · exact .inr (.inr fun p => .inl (hkept p))
    · cases he
      refine .inr (.inr fun p => ?_)
      by_cases hp : p = .arg
      · exact .inr (hp ▸ ⟨v, rest, hb⟩)
      · exact .inl (by cases p <;> simp at hp <;> rfl)
    · cases he
      refine .inr (.inr fun p => ?_)
      by_cases hp : p = .ilen
      · exact .inr (hp ▸ ⟨v, rest, hb⟩)
      · exact .inl (ilenWrite_outside v _ p (by simpa using hp))
    · cases he
      obtain ⟨ha, hk⟩ := targetOf_eq_ibuf ht
      refine .inr (.inr fun p => ?_)
      by_cases hp : p = .ibuf
      · exact .inr (hp ▸ ⟨a, v, rest, hb, by omega, by omega⟩)
      · exact .inl (by cases p <;> simp at hp <;> rfl)
    · cases he
      exact .inr (.inr fun p => .inl (raise_agreeOn ..))
    · cases he
      exact .inr (.inl ⟨rest, hb, rfl⟩)

/-- Who can have changed a part over one step. -/
theorem changed_by {s t : State} (h : step s = .next t) {p : Part} (hne : ¬ s.agreeOn p t) {P : Instr → Prop}
    (hP : ∀ i, p ∈ partsWritten i → P i) : s.runsCommand P ∨ s.resetsNext ∨ s.hostWrites p := by
  rcases step_changes h with ⟨i, rest, hb, hi⟩ | ⟨rest, hb, -⟩ | hkept
  · refine .inl ⟨i, rest, hb, hP i ?_⟩
    by_contra hp
    exact hne ((agreeOn_bus s rest).1 (exec_outside hi p hp))
  · exact .inr (.inl ⟨rest, hb⟩)
  · exact .inr (.inr ((hkept p).resolve_left hne))

/-- The same for a part the host cannot write itself. -/
theorem changed_by_command {s t : State} (h : step s = .next t) {p : Part} (hne : ¬ s.agreeOn p t) {P : Instr → Prop}
    (hP : ∀ i, p ∈ partsWritten i → P i) (hhost : ¬ s.hostWrites p) : s.runsCommand P ∨ s.resetsNext :=
  (changed_by h hne hP).imp_right fun hr => hr.resolve_right hhost

/-- R23: the configuration never changes, not even by a reset. -/
theorem step_cfg {s t : State} (h : step s = .next t) : t.cfg = s.cfg := by
  rcases step_changes h with ⟨i, rest, -, hi⟩ | ⟨rest, -, rfl⟩ | hkept
  · exact exec_outside hi .config (not_writes_config i)
  · rfl
  · exact (hkept .config).resolve_right id

/-! ## The statements about writers -/

/-- Settles O13: the writers of FREQ, RESULT and ARG are those of `writes_freq`, `writes_result` and `writes_arg`, the
resets, and for ARG the host. -/
theorem onlyTheirWritersChangeFreqResultAndArg : Obligations.OnlyTheirWritersChangeFreqResultAndArg := by
  intro s t h
  refine ⟨fun hne => ?freq, fun hne => ?result, fun hne => ?arg⟩
  case freq => exact changed_by_command h (p := .freq) hne (fun _ => writes_freq) id
  case result => exact changed_by_command h (p := .result) hne (fun _ => writes_result) id
  case arg => exact or_rotate.2 (changed_by h (p := .arg) hne fun _ => writes_arg)

/-- Settles O14: BUILD and SRST are the commands that write the tree (`writes_tree`). -/
theorem onlyBuildAndResetsChangeTheTree : Obligations.OnlyBuildAndResetsChangeTheTree := by
  intro s t h hne
  refine changed_by_command h (p := .tree) (fun heq => ?_) (fun _ => writes_tree) id
  simp_all [State.agreeOn]

/-- Settles O16: the writer and OBUF by `writes_writer` and `writes_obuf`; a byte of OBUF changes only with the
buffer or the draw. -/
theorem onlyWriterCommandsChangeTheWriter : Obligations.OnlyWriterCommandsChangeTheWriter := by
  refine fun s t h => ⟨fun hne => ?writer, fun ⟨k, hne⟩ => ?obuf⟩
  case writer =>
    refine changed_by_command h (p := .writer) (fun heq => ?_) (fun _ => writes_writer) id
    simp_all [State.agreeOn]
  case obuf =>
    refine changed_by_command h (p := .obuf) (fun heq => ?_) (fun _ => writes_obuf) id
    obtain ⟨hbuf, hepoch⟩ := Prod.mk.inj heq
    exact hne (obufByte_congr hbuf hepoch k)

/-- Settles O17: the window and CURSOR by `writes_reader` and `writes_cursor`, ILEN by SRST and the host; no command
writes IBUF. -/
theorem onlyReaderCommandsChangeTheReader : Obligations.OnlyReaderCommandsChangeTheReader := by
  refine fun s t h => ⟨fun hne => ?reader, fun hne => ?cursor, fun hne => ?ilen, fun ⟨k, hne⟩ => ?ibuf⟩
  case reader =>
    refine changed_by_command h (p := .reader) (fun heq => ?_) (fun _ => writes_reader) id
    simp_all [State.agreeOn]
  case cursor => exact changed_by_command h (p := .cursor) hne (fun _ => writes_cursor) id
  case ilen => exact or_rotate.2 (changed_by h (p := .ilen) hne fun _ => writes_ilen)
  case ibuf =>
    have hbytes : ¬ s.agreeOn .ibuf t := fun heq => by
      obtain ⟨hbuf, hepoch⟩ := Prod.mk.inj heq
      exact hne (ibufByte_congr hbuf hepoch k)
    rcases changed_by h hbytes (P := fun _ => False) not_writes_ibuf with ⟨_, _, -, hno⟩ | hreset | hwrite
    · exact hno.elim
    · exact .inr hreset
    · exact .inl hwrite

/-! ## The fault record -/

/-- R244, R245: with a fault recorded a CMD write of any word but SRST and CLRFAULT changes nothing. -/
theorem cmdWrite_faulted {s t : State} {w : Word} (hf : s.fault ≠ .noFault) (h : cmdWrite w s = .next t) :
    t = s ∨ w = encode .srst ∨ w = encode .clrfault := by
  unfold cmdWrite at h
  split at h
  · next i hi =>
    by_cases hsrst : i = .srst
    · exact .inr (.inl (hsrst ▸ eq_encode_of_decode hi))
    · by_cases hclr : i = .clrfault
      · exact .inr (.inr (hclr ▸ eq_encode_of_decode hi))
      · rw [exec_faulted hf hsrst hclr] at h
        cases h; exact .inl rfl
  · rw [unlessFaulted_drop hf] at h
    cases h; exact .inl rfl

/-- R246: with a fault recorded an ILEN write above IBUF_SIZE changes nothing. -/
theorem ilenWrite_faulted {s : State} (hf : s.fault ≠ .noFault) (v : Word) :
    ilenWrite v s = s ∨ ilenWrite v s = { s with ilen := v.extractLsb' 0 21 } := by
  unfold ilenWrite
  split
  · exact .inl (raise_kept hf ..)
  · exact .inr rfl

/-- Settles O12: with a fault recorded every raise is without effect, and SRST and CLRFAULT alone write the record. -/
theorem firstFaultIsKept : Obligations.FirstFaultIsKept := by
  intro s t hf h
  rcases step_cases h with ⟨-, he⟩ | ⟨op, rest, hb, hop⟩
  · cases he; exact .inl ⟨rfl, rfl, rfl, rfl⟩
  · have hfr : State.fault { s with bus := rest } ≠ .noFault := hf
    rcases hop with ⟨a, x, -, -, he⟩ | ⟨a, size, -, -, he⟩ | ⟨w, rfl, he⟩ | ⟨v, -, he⟩ | ⟨v, -, he⟩ |
      ⟨a, k, v, -, -, he⟩ | ⟨a, size, v, -, -, he⟩ | ⟨rfl, he⟩
    · cases he; exact .inl ⟨rfl, rfl, rfl, rfl⟩
    · cases he; rw [raiseBus, raise_kept hfr]; exact .inl ⟨rfl, rfl, rfl, rfl⟩
    · rcases cmdWrite_faulted hfr he.symm with rfl | rfl | rfl
      · exact .inl ⟨rfl, rfl, rfl, rfl⟩
      · exact .inr (.inl ⟨_, rest, hb, .inl rfl⟩)
      · exact .inr (.inl ⟨_, rest, hb, .inr rfl⟩)
    · cases he; exact .inl ⟨rfl, rfl, rfl, rfl⟩
    · cases he
      rcases ilenWrite_faulted hfr v with he | he <;> rw [he] <;> exact .inl ⟨rfl, rfl, rfl, rfl⟩
    · cases he; exact .inl ⟨rfl, rfl, rfl, rfl⟩
    · cases he; rw [badWrite, raiseBus, raise_kept hfr]; exact .inl ⟨rfl, rfl, rfl, rfl⟩
    · exact .inr (.inr ⟨rest, hb⟩)

end Sys2Proof.Machine

/-! # Registers and windows (spec/10_state.md R21 to R28, R44 to R47; spec/20_memory.md R64 to R69) -/

namespace Sys2Proof.Machine

/-! ## Accesses to registers -/

/-- R64: a read of a register returns its value and changes nothing else. -/
theorem step_readReg {s : State} {a : Addr} {rest : List BusOp} (r : Reg) (h : s.bus = .read a 4 :: rest)
    (ha : a.toNat = r.offset) {v : Word} (hv : r.value s = v) :
    step s = .next { s with bus := rest, reads := s.reads ++ [v] } :=
  hv ▸ step_read h (targetOf_reg s.cfg ha)

/-- R244, R246: a raise outside a command, while an access is taken from the bus. -/
theorem raiseBus_first {s : State} (hf : s.fault = .noFault) (f : FaultCode) (i0 i1 : Word) (rest : List BusOp) :
    raiseBus f i0 i1 { s with bus := rest } =
      { s with bus := rest, fault := f, faultInfo0 := i0, faultInfo1 := i1, faultCmd := 0 } :=
  raise_first (s := { s with bus := rest }) hf f i0 i1 0

theorem raiseBus_kept {s : State} (hf : s.fault ≠ .noFault) (f : FaultCode) (i0 i1 : Word) (rest : List BusOp) :
    raiseBus f i0 i1 { s with bus := rest } = { s with bus := rest } :=
  raise_kept (s := { s with bus := rest }) hf f i0 i1 0

/-- R63: a write to a read-only place is a bad access. -/
theorem step_write_readOnly {s : State} {a : Addr} {v : Word} {rest : List BusOp} (h : s.bus = .write a 4 v :: rest)
    (ha : ¬ writableAddr s.cfg a.toNat) :
    (s.fault = .noFault →
      step s = .next { s with
        bus := rest, fault := .badAccess, faultInfo0 := a.setWidth 32, faultInfo1 := 1, faultCmd := 0 }) ∧
    (s.fault ≠ .noFault → step s = .next { s with bus := rest }) := by
  rw [step_write_bad h fun hw => ha hw.2, badWrite]
  exact ⟨fun hf => by rw [raiseBus_first hf]; rfl, fun hf => by rw [raiseBus_kept hf]⟩

/-- Settles O4: a CMD write is `cmdWrite`, which runs the decoded command. -/
theorem stepRunsDecodedCommand : Obligations.StepRunsDecodedCommand := by
  refine ⟨fun s w rest i hb hi => ?_, fun s => step_idle⟩
  rw [step_command hb, cmdWrite_encode i w _ hi]

/-- Settles O6: the four registers are read as registers and are no writable address; `step_cfg` is the last clause. -/
theorem configurationRegistersAreConstant : Obligations.ConfigurationRegistersAreConstant := by
  refine fun s => ⟨fun rest hb => step_readReg .id hb rfl rfl, fun rest hb => step_readReg .cfgCountBits hb rfl rfl,
    fun rest hb => step_readReg .cfgIbufSize hb rfl rfl, fun rest hb => step_readReg .cfgObufSize hb rfl rfl,
    fun a v rest ha hb => step_write_readOnly hb ?_, fun t => step_cfg⟩
  have hlow : a.toNat < 0x010 := by rcases ha with rfl | rfl | rfl | rfl <;> decide
  omega

/-- Settles O11: the two host writes, with ILEN's bound split. -/
theorem argAndIlenWrites : Obligations.ArgAndIlenWrites := by
  refine fun s v rest => ⟨step_write_arg, fun hb => ?_⟩
  rw [step_write_ilen hb]
  unfold ilenWrite
  refine ⟨fun hle => ?_, fun hlt hf => ?_, fun hlt hf => ?_⟩
  · rw [if_neg (Nat.not_lt.2 hle)]
  · rw [if_pos hlt, raiseBus_first hf]
  · rw [if_pos hlt, raiseBus_kept hf]

/-! ## The reset values (R50) -/

theorem resetWith_ctAt (c : Config) (epoch : Nat) (b : Byte) : (State.resetWith c epoch).ctAt b = CtEntry.empty := by
  simp [State.ctAt, State.resetWith]

theorem resetWith_status (c : Config) (epoch : Nat) : (State.resetWith c epoch).status = 0 := by
  simp [State.status, State.resetWith, State.hasNext, State.rfinal, State.dpartial, State.faulted, TState.code,
    WState.code, RState.code, field, zext32]

/-- Settles O18: a hardware reset is `State.resetWith` of the configuration but for the host's side of the bus. -/
theorem hardwareResetLeavesTheResetValues : Obligations.HardwareResetLeavesTheResetValues := by
  intro s rest hb
  have hfreq := resetWith_freqAt s.cfg (s.epoch + 1)
  have hnode := resetWith_nodeAt s.cfg (s.epoch + 1)
  have hct := resetWith_ctAt s.cfg (s.epoch + 1)
  have hstatus := resetWith_status s.cfg (s.epoch + 1)
  exact ⟨_, step_hardwareReset hb, rfl, rfl, rfl, rfl, rfl, rfl, hfreq, hnode, rfl, rfl, rfl, rfl, rfl, rfl, hct, rfl,
    rfl, rfl, rfl, rfl, rfl, rfl, rfl, rfl, rfl, rfl, rfl, rfl, rfl, rfl, rfl,
    hstatus⟩

/-! ## STATUS (R27) -/

/-- The bits of a register field (R9). -/
theorem getLsbD_field {n : Nat} (v : BitVec n) (lo : Nat) {j : Nat} (hj : j < 32) :
    (field v lo).getLsbD j = (decide (lo ≤ j) && v.getLsbD (j - lo)) := by
  by_cases hlo : lo ≤ j
  · have : ¬ j < lo := by omega
    simp [field, zext32, hj, hlo, this]
  · have : j < lo := by omega
    simp [field, zext32, hlo, this]

theorem status_getLsbD (s : State) {j : Nat} (hj : j < 32) : s.status.getLsbD j =
    (s.tstate.code.getLsbD j || (decide (2 ≤ j) && (BitVec.ofBool s.tvalid).getLsbD (j - 2)) ||
      (decide (4 ≤ j) && s.wstate.code.getLsbD (j - 4)) || (decide (6 ≤ j) && s.rstate.code.getLsbD (j - 6)) ||
      (decide (8 ≤ j) && (BitVec.ofBool s.hasNext).getLsbD (j - 8)) ||
      (decide (9 ≤ j) && (BitVec.ofBool s.rfinal).getLsbD (j - 9)) ||
      (decide (10 ≤ j) && (BitVec.ofBool s.dpartial).getLsbD (j - 10)) ||
      (decide (11 ≤ j) && (BitVec.ofBool s.faulted).getLsbD (j - 11))) := by
  simp only [State.status, BitVec.getLsbD_or, getLsbD_field _ _ hj, Nat.zero_le, decide_true, Bool.true_and,
      Nat.sub_zero]

/-- R27: STATUS bit by bit: TSTATE, TVALID, WSTATE, RSTATE, HASNEXT, RFINAL, DPARTIAL, FAULTED, and zeros. -/
theorem status_layout (s : State) :
    s.status.extractLsb' 0 2 = s.tstate.code ∧ s.status.getLsbD 2 = s.tvalid ∧ s.status.getLsbD 3 = false ∧
    s.status.extractLsb' 4 2 = s.wstate.code ∧ s.status.extractLsb' 6 2 = s.rstate.code ∧
    s.status.getLsbD 8 = s.hasNext ∧ s.status.getLsbD 9 = s.rfinal ∧ s.status.getLsbD 10 = s.dpartial ∧
    s.status.getLsbD 11 = s.faulted ∧ s.status.extractLsb' 12 20 = 0 := by
  refine ⟨BitVec.eq_of_getLsbD_eq fun i hi => ?tstate, ?_, ?_, BitVec.eq_of_getLsbD_eq fun i hi => ?wstate,
    BitVec.eq_of_getLsbD_eq fun i hi => ?rstate, ?_, ?_, ?_, ?_, BitVec.eq_of_getLsbD_eq fun i hi => ?zeros⟩
  case tstate | wstate | rstate | zeros =>
    rw [BitVec.getLsbD_extractLsb', status_getLsbD s (by omega)]
    interval_cases i <;> simp
  all_goals
    rw [status_getLsbD s (by decide)]
    simp

/-! ## WACC and RWIN (R44) -/

theorem field_toNat {n : Nat} (v : BitVec n) {lo : Nat} (h : n + lo ≤ 32) : (field v lo).toNat = v.toNat <<< lo := by
  have hv := v.isLt
  have hn : 2 ^ n ≤ 2 ^ 32 := Nat.pow_le_pow_right (by decide) (by omega)
  have hlt : v.toNat <<< lo < 2 ^ 32 := by
    calc v.toNat <<< lo = v.toNat * 2 ^ lo := Nat.shiftLeft_eq ..
      _ < 2 ^ n * 2 ^ lo := Nat.mul_lt_mul_of_pos_right hv (Nat.two_pow_pos lo)
      _ = 2 ^ (n + lo) := (Nat.pow_add ..).symm
      _ ≤ 2 ^ 32 := Nat.pow_le_pow_right (by decide) h
  have hmod : v.toNat % 2 ^ 32 = v.toNat := Nat.mod_eq_of_lt (hv.trans_le hn)
  rw [field, zext32, BitVec.toNat_shiftLeft, BitVec.toNat_setWidth, hmod, Nat.mod_eq_of_lt hlt]

theorem waccWord_eq_append (s : State) : s.waccWord = (0#21 ++ s.wn) ++ s.wacc := by
  apply BitVec.eq_of_toNat_eq
  have happend : (((0#21 ++ s.wn) ++ s.wacc : BitVec 32)).toNat = s.wn.toNat <<< 8 ||| s.wacc.toNat := by
    refine (BitVec.toNat_append (0#21 ++ s.wn) s.wacc).trans ?_
    rw [BitVec.toNat_append]; simp
  rw [happend, State.waccWord, BitVec.toNat_or, field_toNat _ (by decide), field_toNat _ (by decide), Nat.or_comm]
  rfl

theorem rwinWord_eq_append (s : State) :
    s.rwinWord = ((((0#3 ++ BitVec.ofBool s.aftv) ++ s.rem) ++ s.aft) ++ s.nxt) ++ s.cur := by
  apply BitVec.eq_of_toNat_eq
  refine Eq.trans ?_ (BitVec.toNat_append ((((0#3 ++ BitVec.ofBool s.aftv) ++ s.rem) ++ s.aft) ++ s.nxt) s.cur).symm
  rw [BitVec.toNat_append, BitVec.toNat_append, BitVec.toNat_append, BitVec.toNat_append, State.rwinWord]
  simp only [BitVec.toNat_or, field_toNat _ (show 8 + 0 ≤ 32 by decide), field_toNat _ (show 8 + 8 ≤ 32 by decide),
    field_toNat _ (show 8 + 16 ≤ 32 by decide), field_toNat _ (show 4 + 24 ≤ 32 by decide),
    field_toNat _ (show 1 + 28 ≤ 32 by decide), BitVec.toNat_ofNat, Nat.shiftLeft_or_distrib, ← Nat.shiftLeft_add,
    Nat.zero_mod, Nat.zero_shiftLeft, Nat.zero_or, Nat.shiftLeft_zero, Nat.reduceAdd]
  simp only [Nat.or_assoc, Nat.or_comm]

/-- Settles O7: the bits by `status_layout`, each register by a read at its offset. -/
theorem statusAndStateRegisters : Obligations.StatusAndStateRegisters := by
  refine ⟨fun s => ?status, fun s rest a hb v hv => ?registers⟩
  case status =>
    obtain ⟨ht, htv, h3, hw, hr, hnext, hfinal, hpart, hfault, hzero⟩ := status_layout s
    refine ⟨ht.trans ?_, htv, h3, hw.trans ?_, hr.trans ?_, ?_, ?_, ?_, ?_, hzero,
      fun rest hb => step_readReg .status hb rfl rfl⟩
    · cases s.tstate <;> rfl
    · cases s.wstate <;> rfl
    · cases s.rstate <;> rfl
    · rw [hnext]; exact hasNext_iff s
    · rw [hfinal]; simp [State.rfinal]
    · rw [hpart]; simp [State.dpartial]
    · rw [hfault]; simp [State.faulted]
  case registers =>
    rcases hv with ⟨rfl, rfl⟩ | ⟨rfl, rfl⟩ | ⟨rfl, rfl⟩ | ⟨rfl, rfl⟩ | ⟨rfl, rfl⟩ | ⟨rfl, rfl⟩ |
      ⟨rfl, rfl⟩ | ⟨rfl, rfl⟩ | ⟨rfl, rfl⟩ | ⟨rfl, rfl⟩ | ⟨rfl, rfl⟩ | ⟨rfl, rfl⟩ |
      ⟨rfl, rfl⟩ | ⟨rfl, rfl⟩ | ⟨rfl, rfl⟩ | ⟨rfl, rfl⟩ | ⟨rfl, rfl⟩ | ⟨rfl, rfl⟩
    · exact step_readReg .cmd hb rfl rfl
    · exact step_readReg .arg hb rfl rfl
    · exact step_readReg .result hb rfl rfl
    · refine step_readReg .fault hb rfl ?_
      show zext32 s.fault.code = _
      cases s.fault <;> rfl
    · exact step_readReg .faultInfo0 hb rfl rfl
    · exact step_readReg .faultInfo1 hb rfl rfl
    · exact step_readReg .faultCmd hb rfl rfl
    · exact step_readReg .olen hb rfl rfl
    · exact step_readReg .wlimit hb rfl rfl
    · exact step_readReg .ilen hb rfl rfl
    · exact step_readReg .rbase hb rfl rfl
    · exact step_readReg .rlen hb rfl rfl
    · exact step_readReg .root hb rfl rfl
    · exact step_readReg .nnodes hb rfl rfl
    · exact step_readReg .nsym hb rfl rfl
    · exact step_readReg .cursor hb rfl rfl
    · exact step_readReg .wacc hb rfl (waccWord_eq_append s)
    · exact step_readReg .rwin hb rfl (rwinWord_eq_append s)

/-! ## The node and code-table windows (R46, R47) -/

/-- Word 0 of a node record: KIND in bits 1:0, SYM in bits 15:8 (R46). -/
theorem nodeWord_zero (r : NodeRec) :
    (r.word 0).extractLsb' 0 2 = r.kind.code ∧ (r.word 0).extractLsb' 2 6 = 0 ∧ (r.word 0).extractLsb' 8 8 = r.sym ∧
      (r.word 0).extractLsb' 16 16 = 0 := by
  have hbit {j : Nat} (hj : j < 32) :
      (r.word 0).getLsbD j = (r.kind.code.getLsbD j || (decide (8 ≤ j) && r.sym.getLsbD (j - 8))) := by
    simp only [NodeRec.word, BitVec.getLsbD_or, getLsbD_field _ _ hj, Nat.zero_le, decide_true, Bool.true_and,
      Nat.sub_zero]
  refine ⟨?_, ?_, ?_, ?_⟩
  all_goals
    refine BitVec.eq_of_getLsbD_eq fun i hi => ?_
    rw [BitVec.getLsbD_extractLsb', hbit (by omega)]
    interval_cases i <;> simp

theorem linkWord_some_toNat (i : NodeIx) : (linkWord (some i)).toNat = 2 ^ 31 + i.val := by
  have hi : i.val < 511 := i.isLt
  rw [linkWord, BitVec.toNat_or, ixWord, BitVec.toNat_ofNat, BitVec.toNat_ofNat, Nat.mod_eq_of_lt (by omega),
    Nat.mod_eq_of_lt (by omega)]
  exact (Nat.two_pow_add_eq_or_of_lt (i := 31) (by omega) 1).symm

/-- A child link's word: bit 31 says whether there is one, bits 8:0 hold its index (R46). -/
theorem linkWord_layout (l : Option NodeIx) :
    (linkWord l).getLsbD 31 = l.isSome ∧ (linkWord l).extractLsb' 9 22 = 0 ∧
      ((linkWord l).extractLsb' 0 9).toNat = (l.map Fin.val).getD 0 := by
  cases l with
  | none => exact ⟨rfl, rfl, rfl⟩
  | some i =>
    have hi : i.val < 511 := i.isLt
    have hw := linkWord_some_toNat i
    refine ⟨?_, BitVec.eq_of_toNat_eq ?_, ?_⟩
    · rw [← BitVec.testBit_toNat, hw, Nat.testBit_eq_decide_div_mod_eq]
      exact decide_eq_true (by omega)
    · rw [BitVec.extractLsb'_toNat, hw, Nat.shiftRight_eq_div_pow]
      show _ = 0
      omega
    · rw [BitVec.extractLsb'_toNat, hw, Nat.shiftRight_zero]
      show _ = i.val
      omega

/-- R30, R67: an UNUSED record reads as zero words. -/
theorem nodeWord_unused (w : Nat) : NodeRec.unused.word w = 0 := by
  unfold NodeRec.word
  split <;> rfl

/-- Word 0 of a code-table entry: VALID in bit 31, LEN in bits 7:0 (R47). -/
theorem ctWord_zero (e : CtEntry) :
    (e.word 0).getLsbD 31 = e.valid ∧ (e.word 0).extractLsb' 8 23 = 0 ∧ (e.word 0).extractLsb' 0 8 = e.len := by
  have hbit {j : Nat} (hj : j < 32) :
      (e.word 0).getLsbD j = ((decide (31 ≤ j) && (BitVec.ofBool e.valid).getLsbD (j - 31)) || e.len.getLsbD j) := by
    simp only [CtEntry.word, if_true, BitVec.getLsbD_or, getLsbD_field _ _ hj, Nat.zero_le, decide_true, Bool.true_and,
      Nat.sub_zero]
  refine ⟨?_, ?_, ?_⟩
  · rw [hbit (by decide)]; simp
  all_goals
    refine BitVec.eq_of_getLsbD_eq fun i hi => ?_
    rw [BitVec.getLsbD_extractLsb', hbit (by omega)]
    interval_cases i <;> simp

/-- Words 1 to 8 of a code-table entry hold CODE, 32 bits each (R47). -/
theorem ctWord_code (e : CtEntry) {w j : Nat} (h1 : 1 ≤ w) (h8 : w ≤ 8) (hj : j < 32) :
    (e.word w).getLsbD j = e.code.getLsbD (32 * (w - 1) + j) := by
  rw [CtEntry.word, if_neg (by omega), if_pos h8, BitVec.getLsbD_extractLsb', decide_eq_true hj, Bool.true_and]

theorem ctWord_high (e : CtEntry) {w : Nat} (h : 9 ≤ w) : e.word w = 0 := by
  rw [CtEntry.word, if_neg (by omega), if_neg (by omega)]

/-- Settles O10: each window word is `NodeRec.word` or `CtEntry.word`, taken apart field by field. -/
theorem nodeAndCodeTableWindows : Obligations.NodeAndCodeTableWindows := by
  refine ⟨fun s i w rest hw hb => ⟨(s.nodeAt i).word w, step_read hb (targetOf_node s.cfg i hw), ?_⟩,
    fun s c w rest hw hb => ⟨(s.ctAt c).word w, step_read hb (targetOf_ct s.cfg c hw), ?_⟩⟩
  · generalize s.nodeAt i = r
    refine ⟨?_, ?_, ?_, ?_, ?_, fun h5 => ?_, ?_⟩
    · rintro rfl
      obtain ⟨hkind, hrest⟩ := nodeWord_zero r
      exact ⟨hkind.trans (by cases r.kind <;> rfl), hrest⟩
    · rintro rfl; exact linkWord_layout r.left
    · rintro rfl; exact linkWord_layout r.right
    · rintro rfl; rfl
    · rintro rfl; rfl
    · interval_cases w <;> rfl
    · rintro rfl; exact nodeWord_unused w
  · generalize s.ctAt c = e
    exact ⟨fun h0 => h0 ▸ ctWord_zero e, fun h1 h8 j hj => ctWord_code e h1 h8 hj, ctWord_high e⟩

end Sys2Proof.Machine

/-! # The tree and its code table over every step (spec/10_state.md R31, R35, R36)

BUILD makes a tree, whatever state it starts from; DERIVE makes the tree's table; a reset and a BUILD leave the table
empty; no other access writes either (`partsWritten`). -/

namespace Sys2Proof.Machine

/-! ## The records BUILD leaves (R131 to R135) -/

/-- A round of mergeAll writes no record below its own (R134). -/
theorem Merging.merge_nodeAt {k n : Nat} {s : State} (h : Merging k n s) (h2 : 1 < s.q.length) {i : NodeIx}
    (hi : i.val < n) : (merge n s).nodeAt i = s.nodeAt i := by
  obtain ⟨a, b, -, -, -, -, -, he⟩ := merge_eq (s := s) h2 h.nodup n
  obtain ⟨h1, h256, -⟩ := h.bounds
  have hlen := h.length
  have hn : (nodeIx n).val = n := nodeIx_val (show n < 511 by omega)
  rw [he]
  exact setNode_nodeAt_other s _ fun e => by rw [e, hn] at hi; omega

theorem mergeLoop_leaf {s : State} (h2 : 2 ≤ s.presentSymbols.length) {i : NodeIx}
    (hi : i.val < s.presentSymbols.length) :
    (mergeLoop s.presentSymbols.length s.presentSymbols.length s.leavesQueued).nodeAt i = s.leavesQueued.nodeAt i :=
  (mergeLoop_induct (P := fun _ t => t.nodeAt i = s.leavesQueued.nodeAt i)
    (fun n t ht h1 hp => (ht.merge_nodeAt h1 (hi.trans_le ht.bounds.2.2)).trans hp) _ _ s.leavesQueued
    (by simp [State.leavesQueued]) (merging_start (by omega)) rfl).2

/-- BUILD's first records are the leaves of the counted symbols, in order (R132). -/
theorem buildTree_leaf {s : State} {i : NodeIx} (hi : i.val < s.presentSymbols.length) :
    (buildTree s).nodeAt i = NodeRec.leafOf s.presentSymbols[i.val] (s.freqAt s.presentSymbols[i.val]) := by
  have hqueued : s.leavesQueued.nodeAt i =
      NodeRec.leafOf s.presentSymbols[i.val] (s.freqAt s.presentSymbols[i.val]) := by
    rw [leavesQueued_nodeAt, List.getElem?_eq_getElem hi]
  rw [← hqueued]
  rcases buildTree_eq s with ⟨hnil, -⟩ | ⟨h1, he⟩ | ⟨h2, he⟩
  · rw [hnil] at hi; exact absurd hi (Nat.not_lt_zero _)
  · rw [he]
    exact setNode_nodeAt_other (writeLeaves s.presentSymbols 0 s.clearTree) _ fun e => by
      have hone : i.val = 1 := congrArg Fin.val e
      omega
  · rw [he]; exact mergeLoop_leaf h2 hi

/-- BUILD of a non-empty table leaves NSYM leaves in a valid tree (R133, R135). -/
theorem buildTree_valid {s : State} (h : s.presentSymbols ≠ []) :
    (buildTree s).tstate = .valid ∧ (buildTree s).nsym.toNat = s.presentSymbols.length := by
  have hle := presentSymbols_length s
  rcases buildTree_eq s with ⟨hnil, -⟩ | ⟨h1, he⟩ | ⟨h2, he⟩
  · exact absurd hnil h
  · rw [he, h1]; exact ⟨rfl, rfl⟩
  · rw [he]
    refine ⟨rfl, ?_⟩
    rw [finishTree_nsym, BitVec.toNat_ofNat]
    omega

theorem buildTree_presentSymbols_ne_nil {s : State} (hv : (buildTree s).tstate = .valid) : s.presentSymbols ≠ [] := by
  intro hnil
  rcases buildTree_eq s with ⟨-, he⟩ | ⟨h1, -⟩ | ⟨h2, -⟩
  · rw [he] at hv; cases hv
  · rw [hnil] at h1; cases h1
  · rw [hnil] at h2; cases h2

/-! ## BUILD makes a tree (R31) -/

/-- R31 (c) of the wrapper of a single leaf: node 0 is the child of node 1. -/
theorem buildDegenerate_links {s : State} (hleft : (s.nodeAt (nodeIx 0)).left = none)
    (hright : (s.nodeAt (nodeIx 0)).right = none) : (buildDegenerate s).links = [nodeIx 0] := by
  have h0 : (buildDegenerate s).nodeAt (nodeIx 0) = s.nodeAt (nodeIx 0) :=
    setNode_nodeAt_other s _ (by decide)
  have h1 : (buildDegenerate s).nodeAt (nodeIx 1) =
      NodeRec.internalOf (s.nodeAt (nodeIx 0)).freq (some (nodeIx 0)) none := setNode_nodeAt_same s ..
  show (buildDegenerate s).linksUpTo 2 = _
  rw [linksUpTo_succ, linksUpTo_succ, h0, h1, hleft, hright]
  rfl

/-- R31 (c): in the tree BUILD makes every node but ROOT is the child of exactly one node, ROOT of none. -/
theorem buildTree_links_count {s : State} (hv : (buildTree s).tstate = .valid) {i : NodeIx}
    (hi : i.val < (buildTree s).nnodes.toNat) :
    (buildTree s).links.count i = if i = (buildTree s).root then 0 else 1 := by
  rcases buildTree_eq s with ⟨-, he⟩ | ⟨h1, he⟩ | ⟨h2, he⟩
  · rw [he] at hv; cases hv
  · have hm := merging_start (s := s) (by omega)
    obtain ⟨-, hleft, hright⟩ := hm.leaf (nodeIx 0) (by rw [h1]; exact Nat.one_pos)
    have hlinks := buildDegenerate_links (s := writeLeaves s.presentSymbols 0 s.clearTree) hleft hright
    rw [he] at hi ⊢
    rw [hlinks]
    have hroot : (buildDegenerate (writeLeaves s.presentSymbols 0 s.clearTree)).root = nodeIx 1 := rfl
    have hlt : i.val < 2 := hi
    have hcases : i = nodeIx 0 ∨ i = nodeIx 1 := by
      rcases Nat.lt_or_ge i.val 1 with h | h
      · exact .inl (Fin.ext (show i.val = 0 by omega))
      · exact .inr (Fin.ext (show i.val = 1 by omega))
    rw [hroot]
    rcases hcases with rfl | rfl <;> decide
  · obtain ⟨hm, hq⟩ := mergeLoop_end h2
    have hle := presentSymbols_length s
    have hnodes : (BitVec.ofNat 10 (2 * s.presentSymbols.length - 1)).toNat = 2 * s.presentSymbols.length - 1 := by
      rw [BitVec.toNat_ofNat]; omega
    rw [he] at hi ⊢
    rw [finishTree_nnodes, hnodes] at hi
    rw [finishTree_root, hq]
    have hcount := hm.once i hi
    rw [hq] at hcount
    simp only [List.mem_singleton] at hcount
    unfold State.links
    rw [finishTree_nnodes, hnodes]
    exact hcount

/-- Every BUILD makes a tree or the sentinel. -/
theorem buildTree_treeShape (s : State) : TreeShape (buildTree s) := by
  intro hv
  have hsym := (buildTree_valid (buildTree_presentSymbols_ne_nil hv)).2
  refine ⟨fun i hi => buildTree_links_count hv hi, fun i j hi hj he => ?_⟩
  rw [hsym] at hi hj
  rw [buildTree_leaf hi, buildTree_leaf hj] at he
  exact Fin.ext ((presentSymbols_nodup s).getElem_inj_iff.1 he)

/-- The leaves of the tree BUILD makes hold the counted symbols (R31 (d), R132). -/
theorem buildTree_leaf_symbols {s : State} (hv : (buildTree s).tstate = .valid) (c : Byte) :
    s.freqAt c ≠ 0 ↔ ∃ i : NodeIx, ((buildTree s).nodeAt i).kind = .leaf ∧ ((buildTree s).nodeAt i).sym = c := by
  have hle := presentSymbols_length s
  rw [← mem_presentSymbols]
  constructor
  · intro hc
    obtain ⟨n, hn, rfl⟩ := List.getElem_of_mem hc
    have hval : (nodeIx n).val = n := nodeIx_val (show n < 511 by omega)
    have hleaf := buildTree_leaf (i := nodeIx n) (hval.trans_lt hn)
    refine ⟨nodeIx n, by rw [hleaf]; rfl, ?_⟩
    rw [hleaf]
    simp only [hval]
    rfl
  · rintro ⟨i, hk, rfl⟩
    have hi := leaf_lt ((buildTree_treeOk s).2.2 hv).1 hk
    rw [(buildTree_valid (buildTree_presentSymbols_ne_nil hv)).2] at hi
    rw [buildTree_leaf hi]
    exact List.getElem_mem hi

/-- BUILD with no fault recorded, and while faulted (R131, R245). -/
theorem exec_build {s : State} (hf : s.fault = .noFault) : exec .build s = .next (buildTree s) :=
  unlessFaulted_run (s := s) hf fun s => .next (buildTree s)

theorem exec_build_eq_next {s t : State} (h : exec .build s = .next t) : t = s ∨ t = buildTree s := by
  by_cases hf : s.fault = .noFault
  · rw [exec_build hf] at h; cases h; exact .inr rfl
  · rw [exec_faulted hf (by decide) (by decide)] at h; cases h; exact .inl rfl

/-- Settles O30: layout, shape and leaf symbols of what BUILD makes, each by its own lemma. -/
theorem buildMakesATree : Obligations.BuildMakesATree := by
  rintro s hf ⟨c, hc⟩
  have hne : s.presentSymbols ≠ [] := fun hnil => hc ((presentSymbols_eq_nil s).1 hnil c)
  have hv := (buildTree_valid hne).1
  exact ⟨buildTree s, exec_build hf, hv, ((buildTree_treeOk s).2.2 hv).1, buildTree_treeShape s,
    buildTree_leaf_symbols hv⟩

/-! ## What the predicates rest on -/

/-- The tree's shape is a matter of NODE and the tree registers alone. -/
theorem treeShape_congr {s t : State} (h : s.agreeOn .tree t) (hs : TreeShape s) : TreeShape t := by
  simp only [State.agreeOn, Prod.mk.injEq] at h
  obtain ⟨hnode, hts, hroot, hnn, hsym⟩ := h
  have hlinks : t.links = s.links := by simp only [State.links, hnn, nodeAt_congr hnode]
  intro hv
  rw [hlinks, hroot, hnn, hsym]
  simp only [nodeAt_congr hnode]
  exact hs (hts ▸ hv)

theorem walk_congr {s t : State} (h : t.node = s.node) (n : NodeIx) (p : List Bool) : t.walk n p = s.walk n p := by
  induction p generalizing n with
  | nil => rfl
  | cons b p ih =>
    have hchild : t.childOf n b = s.childOf n b := by simp only [State.childOf, nodeAt_congr h]
    simp only [State.walk, hchild, ih]

theorem leadsTo_congr {s t : State} (hnode : t.node = s.node) (hroot : t.root = s.root) (p : List Bool) (c : Byte) :
    t.leadsTo p c = s.leadsTo p c := by
  simp only [State.leadsTo, hroot, walk_congr hnode, nodeAt_congr hnode]

/-- A path that leads from ROOT to a leaf of a symbol. -/
theorem leadsTo_of_walk {s : State} {p : List Bool} {i : NodeIx} (hw : s.walk s.root p = some i)
    (hk : (s.nodeAt i).kind = .leaf) : s.leadsTo p (s.nodeAt i).sym = true := by
  simp [State.leadsTo, hw, hk]

theorem tableOk_congr {s t : State} (htree : s.agreeOn .tree t) (htable : s.agreeOn .table t) (hs : TableOk s) :
    TableOk t := by
  simp only [State.agreeOn, Prod.mk.injEq] at htree htable
  obtain ⟨hnode, hts, hroot, -, -⟩ := htree
  obtain ⟨hct, htv⟩ := htable
  simpa only [TableOk, ctAt_congr hct, htv, hts, leadsTo_congr hnode hroot, nodeAt_congr hnode] using hs

/-- An empty table is right where TVALID is 0, and where there is no leaf (R36, R140, R143). -/
theorem tableOk_of_empty {s : State} (hct : ∀ c, s.ctAt c = CtEntry.empty)
    (hleaf : s.tvalid = true → ∀ i, (s.nodeAt i).kind ≠ .leaf) : TableOk s := by
  refine ⟨fun c _ => hct c, fun c hvalid => ?_, fun htv i hk => absurd hk (hleaf htv i)⟩
  rw [hct c] at hvalid
  cases hvalid

/-! ## Resets (R50) -/

theorem resetWith_treeShape (c : Config) (epoch : Nat) : TreeShape (State.resetWith c epoch) := nofun

theorem resetWith_tableOk (c : Config) (epoch : Nat) : TableOk (State.resetWith c epoch) :=
  tableOk_of_empty (resetWith_ctAt c epoch) nofun

theorem softReset_treeShape (s : State) : TreeShape (softReset s) := nofun

theorem hardReset_treeShape (s : State) : TreeShape (hardReset s) := nofun

theorem softReset_tableOk (s : State) : TableOk (softReset s) := tableOk_of_empty (resetWith_ctAt s.cfg s.epoch) nofun

theorem hardReset_tableOk (s : State) : TableOk (hardReset s) :=
  tableOk_of_empty (resetWith_ctAt s.cfg (s.epoch + 1)) nofun

/-- Settles O54: with every record UNUSED and every entry empty there is nothing for the predicates to ask for. -/
theorem resetHasInvariant : Obligations.ResetHasInvariant :=
  ⟨resetWith_inv rfl 0, fun c epoch hc =>
    ⟨resetWith_inv hc epoch, resetWith_treeShape c epoch, resetWith_tableOk c epoch⟩⟩

/-! ## The tree over every step -/

/-- Settles O56: BUILD makes a tree, a reset leaves none, and nothing else writes the tree. -/
theorem stepKeepsTreeShape : Obligations.StepKeepsTreeShape := by
  intro s t _ hs h
  rcases step_changes h with ⟨i, rest, -, hi⟩ | ⟨rest, -, rfl⟩ | hkept
  · have hrest : TreeShape { s with bus := rest } := hs
    by_cases hp : Part.tree ∈ partsWritten i
    · obtain rfl | rfl := writes_tree hp
      · rcases exec_build_eq_next hi with rfl | rfl
        · exact hrest
        · exact buildTree_treeShape _
      · cases hi; exact softReset_treeShape _
    · exact treeShape_congr (exec_outside hi .tree hp) hrest
  · exact hardReset_treeShape _
  · exact treeShape_congr ((hkept .tree).resolve_right id) hs

/-! ## DERIVE makes the tree's table (R140 to R142) -/

/-- The entry of a path of 1 to 255 bits: valid, with its length, its number, and its bits (R35, R142). -/
theorem ofPath_layout {p : List Bool} (h1 : p ≠ []) (h : p.length ≤ 255) :
    1 ≤ (CtEntry.ofPath p).len.toNat ∧ (CtEntry.ofPath p).code.toNat < 2 ^ (CtEntry.ofPath p).len.toNat ∧
      (CtEntry.ofPath p).bits = p := by
  rw [ofPath_len h, ofPath_code h, ofPath_bits h]
  exact ⟨List.length_pos_iff.2 h1, pathValue_lt p, rfl⟩

/-- What the traversal of a valid tree fills an empty table with is the tree's table. -/
theorem preorder_tableOk {s : State} {ct : Vector CtEntry alpha} (hs : s.tstate = .valid) (hv : ValidLayout s)
    (ht : TreeShape s) (h : preorder s nodeCount s.root [] s.clearCt.ct = some ct) :
    TableOk { s with ct := ct, tvalid := true } := by
  obtain ⟨ct', hct', hentry⟩ := preorder_spec hv.linksFall nodeCount s.root [] s.clearCt.ct s.root.isLt
  obtain rfl : ct' = ct := Option.some.inj (hct'.symm.trans h)
  generalize hu : ({ s with ct := ct', tvalid := true } : State) = u
  have hnode : u.node = s.node := by rw [← hu]
  have hroot : u.root = s.root := by rw [← hu]
  have hentry (c : Byte) : (u.ctAt c = CtEntry.empty ∧
      ∀ q i, s.walk s.root q = some i → (s.nodeAt i).kind = .leaf → (s.nodeAt i).sym ≠ c) ∨
      ∃ q i, s.walk s.root q = some i ∧ (s.nodeAt i).kind = .leaf ∧ (s.nodeAt i).sym = c ∧
        u.ctAt c = CtEntry.ofPath q := by
    rw [← hu, ← clearCt_ctAt s c]
    exact hentry c
  refine ⟨fun c hc => ?empty, fun c hc => ?valid, fun _ i hk => ?complete⟩
  case empty =>
    rcases hentry c with ⟨he, -⟩ | ⟨q, i, -, -, -, he⟩
    · exact he
    · rw [he] at hc; cases hc
  case valid =>
    rcases hentry c with ⟨he, -⟩ | ⟨q, i, hw, hk, rfl, he⟩
    · rw [he] at hc; cases hc
    · have hne : q ≠ [] := by
        rintro rfl
        cases hw
        rw [root_inner hv] at hk
        cases hk
      obtain ⟨hlen, hcode, hbits⟩ := ofPath_layout hne (walk_root_length hv hw).1
      rw [he, hbits, leadsTo_congr hnode hroot]
      exact ⟨by rw [← hu], by rw [← hu]; exact hs, hlen, hcode, leadsTo_of_walk hw hk⟩
  case complete =>
    rw [nodeAt_congr hnode] at hk ⊢
    have hlt := leaf_lt hv hk
    have hle : i.val ≤ s.root.val := by
      obtain ⟨-, -, hnn, hr, -⟩ := hv
      split at hnn <;> omega
    obtain ⟨q, hq⟩ := walk_to hv ht hs (s.root.val - i.val) i (by omega)
    rcases hentry (s.nodeAt i).sym with ⟨-, hno⟩ | ⟨p, j, -, -, -, he⟩
    · exact absurd rfl (hno q i hq hk)
    · rw [he]; rfl

theorem execDerive_tableOk {s t : State} (hi : Inv s) (ht : TreeShape s) (hs : TableOk s) (h : execDerive s = .next t) :
    TableOk t := by
  refine unlessFaulted_frame (P := TableOk) h hs fun _ hb => ?_
  split at hb
  · cases hb
    exact tableOk_congr (raise_agreeOn ..) (raise_agreeOn ..) hs
  · next hempty =>
    cases hb
    obtain ⟨-, -, -, -, hroot, hunused⟩ := hi.treeOk.2.1 hempty
    refine tableOk_of_empty (clearCt_ctAt s) fun _ i hk => ?_
    have hk : (s.nodeAt i).kind = .leaf := hk
    by_cases h0 : i = 0
    · rw [h0, hroot] at hk; cases hk
    · rw [hunused i h0] at hk; cases hk
  · next hvalid =>
    split at hb
    · cases hb
    · next ct hct =>
      cases hb
      exact preorder_tableOk hvalid (hi.validLayout hvalid) ht hct

/-- BUILD leaves an empty table (R131). -/
theorem buildTree_tableOk (s : State) : TableOk (buildTree s) := by
  rw [buildTree_frame s]
  exact tableOk_of_empty (clearTree_ctAt s) nofun

/-- Settles O57: DERIVE makes the table of the tree, BUILD and a reset empty it, and nothing else writes the tree or the
table. -/
theorem stepKeepsTableOfTheTree : Obligations.StepKeepsTableOfTheTree := by
  intro s t hinv htree hs h
  rcases step_changes h with ⟨i, rest, -, hi⟩ | ⟨rest, -, rfl⟩ | hkept
  · have hrest : TableOk { s with bus := rest } := tableOk_congr (s := s) rfl rfl hs
    by_cases hp : Part.table ∈ partsWritten i
    · obtain rfl | rfl | rfl := writes_table hp
      · exact execDerive_tableOk (hinv.withBus rest) htree hrest hi
      · rcases exec_build_eq_next hi with rfl | rfl
        · exact hrest
        · exact buildTree_tableOk _
      · cases hi; exact softReset_tableOk _
    · have hptree : Part.tree ∉ partsWritten i := fun hpt => by
        rcases writes_tree hpt with rfl | rfl <;> exact hp (by decide)
      exact tableOk_congr (exec_outside hi .tree hptree) (exec_outside hi .table hp) hrest
  · exact hardReset_tableOk _
  · exact tableOk_congr ((hkept .tree).resolve_right id) ((hkept .table).resolve_right id) hs

end Sys2Proof.Machine

/-! # Refused accesses and the buffer windows (spec/20_memory.md R61 to R66) -/

namespace Sys2Proof.Machine

/-! ## Refused accesses (R62, R63) -/

/-- An access has no target exactly where a read is refused (R61, R62). -/
theorem accessTarget_eq_none (c : Config) (a : Addr) (size : Nat) :
    accessTarget c a size = none ↔ ¬ (size = 4 ∧ readableAddr c a.toNat) := by
  rw [← targetOf_isSome, ← Option.isSome_iff_exists]
  by_cases h4 : size = 4 <;> simp [accessTarget, h4]

/-- R63: a refused read returns 0; the fault registers record it unless they hold an earlier fault. -/
theorem step_read_refused {s : State} {a : Addr} {size : Nat} {rest : List BusOp} (h : s.bus = .read a size :: rest)
    (ha : ¬ (size = 4 ∧ readableAddr s.cfg a.toNat)) :
    (s.fault = .noFault →
      step s = .next { s with
        bus := rest, reads := s.reads ++ [0], fault := .badAccess, faultInfo0 := a.setWidth 32, faultInfo1 := 0,
        faultCmd := 0 }) ∧
    (s.fault ≠ .noFault → step s = .next { s with bus := rest, reads := s.reads ++ [0] }) := by
  rw [step_read_bad h ((accessTarget_eq_none ..).2 ha)]
  exact ⟨fun hf => by rw [raiseBus_first hf]; rfl, fun hf => by rw [raiseBus_kept hf]; rfl⟩

/-- R63: a refused write of any width (`step_write_readOnly` is the case of 4 bytes). -/
theorem step_write_refused {s : State} {a : Addr} {size : Nat} {v : Word} {rest : List BusOp}
    (h : s.bus = .write a size v :: rest) (ha : ¬ (size = 4 ∧ writableAddr s.cfg a.toNat)) :
    (s.fault = .noFault →
      step s = .next { s with
        bus := rest, fault := .badAccess, faultInfo0 := a.setWidth 32, faultInfo1 := 1, faultCmd := 0 }) ∧
    (s.fault ≠ .noFault → step s = .next { s with bus := rest }) := by
  rw [step_write_bad h ha, badWrite]
  exact ⟨fun hf => by rw [raiseBus_first hf]; rfl, fun hf => by rw [raiseBus_kept hf]⟩

/-- Settles O8: refused reads, refused writes, and reads of an address that names something. -/
theorem badAccessesAreRefused : Obligations.BadAccessesAreRefused := by
  refine fun s a size rest => ⟨step_read_refused, fun v => step_write_refused, fun hb hgood => ?_⟩
  obtain ⟨rfl, hread⟩ := hgood
  obtain ⟨t, ht⟩ := (targetOf_isSome s.cfg a).2 hread
  exact ⟨t.value s, step_read hb ht⟩

/-! ## The buffer windows (R65, R66) -/

/-- The addresses of the OBUF window are host addresses above the IBUF window (R61). -/
theorem obufAddr_not_writable {c : Config} (hc : c.wf = true) {k : Nat} (hk : k < c.obufSize) :
    ¬ writableAddr c (BitVec.ofNat 24 (obufAddr k)).toNat := by
  obtain ⟨-, ⟨-, hibuf⟩, -, hobuf⟩ := wf_sizes hc
  rw [obufAddr, addr_toNat (by omega)]
  omega

/-- R65: the write of one IBUF byte and its frame. -/
theorem step_write_ibufByte {s : State} {a : Addr} {k : Nat} {v : Word} {rest : List BusOp}
    (h : s.bus = .write a 4 v :: rest) (ht : targetOf s.cfg a = some (.ibuf k)) :
    ∃ t, step s = .next t ∧ t = { s with bus := rest, ibuf := t.ibuf } ∧ t.ibufByte k = v.extractLsb' 0 8 ∧
      ∀ j, j ≠ k → t.ibufByte j = s.ibufByte j :=
  ⟨_, step_write_ibuf h ht, rfl, setIbuf_ibufByte_same .., fun _ hj => setIbuf_ibufByte_other _ _ hj⟩

/-- Settles O9: each window's addresses by `targetOf_ibuf` and `targetOf_obuf`; a write to OBUF is a refused access. -/
theorem bufferWindowsHoldOneByteAWord : Obligations.BufferWindowsHoldOneByteAWord := by
  intro s k rest hc
  refine ⟨fun hk hb => step_read hb (targetOf_ibuf hc hk), fun v hk hb => step_write_ibufByte hb (targetOf_ibuf hc hk),
    fun hk hb => step_read hb (targetOf_obuf hc hk), fun v hk hb => ?_⟩
  have hlt : 0x800000 + 4 * k < 2 ^ 24 := by
    obtain ⟨-, -, -, hobuf⟩ := wf_sizes hc
    omega
  rw [← BitVec.setWidth_ofNat_of_le_of_lt (by decide) hlt]
  exact step_write_readOnly hb (obufAddr_not_writable hc hk)

end Sys2Proof.Machine

/-! # The command encoding and its decoder (spec/30_encoding.md R90 to R97, R102) -/

namespace Sys2Proof.Machine

/-! ## The fields of a command's word (R90, R95) -/

@[simp] theorem opField_encode (i : Instr) : opField (encode i) = i.opcode.code :=
  (Laws.EncodingShape.symbol_fields _ _).1

@[simp] theorem rsvField_encode (i : Instr) : rsvField (encode i) = 0 := (Laws.EncodingShape.symbol_fields _ _).2.1

@[simp] theorem opdField_encode (i : Instr) : opdField (encode i) = i.operand :=
  (Laws.EncodingShape.symbol_fields _ _).2.2

/-! ## The rows of R95 -/

/-- No two rows of R95 share an OP. -/
@[simp] theorem Opcode.ofCode_code (o : Opcode) : Opcode.ofCode o.code = some o := by cases o <;> rfl

theorem Opcode.code_of_ofCode {op : BitVec 8} {o : Opcode} (h : Opcode.ofCode op = some o) : o.code = op := by
  simpa using List.find?_some h

theorem Opcode.ofCode_eq_none {op : BitVec 8} : Opcode.ofCode op = none ↔ op ∉ Opcode.all.map Opcode.code := by
  simp [Opcode.ofCode, List.find?_eq_none]

/-- The operand of WBIT is the bit again (R93, R94). -/
theorem bitOperand_getLsbD (b : Bool) : ((BitVec.ofBool b).setWidth 8).getLsbD 0 = b := by cases b <;> rfl

/-- R94: a command is the one its row makes of its operand field. -/
@[simp] theorem Instr.opcode_instr_operand (i : Instr) : i.opcode.instr i.operand = i := by
  cases i with
  | wbit b => exact congrArg Instr.wbit (bitOperand_getLsbD b)
  | _ => rfl

/-- R91 to R93: a command's operand field passes the check of its format. -/
@[simp] theorem Instr.check_operand (i : Instr) : i.opcode.format.check i.operand = none := by
  cases i with
  | wbit b => cases b <;> rfl
  | _ => rfl

/-! ## The decoder, check by check (R96) -/

theorem decode_unassigned {w : Word} (h : Opcode.ofCode (opField w) = none) : decode w = .error .unassignedOpcode := by
  simp only [decode, h]

theorem decode_reserved {w : Word} {o : Opcode} (h : Opcode.ofCode (opField w) = some o) (hrsv : rsvField w ≠ 0) :
    decode w = .error .reservedNotZero := by
  simp only [decode, h, if_pos hrsv]

theorem decode_operand {w : Word} {o : Opcode} {r : Reject} (h : Opcode.ofCode (opField w) = some o)
    (hrsv : rsvField w = 0) (hopd : o.format.check (opdField w) = some r) : decode w = .error r := by
  simp only [decode, h, if_neg (not_not.2 hrsv), hopd]

theorem decode_accepted {w : Word} {o : Opcode} (h : Opcode.ofCode (opField w) = some o) (hrsv : rsvField w = 0)
    (hopd : o.format.check (opdField w) = none) : decode w = .ok (o.instr (opdField w)) := by
  simp only [decode, h, if_neg (not_not.2 hrsv), hopd]

/-! ## The round trip -/

/-- R96: every command, with every operand, comes back from its word. -/
@[simp] theorem decode_encode (i : Instr) : decode (encode i) = .ok i := by
  rw [decode_accepted (o := i.opcode) (by simp) (by simp) (by simp), opdField_encode, Instr.opcode_instr_operand]

theorem encode_injective {i j : Instr} (h : encode i = encode j) : i = j := by
  have hdec : decode (encode i) = decode (encode j) := congrArg decode h
  simpa using hdec

/-- Settles O1: `decode_encode` is one direction, `eq_encode_of_decode` the other. -/
theorem decodeAcceptsExactlyEncodedWords : Obligations.DecodeAcceptsExactlyEncodedWords :=
  fun _ i => ⟨eq_encode_of_decode, fun h => h ▸ decode_encode i⟩

/-- Settles O2: encoding gives R102's words, and by O1 decoding says no more than that. -/
theorem writtenOutWordsDecode : Obligations.WrittenOutWordsDecode := by
  unfold Obligations.WrittenOutWordsDecode
  simp only [decodeAcceptsExactlyEncodedWords _ _]
  decide

/-! ## Illegal words (R97) -/

/-- The bits that format B keeps at 0, in the operand field and in the word (R93). -/
theorem opdField_highBits (w : Word) : (opdField w).extractLsb' 1 7 = w.extractLsb' 1 7 := by
  refine BitVec.eq_of_getLsbD_eq fun j hj => ?_
  simp only [opdField, BitVec.getLsbD_extractLsb', Nat.zero_add]
  rw [decide_eq_true (show 1 + j < 8 by omega), Bool.true_and]

/-- R91 to R93: which operand fields a row's format refuses, with the formats read off R95's OP column. -/
theorem Opcode.check_ne_none (o : Opcode) (opd : BitVec 8) :
    o.format.check opd ≠ none ↔
      (o.code ∉ [0x11#8, 0x12#8, 0x13#8, 0x33#8, 0x31#8] ∧ opd ≠ 0) ∨ (o.code = 0x31#8 ∧ opd.extractLsb' 1 7 ≠ 0) := by
  cases o <;> simp [Opcode.format, Opcode.code, Format.check]

/-- R96, R97: the decoder rejects exactly the illegal words. -/
theorem decode_error_iff (w : Word) : (∃ r, decode w = .error r) ↔ illegalWord w := by
  change _ ↔ opField w ∉ Opcode.all.map Opcode.code ∨ rsvField w ≠ 0 ∨
    (opField w ∉ [0x11#8, 0x12#8, 0x13#8, 0x33#8, 0x31#8] ∧ opdField w ≠ 0) ∨
    (opField w = 0x31#8 ∧ w.extractLsb' 1 7 ≠ 0)
  rw [← Opcode.ofCode_eq_none, ← opdField_highBits]
  cases ho : Opcode.ofCode (opField w) with
  | none => simp [decode_unassigned ho]
  | some o =>
    rw [← Opcode.code_of_ofCode ho, ← Opcode.check_ne_none]
    by_cases hrsv : rsvField w = 0
    · cases hopd : o.format.check (opdField w) with
      | none => simp [decode_accepted ho hrsv hopd, hrsv]
      | some r => simp [decode_operand ho hrsv hopd]
    · exact iff_of_true ⟨_, decode_reserved ho hrsv⟩ (.inr (.inl hrsv))

theorem decode_ok_of_not_illegal {w : Word} (h : ¬ illegalWord w) : ∃ i, decode w = .ok i := by
  cases hd : decode w with
  | ok i => exact ⟨i, rfl⟩
  | error r => exact absurd ((decode_error_iff w).1 ⟨r, hd⟩) h

/-- R97: with no fault recorded, a CMD write of an illegal word records ILLEGAL_COMMAND and the word. -/
theorem cmdWrite_illegal {s : State} {w : Word} (hf : s.fault = .noFault) (h : illegalWord w) :
    cmdWrite w s =
      .next { s with fault := .illegalCommand, faultInfo0 := 0, faultInfo1 := 0, faultCmd := w } := by
  obtain ⟨r, hr⟩ := (decode_error_iff w).2 h
  simp only [cmdWrite, hr]
  rw [unlessFaulted_run hf, raise_first hf]

/-- Settles O3: an illegal word by `cmdWrite_illegal`; any other is one command's word, which the step runs. -/
theorem illegalWordsRaiseIllegalCommand : Obligations.IllegalWordsRaiseIllegalCommand := by
  intro s w rest hb hf
  refine ⟨fun hill => ?_, fun hlegal => ?_⟩
  · rw [step_command hb]
    exact cmdWrite_illegal (s := { s with bus := rest }) hf hill
  · obtain ⟨i, hi⟩ := decode_ok_of_not_illegal hlegal
    have hw : w = encode i := eq_encode_of_decode hi
    exact ⟨i, hw, fun j hj => encode_injective (hj.symm.trans hw), stepRunsDecodedCommand.1 s w rest i hb hi⟩

end Sys2Proof.Machine

/-! # The frequency table (spec/41_frequency.md R111 to R114) -/

namespace Sys2Proof.Machine

/-! ## The words of the commands (R90, R95) -/

/-- R90: RSV is 0, so a command's word is the word of its OP alone, or'ed with its OPD. -/
theorem encode_eq_opWord_or_operand {i : Instr} {opWord : Word} (hop : i.opcode.code ++ 0#24 = opWord) :
    encode i = opWord ||| i.operand.setWidth 32 := by
  rw [← hop]
  refine BitVec.eq_of_getLsbD_eq fun j hj => ?_
  simp only [encode, BitVec.getLsbD_or, BitVec.getLsbD_append, BitVec.getLsbD_setWidth]
  by_cases h8 : j < 8
  · simp [h8, hj, show j < 24 by omega]
  · have hopd : i.operand.getLsbD j = false := BitVec.getLsbD_of_ge _ _ (by omega)
    by_cases h24 : j < 24
    · simp [h8, h24, hopd, show j - 8 < 16 by omega]
    · simp [h8, h24, hopd, show ¬ j - 8 < 16 by omega, show j - 8 - 16 = j - 24 by omega]

theorem encode_freqInc (c : Byte) : encode (.freqInc c) = 0x11000000#32 ||| c.setWidth 32 :=
  encode_eq_opWord_or_operand (i := .freqInc c) (show Opcode.freqInc.code ++ 0#24 = _ by decide)

theorem encode_freqSet (c : Byte) : encode (.freqSet c) = 0x12000000#32 ||| c.setWidth 32 :=
  encode_eq_opWord_or_operand (i := .freqSet c) (show Opcode.freqSet.code ++ 0#24 = _ by decide)

theorem encode_freqGet (c : Byte) : encode (.freqGet c) = 0x13000000#32 ||| c.setWidth 32 :=
  encode_eq_opWord_or_operand (i := .freqGet c) (show Opcode.freqGet.code ++ 0#24 = _ by decide)

/-! ## Counts (R7, R113) -/

/-- A value no larger than the largest count is its own low COUNT_BITS bits. -/
theorem truncCount_of_le {cfg : Config} {v : Word} (h : v.toNat ≤ countMax cfg) : truncCount cfg v = v := by
  have hlt : v.toNat < 2 ^ cfg.countBits := Nat.lt_of_le_pred (Nat.two_pow_pos _) h
  rw [truncCount, Nat.mod_eq_of_lt hlt, BitVec.ofNat_toNat, BitVec.setWidth_eq]

section
variable {s : State} {c : Byte}

/-- A count below the largest one does not wrap when it goes up. -/
theorem freqAt_succ_toNat (hi : Inv s) (h : (s.freqAt c).toNat ≠ countMax s.cfg) :
    (s.freqAt c + 1).toNat = (s.freqAt c).toNat + 1 := by
  have hlt : (s.freqAt c).toNat < countMax s.cfg := (hi.countsOk c).lt_of_ne h
  have hmax : countMax s.cfg < 2 ^ 32 := countMax_lt hi.cfg_wf
  exact BitVec.toNat_add_of_lt (y := 1#32) (by change _ + 1 < _; omega)

/-! ## What each command answers with no fault recorded -/

/-- R111: the table is emptied. -/
theorem exec_freqClr (hf : s.fault = .noFault) :
    exec .freqClr s = .next { s with freq := Vector.replicate alpha 0 } := by
  simp only [exec, execFreqClr, unlessFaulted_run hf]

/-- R112: a count below the largest goes up. -/
theorem exec_freqInc_count (hf : s.fault = .noFault) (h : (s.freqAt c).toNat ≠ countMax s.cfg) :
    exec (.freqInc c) s = .next (s.setFreq c (s.freqAt c + 1)) := by
  simp only [exec, execFreqInc, unlessFaulted_run hf, if_neg h]

/-- R112: the largest count stays, and the command raises. -/
theorem exec_freqInc_overflow (hf : s.fault = .noFault) (h : (s.freqAt c).toNat = countMax s.cfg) :
    exec (.freqInc c) s = .next { s with
      fault := .countOverflow, faultInfo0 := c.setWidth 32, faultInfo1 := s.freqAt c,
      faultCmd := 0x11000000#32 ||| c.setWidth 32 } := by
  simp only [exec, execFreqInc, unlessFaulted_run hf, if_pos h, raise_first hf, encode_freqInc, zext32]

/-- R113: a legal ARG becomes the count. -/
theorem exec_freqSet_load (hf : s.fault = .noFault) (h : s.arg.toNat ≤ countMax s.cfg) :
    exec (.freqSet c) s = .next (s.setFreq c s.arg) := by
  simp only [exec, execFreqSet, State.countOperand, unlessFaulted_run hf, if_neg h.not_gt, truncCount_of_le h]

/-- R113: a larger ARG is refused. -/
theorem exec_freqSet_refuse (hf : s.fault = .noFault) (h : countMax s.cfg < s.arg.toNat) :
    exec (.freqSet c) s = .next { s with
      fault := .badArgument, faultInfo0 := s.arg, faultInfo1 := BitVec.ofNat 32 (countMax s.cfg),
      faultCmd := 0x12000000#32 ||| c.setWidth 32 } := by
  simp only [exec, execFreqSet, State.countOperand, unlessFaulted_run hf, if_pos h, raise_first hf, encode_freqSet]

/-- R114: the count goes to RESULT. -/
theorem exec_freqGet (hf : s.fault = .noFault) : exec (.freqGet c) s = .next { s with result := s.freqAt c } := by
  simp only [exec, execFreqGet, unlessFaulted_run hf]

end

/-! ## The statements about FREQ -/

/-- Settles O21: FREQ.CLR answers a table of zeros. -/
theorem freqClrEmptiesTheTable : Obligations.FreqClrEmptiesTheTable :=
  ⟨rfl, fun _ hf => ⟨_, exec_freqClr hf, fun _ => by simp [State.freqAt], rfl⟩⟩

/-- Settles O22: below the largest count the sum does not wrap; at it FREQ.INC raises. -/
theorem freqIncCountsOrOverflows : Obligations.FreqIncCountsOrOverflows := by
  intro s sym hf hi
  refine ⟨encode_freqInc sym, fun hne => ?_, exec_freqInc_overflow hf⟩
  refine ⟨_, exec_freqInc_count hf hne, ?_, fun c hc => setFreq_freqAt_other s _ hc, rfl⟩
  rw [setFreq_freqAt_same]
  exact freqAt_succ_toNat hi hne

/-- Settles O23: ARG is loaded or refused; the largest count, once loaded, is one that FREQ.INC refuses. -/
theorem freqSetLoadsArgOrRefuses : Obligations.FreqSetLoadsArgOrRefuses := by
  intro s sym hf
  refine ⟨encode_freqSet sym, fun hle => ?_, exec_freqSet_refuse hf, fun hmax t ht => ?_⟩
  · exact ⟨_, exec_freqSet_load hf hle, setFreq_freqAt_same .., fun c hc => setFreq_freqAt_other s _ hc, rfl⟩
  · rw [exec_freqSet_load hf hmax.le] at ht
    cases ht
    have hcount : ((s.setFreq sym s.arg).freqAt sym).toNat = countMax s.cfg := by rwa [setFreq_freqAt_same]
    exact ⟨_, exec_freqInc_overflow (s := s.setFreq sym s.arg) hf hcount, rfl⟩

/-- Settles O24: FREQ.GET writes RESULT alone. -/
theorem freqGetReadsTheCount : Obligations.FreqGetReadsTheCount :=
  fun _ sym => ⟨encode_freqGet sym, exec_freqGet⟩

end Sys2Proof.Machine

/-! # BUILD (spec/42_tree.md R131 to R139, R144) -/

namespace Sys2Proof.Machine

/-! ## The sentinel and the degenerate tree (R135, R136) -/

/-- The one counted symbol of a table. -/
theorem presentSymbols_singleton {s : State} {z : Byte} (hz : s.freqAt z ≠ 0) (hother : ∀ c, c ≠ z → s.freqAt c = 0) :
    s.presentSymbols = [z] := by
  refine List.perm_singleton.1 ((List.perm_ext_iff_of_nodup (presentSymbols_nodup s) (List.nodup_singleton z)).2
    fun c => ?_)
  rw [mem_presentSymbols, List.mem_singleton]
  exact ⟨fun hc => by_contra fun hne => hc (hother c hne), fun e => e ▸ hz⟩

theorem buildTree_ctAt (s : State) (c : Byte) : (buildTree s).ctAt c = CtEntry.empty := by
  rw [buildTree_frame]; exact clearTree_ctAt s c

/-- Settles O25: the arena is cleared before node 0 is written. -/
theorem buildOfEmptyTableMakesTheSentinel : Obligations.BuildOfEmptyTableMakesTheSentinel := by
  intro s hf hzero
  have he : buildTree s = buildSentinel s.clearTree := by
    rcases buildTree_eq s with ⟨-, he⟩ | ⟨h1, -⟩ | ⟨h2, -⟩
    · exact he
    · rw [(presentSymbols_eq_nil s).2 hzero] at h1; cases h1
    · rw [(presentSymbols_eq_nil s).2 hzero] at h2; cases h2
  refine ⟨buildSentinel s.clearTree, he ▸ exec_build hf, setNode_nodeAt_same s.clearTree .., fun i hi => ?_,
    clearTree_ctAt s, rfl⟩
  exact (setNode_nodeAt_other s.clearTree _ hi).trans (clearTree_nodeAt s i)

/-- Settles O26: node 0 is the leaf of the one counted symbol, node 1 its wrapper. -/
theorem buildOfOneSymbolMakesTheDegenerateTree : Obligations.BuildOfOneSymbolMakesTheDegenerateTree := by
  intro s z hf hz hother
  have hsyms := presentSymbols_singleton hz hother
  have he : buildTree s = buildDegenerate (writeLeaves s.presentSymbols 0 s.clearTree) := by
    rcases buildTree_eq s with ⟨h0, -⟩ | ⟨-, he⟩ | ⟨h2, -⟩
    · rw [hsyms] at h0; cases h0
    · exact he
    · rw [hsyms] at h2; simp at h2
  rw [hsyms] at he
  generalize hl : writeLeaves [z] 0 s.clearTree = l at he
  have hleaf : l.nodeAt 0 = NodeRec.leafOf z (s.freqAt z) := by
    rw [← hl]; exact setNode_nodeAt_same s.clearTree ..
  refine ⟨buildDegenerate l, he ▸ exec_build hf, ?leaf, ?wrapper, fun i hi => ?unused, ?table, ?frame⟩
  case leaf => exact (setNode_nodeAt_other l _ (by decide)).trans hleaf
  case wrapper =>
    refine (setNode_nodeAt_same l ..).trans ?_
    rw [show l.nodeAt (nodeIx 0) = _ from hleaf]
    rfl
  case unused =>
    have h0 : i ≠ nodeIx 0 := by rintro rfl; exact absurd hi (by decide)
    have h1 : i ≠ nodeIx 1 := by rintro rfl; exact absurd hi (by decide)
    refine (setNode_nodeAt_other l _ h1).trans ?_
    rw [← hl]
    exact (setNode_nodeAt_other s.clearTree _ h0).trans (clearTree_nodeAt s i)
  case table => rw [← hl]; exact clearTree_ctAt s
  case frame => rw [← hl]; rfl

/-! ## Leaves in symbol order (R132) -/

/-- The counted symbols, as numbers in ascending order. -/
theorem presentSymbols_eq_map (s : State) : s.presentSymbols =
    ((List.range 256).filter fun n => s.freqAt (BitVec.ofNat 8 n) ≠ 0).map (BitVec.ofNat 8) := by
  rw [State.presentSymbols, allSymbols, List.filter_map]
  rfl

/-- Settles O28: BUILD's first NSYM records are the leaves of the counted symbols (`buildTree_leaf`). -/
theorem buildWritesLeavesInSymbolOrder : Obligations.BuildWritesLeavesInSymbolOrder := by
  rintro s hf ⟨c, hc⟩
  have hne : s.presentSymbols ≠ [] := fun hnil => hc ((presentSymbols_eq_nil s).1 hnil c)
  refine ⟨buildTree s, exec_build hf, ?_, fun i n hn => ?_⟩
  · rw [(buildTree_valid hne).2, presentSymbols_eq_map, List.length_map]
  · have hsym : s.presentSymbols[i.val]? = some (BitVec.ofNat 8 n) := by
      rw [presentSymbols_eq_map, List.getElem?_map, hn]; rfl
    obtain ⟨hi, hget⟩ := List.getElem?_eq_some_iff.1 hsym
    rw [buildTree_leaf hi, hget]
    rfl

/-! ## One merge (R134) -/

/-- Settles O29: `merge_eq` names the two minima; NODE and Q after it are read off. -/
theorem mergeJoinsTheTwoSmallestKeys : Obligations.MergeJoinsTheTwoSmallestKeys := by
  intro s next hnodup hlen hnext
  obtain ⟨a, b, ha, hb, hab, hamin, hbmin, he⟩ := merge_eq hlen hnodup next.val
  rw [nodeIx_self] at he
  refine ⟨a, b, ha, hb, hab, hamin, hbmin, ?_, fun i hi => ?_, fun i => ?_, ?_, ?_⟩
  · rw [he]; exact setNode_nodeAt_same s ..
  · rw [he]; exact setNode_nodeAt_other s _ hi
  · rw [he]
    simp only [List.mem_append, List.mem_filter, List.mem_singleton, decide_eq_true_eq]
    tauto
  · rw [he]
    refine List.Nodup.append ((hnodup.filter _).filter _) (List.nodup_singleton _) ?_
    rw [List.disjoint_singleton]
    exact fun hm => hnext (List.mem_of_mem_filter (List.mem_of_mem_filter hm))
  · exact merge_frame ..

/-! ## What BUILD leaves of the rest (R137, R144) -/

theorem buildTree_tstate_eq_empty_iff (s : State) : (buildTree s).tstate = .empty ↔ ∀ c, s.freqAt c = 0 := by
  rw [← presentSymbols_eq_nil]
  constructor
  · exact fun he => by_contra fun hne => by rw [(buildTree_valid hne).1] at he; cases he
  · intro hnil
    rw [buildTree, hnil]; rfl

theorem buildTree_tstate_eq_valid_iff (s : State) : (buildTree s).tstate = .valid ↔ ∃ c, s.freqAt c ≠ 0 := by
  have hex : (∃ c, s.freqAt c ≠ 0) ↔ s.presentSymbols ≠ [] := by
    rw [Ne, presentSymbols_eq_nil, not_forall]
  rw [hex]
  exact ⟨buildTree_presentSymbols_ne_nil, fun hne => (buildTree_valid hne).1⟩

/-- BUILD, the resets and DERIVE alone write the code table, and BUILD and the resets leave it empty (R144). -/
theorem step_table {s t : State} (h : step s = .next t) :
    s.agreeOn .table t ∨ s.runsCommand (fun i => i = .deriveTable) ∨
      ((s.runsCommand (fun i => i = .build ∨ i = .srst) ∨ s.resetsNext) ∧
        (∀ c, t.ctAt c = CtEntry.empty) ∧ t.tvalid = false) := by
  rcases step_changes h with ⟨i, rest, hb, hi⟩ | ⟨rest, hb, rfl⟩ | hkept
  · by_cases hp : Part.table ∈ partsWritten i
    · obtain rfl | rfl | rfl := writes_table hp
      · exact .inr (.inl ⟨_, rest, hb, rfl⟩)
      · rcases exec_build_eq_next hi with rfl | rfl
        · exact .inl rfl
        · refine .inr (.inr ⟨.inl ⟨_, rest, hb, .inl rfl⟩, buildTree_ctAt _, ?_⟩)
          rw [buildTree_frame]
      · cases hi
        exact .inr (.inr ⟨.inl ⟨_, rest, hb, .inr rfl⟩, resetWith_ctAt s.cfg s.epoch, rfl⟩)
    · exact .inl ((agreeOn_bus s rest).1 (exec_outside hi .table hp))
  · exact .inr (.inr ⟨.inr ⟨rest, hb⟩, resetWith_ctAt s.cfg (s.epoch + 1), rfl⟩)
  · exact .inl ((hkept .table).resolve_right id)

/-- Settles O15: the three ways of `step_table`, the first of which changes neither CT nor TVALID. -/
theorem onlyDeriveBuildAndResetsChangeTheCodeTable : Obligations.OnlyDeriveBuildAndResetsChangeTheCodeTable := by
  intro s t h hne
  refine (step_table h).resolve_left fun hsame => ?_
  obtain ⟨hct, htv⟩ := Prod.mk.inj hsame
  exact hne.elim (· hct) (· htv)

/-- R169: without a table ENCODE raises NO_TABLE. -/
theorem exec_encode_noTable {s : State} (hf : s.fault = .noFault) (htv : s.tvalid = false) (c : Byte) :
    exec (.encodeSym c) s = .next { s with
      fault := .noTable, faultInfo0 := 0, faultInfo1 := 0, faultCmd := encode (.encodeSym c) } := by
  simp only [exec, execEncode, unlessFaulted_run hf, if_pos htv, raise_first hf]

/-- Settles O27: BUILD's frame, `step_table` for TVALID, and ENCODE's first check. -/
theorem buildReplacesOnlyTreeAndTable : Obligations.BuildReplacesOnlyTreeAndTable := by
  refine ⟨fun s hf hq => ?build, fun t u htv h hno => ?tvalid, fun t sym hf htv => exec_encode_noTable hf htv sym⟩
  case build =>
    refine ⟨buildTree s, exec_build hf, ?_, buildTree_ctAt s, buildTree_tstate_eq_empty_iff s,
      buildTree_tstate_eq_valid_iff s⟩
    have hq' := buildTree_q hq
    have he := buildTree_frame s
    generalize buildTree s = t at he hq' ⊢
    rw [hq', ← hq] at he
    rw [he]
  case tvalid =>
    rcases step_table h with hsame | hderive | ⟨-, -, hclear⟩
    · exact (Prod.mk.inj hsame).2.trans htv
    · exact absurd hderive hno
    · exact hclear

/-! ## BUILD is a function of FREQ (R139) -/

/-- Two states with the same arena and the same Q. -/
def State.sameArena (s t : State) : Prop := t.node = s.node ∧ t.q = s.q

theorem merge_sameArena {s t : State} (h : s.sameArena t) (next : Nat) : (merge next s).sameArena (merge next t) := by
  obtain ⟨hnode, hq⟩ := h
  have hmin (a : NodeIx) : (t.dequeue a).minOf (t.dequeue a).q = (s.dequeue a).minOf (s.dequeue a).q := by
    rw [show (t.dequeue a).q = (s.dequeue a).q by simp only [dequeue_q, hq]]
    exact minOf_congr (s := s.dequeue a) (t := t.dequeue a) hnode _
  unfold merge
  rw [hq, minOf_congr hnode]
  split
  · exact ⟨hnode, hq⟩
  · next a _ =>
    rw [hmin a]
    split
    · exact ⟨hnode, hq⟩
    · simp [State.sameArena, hnode, hq, nodeAt_congr hnode]

theorem mergeLoop_sameArena (fuel next : Nat) {s t : State} (h : s.sameArena t) :
    (mergeLoop fuel next s).sameArena (mergeLoop fuel next t) := by
  induction fuel generalizing next s t with
  | zero => exact h
  | succ fuel ih =>
    unfold mergeLoop
    rw [h.2]
    split
    · exact ih (next + 1) (merge_sameArena h next)
    · exact h

theorem writeLeaves_node_congr (cs : List Byte) (i : Nat) {s t : State} (hfreq : t.freq = s.freq)
    (hnode : t.node = s.node) : (writeLeaves cs i t).node = (writeLeaves cs i s).node := by
  induction cs generalizing i s t with
  | nil => exact hnode
  | cons c cs ih => exact ih (i + 1) hfreq (by simp [hnode, freqAt_congr hfreq])

theorem buildTree_congr {s t : State} (hfreq : t.freq = s.freq) :
    (buildTree t).node = (buildTree s).node ∧ (buildTree t).root = (buildTree s).root ∧
      (buildTree t).nnodes = (buildTree s).nnodes ∧ (buildTree t).nsym = (buildTree s).nsym := by
  have hsyms : t.presentSymbols = s.presentSymbols := by simp only [State.presentSymbols, freqAt_congr hfreq]
  have hleaves := writeLeaves_node_congr s.presentSymbols 0 (s := s.clearTree) (t := t.clearTree) hfreq rfl
  unfold buildTree
  rw [hsyms]
  simp only
  split
  · exact ⟨rfl, rfl, rfl, rfl⟩
  · split
    · simp [buildDegenerate, hleaves, nodeAt_congr hleaves]
    · have hloop := mergeLoop_sameArena s.presentSymbols.length s.presentSymbols.length
        (s := s.leavesQueued) (t := t.leavesQueued) ⟨by simp only [State.leavesQueued, hsyms, hleaves],
          by simp only [State.leavesQueued, hsyms]⟩
      unfold State.leavesQueued at hloop
      rw [hsyms] at hloop
      exact ⟨hloop.1, congrArg (·.headD 0) hloop.2, rfl, rfl⟩

/-- Settles O32: BUILD reads FREQ alone (`buildTree_congr`). -/
theorem buildDependsOnFreqAlone : Obligations.BuildDependsOnFreqAlone := by
  intro s₁ s₂ t₁ t₂ hf₁ hf₂ hfreq h₁ h₂
  rw [exec_build hf₁] at h₁
  rw [exec_build hf₂] at h₂
  cases h₁
  cases h₂
  exact buildTree_congr hfreq

end Sys2Proof.Machine

/-! # DERIVE's code table (spec/42_tree.md R140 to R145) -/

namespace Sys2Proof.Machine

/-! ## What DERIVE answers (R140, R143) -/

theorem exec_derive_noTree {s : State} (hf : s.fault = .noFault) (hs : s.tstate = .none) :
    exec .deriveTable s = .next { s with
      fault := .noTree, faultInfo0 := 0, faultInfo1 := 0, faultCmd := encode .deriveTable } := by
  simp only [exec, execDerive, unlessFaulted_run hf, hs, raise_first hf]

theorem exec_derive_sentinel {s : State} (hf : s.fault = .noFault) (hs : s.tstate = .empty) :
    exec .deriveTable s = .next { s.clearCt with tvalid := true } := by
  simp only [exec, execDerive, unlessFaulted_run hf, hs]

/-- On a tree DERIVE writes CT and TVALID alone, and the table is the tree's (`preorder_tableOk`). -/
theorem exec_derive_tree {s : State} (hf : s.fault = .noFault) (hi : Inv s) (ht : TreeShape s)
    (hs : s.tstate = .valid) :
    ∃ t, exec .deriveTable s = .next t ∧ t = { s with ct := t.ct, tvalid := true } ∧
      Inv t ∧ TreeShape t ∧ TableOk t := by
  have hv := hi.validLayout hs
  obtain ⟨ct, hct, -⟩ := preorder_spec hv.linksFall nodeCount s.root [] s.clearCt.ct s.root.isLt
  exact ⟨{ s with ct := ct, tvalid := true }, by simp only [exec, execDerive, unlessFaulted_run hf, hs, hct], rfl,
    hi.withTable (by simp [hs]) ct, treeShape_congr (s := s) rfl ht, preorder_tableOk hs hv ht hct⟩

/-- Settles O34: DERIVE's two cases without leaves. -/
theorem deriveWithoutLeaves : Obligations.DeriveWithoutLeaves := by
  refine fun s hf => ⟨fun hs => ?_, fun hs => ⟨_, exec_derive_sentinel hf hs, clearCt_ctAt s, rfl⟩⟩
  rw [exec_derive_noTree hf hs]
  rfl

/-! ## The table of a tree -/

theorem leadsTo_eq_true {s : State} {p : List Bool} {c : Byte} (h : s.leadsTo p c = true) :
    ∃ i, s.walk s.root p = some i ∧ (s.nodeAt i).kind = .leaf ∧ (s.nodeAt i).sym = c := by
  unfold State.leadsTo at h
  split at h
  · cases h
  · next i hw => exact ⟨i, hw, by simpa using h⟩

/-- A valid entry is the path of a leaf that holds its symbol, with no bit of CODE beyond it (R35, R141, R142). -/
theorem TableOk.entry {s : State} (h : TableOk s) {c : Byte} (hc : (s.ctAt c).valid = true) :
    s.tstate = .valid ∧ 1 ≤ (s.ctAt c).len.toNat ∧ (s.ctAt c).code.toNat < 2 ^ (s.ctAt c).len.toNat ∧
      ∃ i, s.walk s.root (s.ctAt c).bits = some i ∧ (s.nodeAt i).kind = .leaf ∧ (s.nodeAt i).sym = c := by
  obtain ⟨-, hs, hlen, hcode, hleads⟩ := h.2.1 c hc
  exact ⟨hs, hlen, hcode, leadsTo_eq_true hleads⟩

theorem TableOk.leaf_valid {s : State} (h : TableOk s) (htv : s.tvalid = true) {i : NodeIx}
    (hk : (s.nodeAt i).kind = .leaf) : (s.ctAt (s.nodeAt i).sym).valid = true := h.2.2 htv i hk

/-- In a tree the leaf of a symbol is the one its entry's path leads to (R31 (d)). -/
theorem TableOk.leaf_entry {s : State} (h : TableOk s) (htv : s.tvalid = true) (hv : ValidLayout s) (ht : TreeShape s)
    {i : NodeIx} (hk : (s.nodeAt i).kind = .leaf) : s.walk s.root (s.ctAt (s.nodeAt i).sym).bits = some i := by
  obtain ⟨hs, -, -, j, hw, hj, hsym⟩ := h.entry (h.leaf_valid htv hk)
  rw [hw, (ht hs).2 j i (leaf_lt hv hj) (leaf_lt hv hk) hsym]

/-- A leaf is where a path ends. -/
theorem walk_leaf {s : State} (hf : LinksFall s) {n i : NodeIx} (hk : (s.nodeAt n).kind = .leaf) {p : List Bool}
    (hw : s.walk n p = some i) : p = [] := by
  cases p with
  | nil => rfl
  | cons b p =>
    obtain ⟨hl, hr⟩ := hf.leaf n hk
    cases b <;> simp [State.walk, State.childOf, hl, hr] at hw

/-- Settles O33: the table is the tree's, so each leaf's entry is its path, and no other entry is valid. -/
theorem deriveRecordsEachLeafPath : Obligations.DeriveRecordsEachLeafPath := by
  intro s hf hi ht hs
  obtain ⟨t, he, hframe, hit, htt, htable⟩ := exec_derive_tree hf hi ht hs
  have hnode : t.node = s.node := by rw [hframe]
  have hroot : t.root = s.root := by rw [hframe]
  have htv : t.tvalid = true := by rw [hframe]
  refine ⟨t, he, hframe, ?_⟩
  simp only [← nodeAt_congr hnode, ← walk_congr hnode, ← hroot]
  refine ⟨fun i hk => ?leaf, fun c hno => ?noLeaf⟩
  case leaf =>
    have hvalid := htable.leaf_valid htv hk
    obtain ⟨hst, hlen, hcode, -⟩ := htable.entry hvalid
    exact ⟨hvalid, hlen, hcode, htable.leaf_entry htv (hit.validLayout hst) htt hk⟩
  case noLeaf =>
    refine htable.1 c (Bool.not_eq_true _ ▸ fun hvalid => ?_)
    obtain ⟨-, -, -, i, -, hk, hsym⟩ := htable.entry hvalid
    exact hno i hk hsym

/-- Settles O35: were one code the beginning of another, its leaf would have a node below it. -/
theorem derivedCodesArePrefixFree : Obligations.DerivedCodesArePrefixFree := by
  intro s t hf hi ht hs hrun
  obtain ⟨t', he, hframe, hit, -, htable⟩ := exec_derive_tree hf hi ht hs
  obtain rfl : t' = t := by rw [he] at hrun; cases hrun; rfl
  have hnode : t'.node = s.node := by rw [hframe]
  simp only [← nodeAt_congr hnode]
  refine ⟨fun c => ⟨fun hc => ?leaf, fun ⟨i, hk, hsym⟩ => ?valid⟩, fun a b hab ha hb ⟨r, hr⟩ => hab ?prefixFree⟩
  case leaf =>
    obtain ⟨-, -, -, i, -, hk, hsym⟩ := htable.entry hc
    exact ⟨i, hk, hsym⟩
  case valid => exact hsym ▸ htable.leaf_valid (by rw [hframe]) hk
  case prefixFree =>
    obtain ⟨hst, -, -, i, hwi, hki, rfl⟩ := htable.entry ha
    obtain ⟨-, -, -, j, hwj, -, rfl⟩ := htable.entry hb
    rw [← hr, walk_append, hwi, Option.bind_some] at hwj
    obtain rfl := walk_leaf (hit.validLayout hst).linksFall hki hwj
    cases hwj
    rfl

/-- Settles O36: a code is a path from ROOT, whose length `walk_root_length` bounds. -/
theorem codeLengthsAreBounded : Obligations.CodeLengthsAreBounded := by
  intro s c hi htable hc
  obtain ⟨hs, hlen, hcode, i, hw, -⟩ := htable.entry hc
  obtain ⟨h255, hone, hmany⟩ := walk_root_length (hi.validLayout hs) hw
  rw [bits_length] at h255 hone hmany
  refine ⟨hmany, fun h1 => le_antisymm (hone h1) hlen, h255, fun j hj => ?_⟩
  exact Nat.testBit_lt_two_pow (hcode.trans_le (Nat.pow_le_pow_right Nat.two_pos hj))

end Sys2Proof.Machine

/-! # The order of BUILD's merges (spec/42_tree.md R134, R138, R145 (c))

mergeAll takes nodes out of Q in ascending key order and makes parents in ascending key order. So a node whose key is no
larger lies no less deep, and no sum of frequencies wraps. -/

namespace Sys2Proof.Machine

/-! ## Keys and children -/

theorem keyLe_antisymm {s : State} {i j : NodeIx} (h₁ : s.keyLe i j) (h₂ : s.keyLe j i) : i = j := by
  unfold State.keyLe at *
  exact Fin.ext (by omega)

/-- Two nodes of Q: their frequencies together are part of the sum over Q. -/
theorem freq_add_le_queuedFreq {s : State} {a b : NodeIx} (ha : a ∈ s.q) (hb : b ∈ s.q) (hab : a ≠ b) :
    (s.nodeAt a).freq.toNat + (s.nodeAt b).freq.toNat ≤ s.queuedFreq := by
  unfold State.queuedFreq
  rw [← List.sum_map_erase _ ha]
  refine Nat.add_le_add_left ?_ _
  exact List.le_sum_of_mem (List.mem_map.2 ⟨b, (List.mem_erase_of_ne hab.symm).2 hb, rfl⟩)

theorem walk_singleton (s : State) (n : NodeIx) (b : Bool) : s.walk n [b] = s.childOf n b := by
  simp only [State.walk]
  cases s.childOf n b <;> rfl

/-- A path with a last step goes to the step's node first. -/
theorem walk_snoc {s : State} {n i : NodeIx} {p : List Bool} {b : Bool} (h : s.walk n (p ++ [b]) = some i) :
    ∃ m, s.walk n p = some m ∧ s.childOf m b = some i := by
  rw [walk_append] at h
  obtain ⟨m, hm, hi⟩ := Option.bind_eq_some_iff.1 h
  exact ⟨m, hm, by rwa [walk_singleton] at hi⟩

section
variable {k n : Nat} {s : State} (hm : Merging k n s)
include hm

/-- While mergeAll runs, only the internal nodes it made have children. -/
theorem Merging.parent_bounds {i c : NodeIx} {b : Bool} (hc : s.childOf i b = some c) : k ≤ i.val ∧ i.val < n := by
  constructor
  · by_contra hlt
    obtain ⟨-, hl, hr⟩ := hm.leaf i (by omega)
    cases b <;> simp [State.childOf, hl, hr] at hc
  · by_contra hge
    cases b <;> simp [State.childOf, hm.unused i (by omega), NodeRec.unused] at hc

/-- A child lies below its parent and has left Q for good (R134). -/
theorem Merging.child_merged {i c : NodeIx} {b : Bool} (hc : s.childOf i b = some c) : c.val < n ∧ c ∉ s.q := by
  obtain ⟨hk, hn⟩ := hm.parent_bounds hc
  obtain ⟨-, -, hl, hr⟩ := hm.inner i hk hn
  have hlt : c.val < n := by
    cases b
    · rw [show (s.nodeAt i).left = some c from hc] at hl; exact (linksBelow_some hl).trans hn
    · rw [show (s.nodeAt i).right = some c from hc] at hr; exact (linksBelow_some hr).trans hn
  have hmem : c ∈ s.linksUpTo n := by
    simp only [State.linksUpTo, List.mem_flatMap, List.mem_range, List.mem_append, Option.mem_toList]
    refine ⟨i.val, hn, ?_⟩
    rw [nodeIx_self]
    cases b
    · exact .inl hc
    · exact .inr hc
  refine ⟨hlt, fun hq => ?_⟩
  have hcount := hm.once c hlt
  rw [if_pos hq] at hcount
  exact absurd hmem (List.count_eq_zero.1 hcount)

end

/-! ## One round -/

/-- One round that makes node `n` of the two least nodes of Q, with the sum of their frequencies as a natural number. -/
structure MergeRound (n : Nat) (s t : State) (a b : NodeIx) : Prop where
  fst_mem : a ∈ s.q
  snd_mem : b ∈ s.q
  fst_least : ∀ j ∈ s.q, s.keyLe a j
  snd_least : ∀ j ∈ s.q, j ≠ a → s.keyLe b j
  index : (nodeIx n).val = n
  left : (t.nodeAt (nodeIx n)).left = some a
  right : (t.nodeAt (nodeIx n)).right = some b
  freq : (t.nodeAt (nodeIx n)).freq.toNat = (s.nodeAt a).freq.toNat + (s.nodeAt b).freq.toNat
  older : ∀ i : NodeIx, i.val < n → t.nodeAt i = s.nodeAt i
  mem_q : ∀ i, i ∈ t.q ↔ i = nodeIx n ∨ (i ∈ s.q ∧ i ≠ a ∧ i ≠ b)

theorem Merging.round {k n : Nat} {s : State} (hm : Merging k n s) (h2 : 1 < s.q.length) (hT : s.queuedFreq < 2 ^ 40) :
    ∃ a b, MergeRound n s (merge n s) a b := by
  obtain ⟨-, hk, -⟩ := hm.bounds
  have hlen := hm.length
  have hn : (nodeIx n).val = n := nodeIx_val (show n < 511 by omega)
  have hnq : nodeIx n ∉ s.q := fun hmem => by have := hm.below _ hmem; omega
  obtain ⟨a, b, ha, hb, hab, hamin, hbmin, hnew, hsame, hq, -, -⟩ :=
    mergeJoinsTheTwoSmallestKeys s (nodeIx n) hm.nodup h2 hnq
  rw [hn] at hnew hsame hq
  refine ⟨a, b, ha, hb, hamin, hbmin, hn, by rw [hnew], by rw [hnew], ?_, fun i hi => hsame i ?_, hq⟩
  · rw [hnew, BitVec.toNat_add, Nat.mod_eq_of_lt ((freq_add_le_queuedFreq ha hb hab).trans_lt hT)]
  · rintro rfl; omega

section
variable {n : Nat} {s t : State} {a b : NodeIx} (hr : MergeRound n s t a b)
include hr

theorem MergeRound.keyLe_older {i j : NodeIx} (hi : i.val < n) (hj : j.val < n) : t.keyLe i j ↔ s.keyLe i j := by
  unfold State.keyLe
  rw [hr.older i hi, hr.older j hj]

theorem MergeRound.keyLe_new {i : NodeIx} (hi : i.val < n)
    (hle : (s.nodeAt i).freq.toNat ≤ (s.nodeAt a).freq.toNat + (s.nodeAt b).freq.toNat) : t.keyLe i (nodeIx n) := by
  have hidx := hr.index
  unfold State.keyLe
  rw [hr.older i hi, hr.freq]
  omega

theorem MergeRound.childOf_older {i : NodeIx} (hi : i.val < n) (c : Bool) : t.childOf i c = s.childOf i c := by
  unfold State.childOf
  rw [hr.older i hi]

theorem MergeRound.childOf_new {x : NodeIx} {c : Bool} (hx : t.childOf (nodeIx n) c = some x) : x = a ∨ x = b := by
  cases c
  · exact .inl (Option.some.inj (hx.symm.trans hr.left))
  · exact .inr (Option.some.inj (hx.symm.trans hr.right))

/-- A node that has left Q is the first or the second one taken out, or it had left Q before. -/
theorem MergeRound.merged_cases {i : NodeIx} (hi : i.val < n + 1) (hq : i ∉ t.q) :
    i.val < n ∧ (i = a ∨ i = b ∨ i ∉ s.q) := by
  have hidx := hr.index
  rw [hr.mem_q] at hq
  have hne : i ≠ nodeIx n := fun e => hq (.inl e)
  refine ⟨by have := mt Fin.ext hne; omega, ?_⟩
  by_contra hcon
  exact hq (.inr (by tauto))

end

/-! ## What every round keeps -/

/-- The order in which mergeAll works: FREQ of a node it made is the sum of its children's, a node that has left Q has a
key no larger than any in Q, of two parents the earlier one has the children with the smaller keys, and parents are made
in ascending order of FREQ. -/
structure MergedInOrder (k n : Nat) (s : State) : Prop where
  sum : ∀ i : NodeIx, k ≤ i.val → i.val < n → ∃ l r, (s.nodeAt i).left = some l ∧ (s.nodeAt i).right = some r ∧
    (s.nodeAt i).freq.toNat = (s.nodeAt l).freq.toNat + (s.nodeAt r).freq.toNat
  merged : ∀ i j : NodeIx, i.val < n → i ∉ s.q → j ∈ s.q → s.keyLe i j
  parents : ∀ (i j x y : NodeIx) (c d : Bool), i.val < j.val → s.childOf i c = some x → s.childOf j d = some y →
    s.keyLe x y ∧ x ≠ y
  rise : ∀ i j : NodeIx, k ≤ i.val → i.val ≤ j.val → j.val < n → (s.nodeAt i).freq.toNat ≤ (s.nodeAt j).freq.toNat

/-- At the start no node has children and every leaf is in Q. -/
theorem mergedInOrder_start {s : State} (h1 : 1 ≤ s.presentSymbols.length) :
    MergedInOrder s.presentSymbols.length s.presentSymbols.length s.leavesQueued where
  sum i h h' := by omega
  merged i j hi hq := absurd ((mem_leavesQueued s i).2 hi) hq
  parents i j x y c d hij hx := by have := (merging_start h1).parent_bounds hx; omega
  rise i j h h' h'' := by omega

section
variable {k n : Nat} {s t : State} {a b : NodeIx} (hm : Merging k n s) (h : MergedInOrder k n s)
  (hr : MergeRound n s t a b)
include hm h hr

/-- Before the round: no parent's frequency exceeds the sum of the two least ones of Q. -/
theorem MergedInOrder.freq_le_new {i : NodeIx} (hk : k ≤ i.val) (hn : i.val < n) :
    (s.nodeAt i).freq.toNat ≤ (s.nodeAt a).freq.toNat + (s.nodeAt b).freq.toNat := by
  obtain ⟨l, r, hl, hrt, hsum⟩ := h.sum i hk hn
  obtain ⟨hln, hlq⟩ := hm.child_merged (b := false) hl
  obtain ⟨hrn, hrq⟩ := hm.child_merged (b := true) hrt
  have hla := h.merged l a hln hlq hr.fst_mem
  have hrb := h.merged r b hrn hrq hr.snd_mem
  unfold State.keyLe at hla hrb
  omega

theorem MergedInOrder.round_sum {i : NodeIx} (hk : k ≤ i.val) (hn : i.val < n + 1) :
    ∃ l r, (t.nodeAt i).left = some l ∧ (t.nodeAt i).right = some r ∧
      (t.nodeAt i).freq.toNat = (t.nodeAt l).freq.toNat + (t.nodeAt r).freq.toNat := by
  have hidx := hr.index
  rcases Nat.lt_or_ge i.val n with hlt | hge
  · obtain ⟨l, r, hl, hrt, hsum⟩ := h.sum i hk hlt
    rw [hr.older i hlt]
    refine ⟨l, r, hl, hrt, ?_⟩
    rw [hr.older l (hm.child_merged (b := false) hl).1, hr.older r (hm.child_merged (b := true) hrt).1, hsum]
  · obtain rfl : i = nodeIx n := Fin.ext (by omega)
    refine ⟨a, b, hr.left, hr.right, ?_⟩
    rw [hr.older a (hm.below a hr.fst_mem), hr.older b (hm.below b hr.snd_mem), hr.freq]

theorem MergedInOrder.round_merged {i j : NodeIx} (hi : i.val < n + 1) (hiq : i ∉ t.q) (hjq : j ∈ t.q) :
    t.keyLe i j := by
  obtain ⟨hin, hi⟩ := hr.merged_cases hi hiq
  rcases (hr.mem_q j).1 hjq with rfl | ⟨hj, hja, hjb⟩
  · refine hr.keyLe_new hin ?_
    rcases hi with rfl | rfl | hi
    · omega
    · omega
    · have hia := h.merged i a hin hi hr.fst_mem
      unfold State.keyLe at hia
      omega
  · rw [hr.keyLe_older hin (hm.below j hj)]
    rcases hi with rfl | rfl | hi
    · exact hr.fst_least j hj
    · exact hr.snd_least j hj hja
    · exact h.merged i j hin hi hj

theorem MergedInOrder.round_parents (hm' : Merging k (n + 1) t) {i j x y : NodeIx} {c d : Bool} (hij : i.val < j.val)
    (hx : t.childOf i c = some x) (hy : t.childOf j d = some y) : t.keyLe x y ∧ x ≠ y := by
  have hidx := hr.index
  have hjn := (hm'.parent_bounds hy).2
  have hin : i.val < n := by omega
  rw [hr.childOf_older hin] at hx
  obtain ⟨hxn, hxq⟩ := hm.child_merged hx
  rcases Nat.lt_or_ge j.val n with hlt | hge
  · rw [hr.childOf_older hlt] at hy
    rw [hr.keyLe_older hxn (hm.child_merged hy).1]
    exact h.parents i j x y c d hij hx hy
  · obtain rfl : j = nodeIx n := Fin.ext (by omega)
    have hyq : y ∈ s.q := by
      rcases hr.childOf_new hy with rfl | rfl
      · exact hr.fst_mem
      · exact hr.snd_mem
    rw [hr.keyLe_older hxn (hm.below y hyq)]
    exact ⟨h.merged x y hxn hxq hyq, fun e => hxq (e ▸ hyq)⟩

theorem MergedInOrder.round_rise {i j : NodeIx} (hk : k ≤ i.val) (hij : i.val ≤ j.val) (hj : j.val < n + 1) :
    (t.nodeAt i).freq.toNat ≤ (t.nodeAt j).freq.toNat := by
  have hidx := hr.index
  rcases Nat.lt_or_ge j.val n with hlt | hge
  · rw [hr.older i (by omega), hr.older j hlt]
    exact h.rise i j hk hij hlt
  · obtain rfl : j = nodeIx n := Fin.ext (by omega)
    rcases Nat.lt_or_ge i.val n with hin | hin
    · rw [hr.older i hin, hr.freq]
      exact h.freq_le_new hm hr hk hin
    · obtain rfl : i = nodeIx n := Fin.ext (by omega)
      exact Nat.le_refl _

/-- One round keeps the order. -/
theorem MergedInOrder.round (hm' : Merging k (n + 1) t) : MergedInOrder k (n + 1) t where
  sum _ hk hn := h.round_sum hm hr hk hn
  merged _ _ hi hiq hjq := h.round_merged hm hr hi hiq hjq
  parents _ _ _ _ _ _ hij hx hy := h.round_parents hm hr hm' hij hx hy
  rise _ _ hk hij hj := h.round_rise hm hr hk hij hj

end

/-- The rounds of one BUILD of at least two symbols end with every merge made in order and, left in Q, a root that holds
the sum of all counts. -/
theorem mergeLoop_inOrder {s : State} (h2 : 2 ≤ s.presentSymbols.length) :
    MergedInOrder s.presentSymbols.length (2 * s.presentSymbols.length - 1)
        (mergeLoop s.presentSymbols.length s.presentSymbols.length s.leavesQueued) ∧
      (mergeLoop s.presentSymbols.length s.presentSymbols.length s.leavesQueued).queuedFreq = s.countSum := by
  have hT : s.countSum < 2 ^ 40 := by
    have := countSum_le s (m := 2 ^ 32 - 1) fun c => by have := (s.freqAt c).isLt; omega
    omega
  have hrounds := (mergeLoop_induct
    (P := fun n t => MergedInOrder s.presentSymbols.length n t ∧
      t.queuedFreq = s.countSum ∧ ∀ i, (t.nodeAt i).freq.toNat ≤ s.countSum)
    (fun n t ht h1 ⟨hp, hf⟩ => by
      obtain ⟨a, b, hr⟩ := ht.round h1 (hf.1.trans_lt hT)
      exact ⟨hp.round ht hr (ht.step h1), merge_freqs ht h1 hT hf⟩)
    s.presentSymbols.length s.presentSymbols.length s.leavesQueued (by simp [State.leavesQueued])
    (merging_start (by omega)) ⟨mergedInOrder_start (by omega), leavesQueued_freqs s⟩).2
  exact ⟨hrounds.1, hrounds.2.1⟩

/-- The same of the tree BUILD makes of them: it is the arena the rounds end in. -/
theorem buildTree_inOrder {s : State} (h2 : 2 ≤ s.presentSymbols.length) :
    ∃ m, Merging s.presentSymbols.length (2 * s.presentSymbols.length - 1) m ∧
      MergedInOrder s.presentSymbols.length (2 * s.presentSymbols.length - 1) m ∧
      m.q = [(buildTree s).root] ∧ m.queuedFreq = s.countSum ∧ (buildTree s).node = m.node := by
  obtain ⟨hm, hq⟩ := mergeLoop_end h2
  obtain ⟨horder, hsum⟩ := mergeLoop_inOrder h2
  rcases buildTree_eq s with ⟨hnil, -⟩ | ⟨h1, -⟩ | ⟨-, he⟩
  · rw [hnil] at h2; simp at h2
  · omega
  · refine ⟨_, hm, horder, ?_, hsum, by rw [he]; rfl⟩
    rw [he, finishTree_root, hq]
    rfl

/-! ## Frequencies (R138) -/

/-- Σ FREQ over the symbols as the statements write it. -/
theorem countSum_eq_range (s : State) :
    s.countSum = ((List.range 256).map fun n => (s.freqAt (BitVec.ofNat 8 n)).toNat).sum := by
  rw [State.countSum, allSymbols, List.map_map]
  rfl

/-- Node `i` of a finished tree holds the sum of its children's frequencies, the left one's alone where there is no right
child. -/
def State.sumsChildren (s : State) (i : NodeIx) : Prop :=
  ∃ l, (s.nodeAt i).left = some l ∧ (s.nodeAt i).freq.toNat =
    (s.nodeAt l).freq.toNat + ((s.nodeAt i).right.map fun r => (s.nodeAt r).freq.toNat).getD 0

/-- The degenerate tree: the wrapper's FREQ is its leaf's, which is the only count (R135). -/
theorem buildTree_freqs_one {s : State} (hf : s.fault = .noFault) (h1 : s.presentSymbols.length = 1) :
    (∀ i, ((buildTree s).nodeAt i).kind = .internal → (buildTree s).sumsChildren i) ∧
      ((buildTree s).nodeAt (buildTree s).root).freq.toNat = s.countSum := by
  obtain ⟨z, hz⟩ := List.length_eq_one_iff.1 h1
  have hcount (c : Byte) : s.freqAt c ≠ 0 ↔ c = z := by rw [← mem_presentSymbols, hz, List.mem_singleton]
  obtain ⟨t, ht, hleaf, hwrap, hunused, -, hframe⟩ :=
    buildOfOneSymbolMakesTheDegenerateTree s z hf ((hcount z).2 rfl) fun c hc => not_not.1 (mt (hcount c).1 hc)
  obtain rfl : buildTree s = t := by rw [exec_build hf] at ht; cases ht; rfl
  constructor
  · intro i hk
    have hi : i = 1 := by
      by_contra hne
      rcases Nat.lt_or_ge i.val 2 with hlt | hge
      · have h1 : i.val ≠ 1 := fun e => hne (Fin.ext e)
        obtain rfl : i = 0 := Fin.ext (show i.val = 0 by omega)
        rw [hleaf] at hk; cases hk
      · rw [hunused i hge] at hk; cases hk
    subst hi
    exact ⟨0, by rw [hwrap], by rw [hwrap, hleaf]; rfl⟩
  · have hroot : (buildTree s).root = 1 := by rw [hframe]
    rw [hroot, hwrap, ← presentSum, hz]
    exact leaf_freq z (s.freqAt z)

/-- The tree of two symbols or more: every round adds two frequencies, and Q's last node holds the sum of all counts. -/
theorem buildTree_freqs_many {s : State} (h2 : 2 ≤ s.presentSymbols.length) :
    (∀ i, ((buildTree s).nodeAt i).kind = .internal → (buildTree s).sumsChildren i) ∧
      ((buildTree s).nodeAt (buildTree s).root).freq.toNat = s.countSum := by
  obtain ⟨m, hm, horder, hq, hsum, hnode⟩ := buildTree_inOrder h2
  simp only [State.sumsChildren, nodeAt_congr hnode]
  constructor
  · intro i hk
    have hlow : s.presentSymbols.length ≤ i.val := by
      by_contra hlt
      rw [(hm.leaf i (by omega)).1] at hk; cases hk
    have hhigh : i.val < 2 * s.presentSymbols.length - 1 := by
      by_contra hge
      rw [hm.unused i (by omega)] at hk; cases hk
    obtain ⟨l, r, hl, hr, he⟩ := horder.sum i hlow hhigh
    exact ⟨l, hl, by rw [hr]; exact he⟩
  · simpa [State.queuedFreq, hq] using hsum

/-- Settles O31: both trees' sums, and ROOT's bound by `countSum_le`. -/
theorem buildFrequenciesNeverWrap : Obligations.BuildFrequenciesNeverWrap := by
  intro s t hf hi hrun hv
  obtain rfl : buildTree s = t := by rw [exec_build hf] at hrun; cases hrun; rfl
  have hfreqs : (∀ i, ((buildTree s).nodeAt i).kind = .internal → (buildTree s).sumsChildren i) ∧
      ((buildTree s).nodeAt (buildTree s).root).freq.toNat = s.countSum := by
    rcases buildTree_eq s with ⟨hnil, -⟩ | ⟨h1, -⟩ | ⟨h2, -⟩
    · exact absurd hnil (buildTree_presentSymbols_ne_nil hv)
    · exact buildTree_freqs_one hf h1
    · exact buildTree_freqs_many h2
  obtain ⟨hsums, hroot⟩ := hfreqs
  refine ⟨hsums, hroot.trans (countSum_eq_range s), hroot.trans_le (countSum_le s hi.countsOk), ?_⟩
  have hpos := Nat.two_pow_pos s.cfg.countBits
  rw [Nat.pow_add]
  omega

/-! ## Depth (R145 (c)) -/

/-- Where every merge was made in order, a node whose key is no larger lies no less deep. -/
theorem MergedInOrder.depth_le {k n : Nat} {s : State} (hm : Merging k n s) (h : MergedInOrder k n s) {r : NodeIx}
    (hq : s.q = [r]) (p : List Bool) : ∀ {p' : List Bool} {x y : NodeIx}, s.walk r p = some x → s.walk r p' = some y →
      s.keyLe y x → p.length ≤ p'.length := by
  induction p using List.reverseRecOn with
  | nil => intros; exact Nat.zero_le _
  | append_singleton p b ih =>
    intro p' x y hx hy hle
    obtain ⟨x', hx', hxc⟩ := walk_snoc hx
    obtain ⟨hxn, hxq⟩ := hm.child_merged hxc
    rcases List.eq_nil_or_concat' p' with rfl | ⟨p', d, rfl⟩
    · cases hy
      have hroot : r ∈ s.q := by simp [hq]
      exact absurd hroot (keyLe_antisymm hle (h.merged x r hxn hxq hroot) ▸ hxq)
    · obtain ⟨y', hy', hyc⟩ := walk_snoc hy
      have hparents : y'.val ≤ x'.val := by
        by_contra hlt
        obtain ⟨hxy, hne⟩ := h.parents x' y' x y b d (by omega) hxc hyc
        exact hne (keyLe_antisymm hxy hle)
      have hfreq := h.rise y' x' (hm.parent_bounds hyc).1 hparents (hm.parent_bounds hxc).2
      have hkey : s.keyLe y' x' := by unfold State.keyLe; omega
      simpa using ih hx' hy' hkey

/-- In the tree BUILD makes of two symbols or more, the path to a node with a larger frequency is no longer. -/
theorem buildTree_depth_le {s : State} (h2 : 2 ≤ s.presentSymbols.length) {p p' : List Bool} {x y : NodeIx}
    (hx : (buildTree s).walk (buildTree s).root p = some x) (hy : (buildTree s).walk (buildTree s).root p' = some y)
    (hlt : ((buildTree s).nodeAt y).freq.toNat < ((buildTree s).nodeAt x).freq.toNat) : p.length ≤ p'.length := by
  obtain ⟨m, hm, horder, hq, -, hnode⟩ := buildTree_inOrder h2
  rw [walk_congr hnode] at hx hy
  rw [nodeAt_congr hnode, nodeAt_congr hnode] at hlt
  exact horder.depth_le hm hq p hx hy (.inl hlt)

/-- Every counted symbol has its leaf, with its count, in the tree BUILD makes (R132). -/
theorem buildTree_leaf_of_counted {s : State} {c : Byte} (hc : s.freqAt c ≠ 0) :
    ∃ i : NodeIx, (buildTree s).nodeAt i = NodeRec.leafOf c (s.freqAt c) := by
  have hle := presentSymbols_length s
  obtain ⟨n, hn, rfl⟩ := List.getElem_of_mem ((mem_presentSymbols s c).2 hc)
  have hval : (nodeIx n).val = n := nodeIx_val (show n < 511 by omega)
  have hleaf := buildTree_leaf (i := nodeIx n) (hval.trans_lt hn)
  simp only [hval] at hleaf
  exact ⟨nodeIx n, hleaf⟩

/-- Two counted symbols make a table of at least two. -/
theorem two_le_presentSymbols {s : State} {a b : Byte} (hab : a ≠ b) (ha : s.freqAt a ≠ 0) (hb : s.freqAt b ≠ 0) :
    2 ≤ s.presentSymbols.length := by
  have hsub : [a, b] ⊆ s.presentSymbols := by simpa [mem_presentSymbols] using ⟨ha, hb⟩
  exact (List.subperm_of_subset (by simpa using hab) hsub).length_le

/-- Settles O37: DERIVE gives each leaf its path, and `buildTree_depth_le` compares the two paths. -/
theorem moreFrequentSymbolsGetNoLongerCodes : Obligations.MoreFrequentSymbolsGetNoLongerCodes := by
  intro s t u a b hf hi hbuild hderive hlt hb
  obtain rfl : buildTree s = t := by rw [exec_build hf] at hbuild; cases hbuild; rfl
  have ha : s.freqAt a ≠ 0 := fun h0 => by rw [h0] at hlt; exact absurd hlt (Nat.not_lt_zero _)
  have hab : a ≠ b := by rintro rfl; exact absurd hlt (Nat.lt_irrefl _)
  have hf' : (buildTree s).fault = .noFault := by rw [buildTree_frame]; exact hf
  have hv : (buildTree s).tstate = .valid := (buildTree_tstate_eq_valid_iff s).2 ⟨a, ha⟩
  obtain ⟨u', hu, -, hleaves, -⟩ := deriveRecordsEachLeafPath _ hf' (buildTree_inv hi) (buildTree_treeShape s) hv
  obtain rfl : u' = u := by rw [hu] at hderive; cases hderive; rfl
  obtain ⟨x, hx⟩ := buildTree_leaf_of_counted ha
  obtain ⟨y, hy⟩ := buildTree_leaf_of_counted hb
  obtain ⟨-, -, -, hwx⟩ := hleaves x (by rw [hx]; rfl)
  obtain ⟨-, -, -, hwy⟩ := hleaves y (by rw [hy]; rfl)
  have hdepth := buildTree_depth_le (two_le_presentSymbols hab ha hb) hwx hwy
    (by rw [hx, hy, leaf_freq, leaf_freq]; exact hlt)
  rw [hx, hy, bits_length, bits_length] at hdepth
  exact hdepth

end Sys2Proof.Machine

/-! # DECODE follows a code to its leaf (spec/44_reader.md R201, R202) -/

namespace Sys2Proof.Machine

/-! ## The tree walk -/

/-- Decoding the bits of a path to a leaf gives the leaf's symbol and leaves the bits after the path. -/
theorem decodeFrom_walk {s : State} (hf : LinksFall s) {i : NodeIx} (hk : (s.nodeAt i).kind = .leaf)
    (rest : List Bool) (p : List Bool) : ∀ {n : NodeIx}, (s.nodeAt n).kind ≠ .leaf → s.walk n p = some i →
      s.decodeFrom n (p ++ rest) = .symbol (s.nodeAt i).sym rest := by
  induction p with
  | nil => intro n hn hw; cases hw; exact absurd hk hn
  | cons b p ih =>
    intro n _ hw
    simp only [State.walk] at hw
    cases hc : s.childOf n b with
    | none => rw [hc] at hw; cases hw
    | some c =>
      rw [hc] at hw
      simp only [List.cons_append, State.decodeFrom, hc]
      by_cases hcl : (s.nodeAt c).kind = .leaf
      · rw [if_pos hcl]
        obtain rfl := walk_leaf hf hcl hw
        cases hw
        rfl
      · rw [if_neg hcl]
        exact ih hcl hw

theorem decodeFrom_congr {s t : State} (h : t.node = s.node) (n : NodeIx) (bits : List Bool) :
    t.decodeFrom n bits = s.decodeFrom n bits := by
  induction bits generalizing n with
  | nil => rfl
  | cons b bits ih =>
    have hchild : t.childOf n b = s.childOf n b := by simp only [State.childOf, nodeAt_congr h]
    simp only [State.decodeFrom, hchild, nodeAt_congr h, ih]

/-! ## DECODE's loop -/

section
variable {s : State} {b : Bool} {c : NodeIx} (w : Word) (hc : s.childOf s.cursor b = some c)
include hc

/-- R202: at a leaf the symbol is emitted and the cursor returns to ROOT. -/
theorem decodeStep_leaf (hk : (s.nodeAt c).kind = .leaf) :
    decodeStep w b s = .emitted { s with result := decodedResult (s.nodeAt c).sym, cursor := s.root } := by
  simp only [decodeStep, hc, if_pos hk]

theorem decodeStep_inner (hk : (s.nodeAt c).kind ≠ .leaf) : decodeStep w b s = .moved { s with cursor := c } := by
  simp only [decodeStep, hc, if_neg hk]

end

/-- What DECODE leaves when it decodes symbol `c` before the bits `rest`: RESULT, CURSOR at ROOT, and the window moved. -/
structure Decodes (s t : State) (c : Byte) (rest : List Bool) : Prop where
  result : t.result = decodedResult c
  bits : t.readerBits = rest
  trailing : t.trailingByte = s.trailingByte
  frame : t = { s with
    result := t.result, cursor := s.root, cur := t.cur, nxt := t.nxt, aft := t.aft, aftv := t.aftv, rem := t.rem,
    rbase := t.rbase }

/-- Where the tree walk over the bits the reader still has reaches a leaf, DECODE's loop emits the leaf's symbol and
leaves the bits after it. -/
theorem decodeLoop_symbol (w : Word) (fuel : Nat) {s : State} (hf : LinksFall s) (hr : ReaderOk s)
    (ho : s.rstate = .opened) (ht : s.trailingByte.toNat ≤ 8) (hn : s.cursor.val < fuel) {c : Byte} {rest : List Bool}
    (hd : s.decodeFrom s.cursor s.readerBits = .symbol c rest) :
    ∃ t, decodeLoop w fuel s = .next t ∧ Decodes s t c rest := by
  induction fuel generalizing s with
  | zero => exact absurd hn (Nat.not_lt_zero _)
  | succ fuel ih =>
    have hnext : s.hasNext = true := (hasNext_iff_bits hr ho).2 fun hnil => by rw [hnil] at hd; cases hd
    obtain ⟨u, hu, hbits, htrail, hru, hframe⟩ := readBitCore_delivers hr hnext (not_formatNext ht) w
    unfold State.sameButWindow at hframe
    have hnode : u.node = s.node := by rw [hframe]
    have hcursor : u.cursor = s.cursor := by rw [hframe]
    have hfu : LinksFall u := by rw [hframe]; exact ⟨hf.leaf, hf.left, hf.right⟩
    rw [← decodeFrom_congr hnode, ← hcursor, hbits] at hd
    cases hc : u.childOf u.cursor s.nextBit with
    | none => simp [State.decodeFrom, hc] at hd
    | some d =>
      simp only [State.decodeFrom, hc] at hd
      by_cases hk : (u.nodeAt d).kind = .leaf
      · rw [if_pos hk] at hd
        cases hd
        refine ⟨{ u with result := decodedResult (u.nodeAt d).sym, cursor := u.root }, ?_, rfl, rfl, htrail, ?_⟩
        · simp only [decodeLoop, hnext, hu, decodeStep_leaf w hc hk, Bool.true_eq_false, if_false]
        · rw [hframe]
      · rw [if_neg hk] at hd
        have hlt := childOf_lt hfu hc
        obtain ⟨t, he, hdec⟩ := ih (s := { u with cursor := d }) ⟨hfu.leaf, hfu.left, hfu.right⟩ hru
          (by rw [hframe]; exact ho) (htrail ▸ ht) (by rw [hcursor] at hlt; show d.val < fuel; omega)
          ((decodeFrom_congr (s := u) (t := { u with cursor := d }) rfl d u.readerBits).trans hd)
        refine ⟨t, ?_, hdec.result, hdec.bits, hdec.trailing.trans htrail, ?_⟩
        · simp only [decodeLoop, hnext, hu, decodeStep_inner w hc hk, Bool.true_eq_false, if_false]
          exact he
        · have hframe' := hdec.frame
          rw [hframe] at hframe'
          exact hframe'

/-- DECODE of a symbol from an open reader over a frame with a legal trailing byte (R201, R202). -/
theorem exec_decode_symbol {s : State} (hf : s.fault = .noFault) (hi : Inv s) (hs : s.tstate = .valid)
    (ho : s.rstate = .opened) (ht : s.trailingByte.toNat ≤ 8) {c : Byte} {rest : List Bool}
    (hd : s.decodeFrom s.cursor s.readerBits = .symbol c rest) :
    ∃ t, exec .decodeSym s = .next t ∧ Decodes s t c rest := by
  obtain ⟨t, he, hdec⟩ := decodeLoop_symbol (encode .decodeSym) nodeCount (hi.validLayout hs).linksFall hi.readerOk ho ht
    s.cursor.isLt hd
  refine ⟨t, ?_, hdec⟩
  simp only [exec, execDecode, unlessFaulted_run hf, hs, ho]
  exact he

/-- Settles O53: the code is the path to the symbol's leaf, and DECODE walks it. -/
theorem decodeInvertsEncode : Obligations.DecodeInvertsEncode := by
  intro s sym rest hf hi htable ho ht hcursor hc hbits
  obtain ⟨hs, -, -, i, hw, hk, rfl⟩ := htable.entry hc
  have hv := hi.validLayout hs
  have hd : s.decodeFrom s.cursor s.readerBits = .symbol (s.nodeAt i).sym rest := by
    rw [hbits, hcursor]
    exact decodeFrom_walk hv.linksFall hk rest _ (by rw [root_inner hv]; decide) hw
  obtain ⟨t, he, hdec⟩ := exec_decode_symbol hf hi hs ho ht hd
  refine ⟨t, he, hdec.result, hdec.bits, hdec.trailing, ?_⟩
  rw [hcursor]
  exact hdec.frame

end Sys2Proof.Machine

/-! # The writer and the symbol encoder (spec/43_writer.md R161 to R169) -/

namespace Sys2Proof.Machine

/-! ## The words of the commands (R90, R95) -/

theorem encode_wbit (b : Bool) : encode (.wbit b) = 0x31000000#32 ||| (BitVec.ofBool b).setWidth 32 := by
  cases b <;> decide

theorem encode_encodeSym (c : Byte) : encode (.encodeSym c) = 0x33000000#32 ||| c.setWidth 32 :=
  encode_eq_opWord_or_operand (i := .encodeSym c) (show Opcode.encodeSym.code ++ 0#24 = _ by decide)

/-! ## What each command answers with no fault recorded -/

section
variable {s : State} (hf : s.fault = .noFault)
include hf

theorem exec_wopen_open (h : s.arg.toNat ≤ s.cfg.obufSize) :
    exec .wopen s = .next { s with
      wacc := 0, wn := 0, olen := 0, wlimit := s.arg.extractLsb' 0 21, wstate := .opened } := by
  simp only [exec, execWopen, unlessFaulted_run hf]
  exact if_neg h.not_gt

theorem exec_wopen_refuse (h : s.cfg.obufSize < s.arg.toNat) :
    exec .wopen s = .next { s with
      fault := .badArgument, faultInfo0 := s.arg, faultInfo1 := BitVec.ofNat 32 s.cfg.obufSize,
      faultCmd := encode .wopen } := by
  simp only [exec, execWopen, State.limitOperand, unlessFaulted_run hf, if_pos h, raise_first hf]

theorem raiseWriterState_first (w : Word) :
    raiseWriterState w s = { s with
      fault := .writerState, faultInfo0 := s.wstate.code.setWidth 32, faultInfo1 := 0, faultCmd := w } :=
  raise_first hf ..

/-- The capacity guard (R162): the writer is FAILED and the fault recorded. -/
theorem raise_capacityExceeded (i0 i1 w : Word) :
    raise .capacityExceeded i0 i1 w { s with wstate := .failed } = { s with
      wstate := .failed, fault := .capacityExceeded, faultInfo0 := i0, faultInfo1 := i1, faultCmd := w } :=
  raise_first (s := { s with wstate := .failed }) hf ..

theorem exec_wbit_notOpened (ho : s.wstate ≠ .opened) (b : Bool) :
    exec (.wbit b) s = .next (raiseWriterState (encode (.wbit b)) s) := by
  simp only [exec, execWbit, unlessFaulted_run hf, if_pos ho]

theorem exec_wbit_opened (ho : s.wstate = .opened) (b : Bool) :
    exec (.wbit b) s = .next (writeBitCore (encode (.wbit b)) b s).state := by
  simp only [exec, execWbit, unlessFaulted_run hf, if_neg (not_not.2 ho), Ran.outcome_eq]

theorem exec_wclose_notOpened (ho : s.wstate ≠ .opened) :
    exec .wclose s = .next (raiseWriterState (encode .wclose) s) := by
  simp only [exec, execWclose, unlessFaulted_run hf, if_pos ho]

theorem exec_wclose_opened (ho : s.wstate = .opened) :
    exec .wclose s = .next (closeWriter (encode .wclose) s).state := by
  simp only [exec, execWclose, unlessFaulted_run hf, if_neg (not_not.2 ho), Ran.outcome_eq]

theorem exec_encode_notOpened (htv : s.tvalid = true) (ho : s.wstate ≠ .opened) (c : Byte) :
    exec (.encodeSym c) s = .next (raiseWriterState (encode (.encodeSym c)) s) := by
  simp only [exec, execEncode, unlessFaulted_run hf, htv, Bool.true_eq_false, if_false, if_pos ho]

theorem exec_encode_unknown (htv : s.tvalid = true) (ho : s.wstate = .opened) {c : Byte}
    (hc : (s.ctAt c).valid = false) :
    exec (.encodeSym c) s = .next { s with
      fault := .unknownSymbol, faultInfo0 := c.setWidth 32, faultInfo1 := 0, faultCmd := encode (.encodeSym c) } := by
  simp only [exec, execEncode, unlessFaulted_run hf, htv, Bool.true_eq_false, if_false, if_neg (not_not.2 ho),
    if_pos hc, raise_first hf, zext32]

theorem exec_encode_opened (htv : s.tvalid = true) (ho : s.wstate = .opened) {c : Byte}
    (hc : (s.ctAt c).valid = true) :
    exec (.encodeSym c) s = .next (writeBits (encode (.encodeSym c)) (s.ctAt c).bits s).state := by
  simp only [exec, execEncode, unlessFaulted_run hf, htv, Bool.true_eq_false, if_false, if_neg (not_not.2 ho), hc,
    Ran.outcome_eq]

end

/-- Settles O44: the three checks of R169 in their order. -/
theorem encodeFaultsInOrder : Obligations.EncodeFaultsInOrder := by
  intro s c hf
  rw [← encode_encodeSym]
  refine ⟨fun htv => exec_encode_noTable hf htv c, fun htv ho => ?_, fun htv ho hc => exec_encode_unknown hf htv ho hc⟩
  rw [exec_encode_notOpened hf htv ho, raiseWriterState_first hf]

/-! ## A byte emitted (R162) -/

/-- The state after emitByte has stored `v`. -/
def State.emitted (s : State) (v : Byte) : State := { s.setObuf s.olen.toNat v with olen := s.olen + 1 }

theorem emitByte_emitted {s : State} (h : s.olen.toNat < s.wlimit.toNat) (w : Word) (v : Byte) :
    emitByte w v s = .ok (s.emitted v) := emitByte_room h w v

theorem emitted_sameButWriter (s : State) (v : Byte) : s.sameButWriter (s.emitted v) := rfl

theorem emitted_olen {s : State} (h : s.olen.toNat < s.wlimit.toNat) (v : Byte) :
    (s.emitted v).olen.toNat = s.olen.toNat + 1 := olen_succ h

theorem emitted_outputFrame {s : State} (h : s.olen.toNat < s.wlimit.toNat) (v : Byte) :
    (s.emitted v).outputFrame = s.outputFrame ++ [v] := outputFrame_emit h v

@[simp] theorem emitted_obufByte_same (s : State) (v : Byte) : (s.emitted v).obufByte s.olen.toNat = v :=
  setObuf_obufByte_same s ..

theorem emitted_obufByte_other (s : State) (v : Byte) {k : Nat} (h : k ≠ s.olen.toNat) :
    (s.emitted v).obufByte k = s.obufByte k := setObuf_obufByte_other s v h

/-! ## WBIT (R163, R164) -/

/-- Settles O39: a pending bit or, at WN = 7, a byte emitted. -/
theorem wbitAppendsItsBit : Obligations.WbitAppendsItsBit := by
  intro s b hf _ ho hroom
  rw [exec_wbit_opened hf ho]
  by_cases hn : s.wn = 7
  · have hl := hroom hn
    rw [writeBitCore_flush hn hl]
    exact ⟨_, rfl, writerBits_flush hn hl b, rfl, fun h => absurd hn h, fun _ =>
      ⟨rfl, rfl, olen_succ hl, emitted_obufByte_same s _, fun _ => emitted_obufByte_other s _⟩⟩
  · rw [writeBitCore_pending hn]
    exact ⟨_, rfl, writerBits_pending hn b, rfl, fun _ => ⟨wn_succ hn, rfl, fun _ => rfl⟩, fun h => absurd h hn⟩

/-! ## WCLOSE (R165, R166) -/

/-- The state a completed WCLOSE leaves. -/
def State.closed (s : State) : State :=
  { (s.emitted s.partialByte).emitted (s.wn.setWidth 8) with wacc := 0, wn := 0, wstate := .closed }

theorem closed_frame (s : State) :
    s.closed = { s with wacc := 0, wn := 0, wstate := .closed, olen := s.closed.olen, obuf := s.closed.obuf } := by
  have hframe : s.sameButWriter ((s.emitted s.partialByte).emitted (s.wn.setWidth 8)) :=
    State.sameButWriter.trans (emitted_sameButWriter s _) (emitted_sameButWriter _ _)
  unfold State.sameButWriter at hframe
  rw [State.closed, hframe]

/-- With no room WCLOSE stores nothing. -/
theorem closeWriter_full {s : State} (h : s.wlimit.toNat ≤ s.olen.toNat) (w : Word) :
    closeWriter w s =
      .raised (raise .capacityExceeded (zext32 s.olen) (zext32 s.wlimit) w { s with wstate := .failed }) := by
  simp only [closeWriter, emitByte_full h, Ran.andThen_raised]

/-- With room for one byte WCLOSE stores the partial byte before it fails. -/
theorem closeWriter_oneByte {s : State} (h : s.wlimit.toNat = s.olen.toNat + 1) (w : Word) :
    closeWriter w s = .raised (raise .capacityExceeded (zext32 s.wlimit) (zext32 s.wlimit) w
      { s.emitted s.partialByte with olen := s.wlimit, wstate := .failed }) := by
  have hl : s.olen.toNat < s.wlimit.toNat := by omega
  have hlim : (s.emitted s.partialByte).olen = s.wlimit := BitVec.eq_of_toNat_eq ((emitted_olen hl _).trans h.symm)
  have hfull : (s.emitted s.partialByte).wlimit.toNat ≤ (s.emitted s.partialByte).olen.toNat := by rw [hlim]; rfl
  rw [closeWriter, emitByte_emitted hl, Ran.andThen_ok, emitByte_full hfull, Ran.andThen_raised, hlim]
  rfl

section
variable {s : State} (h : s.olen.toNat + 2 ≤ s.wlimit.toNat)
include h

theorem emitted_partialByte_room : (s.emitted s.partialByte).olen.toNat < (s.emitted s.partialByte).wlimit.toNat :=
  (emitted_olen (by omega) _).trans_lt h

theorem closeWriter_closed (w : Word) : closeWriter w s = .ok s.closed := by
  rw [closeWriter, emitByte_emitted (by omega), Ran.andThen_ok, emitByte_emitted (emitted_partialByte_room h),
    Ran.andThen_ok]
  rfl

theorem closed_olen : s.closed.olen.toNat = s.olen.toNat + 2 := by
  have h1 := emitted_olen (show s.olen.toNat < s.wlimit.toNat by omega) s.partialByte
  have h2 := emitted_olen (emitted_partialByte_room h) (s.wn.setWidth 8)
  exact h2.trans (congrArg (· + 1) h1)

theorem closed_obufByte_partial : s.closed.obufByte s.olen.toNat = s.partialByte := by
  have h1 := emitted_olen (show s.olen.toNat < s.wlimit.toNat by omega) s.partialByte
  exact (emitted_obufByte_other (s.emitted s.partialByte) _ (by omega)).trans (emitted_obufByte_same s _)

theorem closed_obufByte_count : s.closed.obufByte (s.olen.toNat + 1) = s.wn.setWidth 8 := by
  rw [← emitted_olen (show s.olen.toNat < s.wlimit.toNat by omega) s.partialByte]
  exact emitted_obufByte_same (s.emitted s.partialByte) _

theorem closed_obufByte_other {k : Nat} (hk : k ≠ s.olen.toNat) (hk1 : k ≠ s.olen.toNat + 1) :
    s.closed.obufByte k = s.obufByte k := by
  have h1 := emitted_olen (show s.olen.toNat < s.wlimit.toNat by omega) s.partialByte
  exact (emitted_obufByte_other (s.emitted s.partialByte) _ (by omega)).trans (emitted_obufByte_other s _ hk)

theorem closed_outputFrame : s.closed.outputFrame = s.outputFrame ++ [s.partialByte, s.wn.setWidth 8] := by
  have h1 := emitted_outputFrame (show s.olen.toNat < s.wlimit.toNat by omega) s.partialByte
  have h2 := emitted_outputFrame (emitted_partialByte_room h) (s.wn.setWidth 8)
  rw [h1, List.append_assoc] at h2
  exact h2

end

/-- The trailing byte is the number of pending bits (R165). -/
theorem wn_byte_toNat (s : State) : (s.wn.setWidth 8 : Byte).toNat = s.wn.toNat :=
  BitVec.toNat_setWidth_of_le (by decide)

/-- WCLOSE ends CLOSED only where both bytes fit. -/
theorem exec_wclose_closed {s t : State} (hf : s.fault = .noFault) (ho : s.wstate = .opened)
    (h : exec .wclose s = .next t) (ht : t.wstate = .closed) : s.olen.toNat + 2 ≤ s.wlimit.toNat ∧ t = s.closed := by
  rw [exec_wclose_opened hf ho] at h
  cases h
  by_cases h2 : s.olen.toNat + 2 ≤ s.wlimit.toNat
  · exact ⟨h2, by rw [closeWriter_closed h2, Ran.state_ok]⟩
  · by_cases h1 : s.wlimit.toNat = s.olen.toNat + 1
    · simp [closeWriter_oneByte h1] at ht
    · simp [closeWriter_full (show s.wlimit.toNat ≤ s.olen.toNat by omega)] at ht

/-- Settles O38: WOPEN's check; and a limit of 0 or 1 leaves WCLOSE room for at most one byte. -/
theorem wopenStartsAFrameOrRefuses : Obligations.WopenStartsAFrameOrRefuses := by
  refine ⟨rfl, fun s hf => ⟨exec_wopen_open hf, exec_wopen_refuse hf, fun ho hlim => ⟨_, exec_wclose_opened hf ho, ?_⟩⟩⟩
  by_cases hfull : s.wlimit.toNat ≤ s.olen.toNat
  · rw [closeWriter_full hfull, Ran.state_raised, raise_capacityExceeded hf]
  · rw [closeWriter_oneByte (show s.wlimit.toNat = s.olen.toNat + 1 by omega), Ran.state_raised]
    rw [raise_capacityExceeded (s := { s.emitted s.partialByte with olen := s.wlimit }) hf]

/-- Settles O41: outside OPEN by `raiseWriterState_first`; over the limit by the three ways WCLOSE and WBIT can fail. -/
theorem wbitAndWcloseFaults : Obligations.WbitAndWcloseFaults := by
  intro s b hf
  rw [← encode_wbit]
  refine ⟨fun ho => ?_, fun ho hn hl => ?_, fun ho => ?_, fun ho hl => ?_, fun ho hl => ?_⟩
  · rw [exec_wbit_notOpened hf ho, raiseWriterState_first hf]
  · rw [exec_wbit_opened hf ho, writeBitCore_full hn hl, Ran.state_raised, raise_capacityExceeded hf]
    rfl
  · rw [exec_wclose_notOpened hf ho, raiseWriterState_first hf]
    rfl
  · rw [exec_wclose_opened hf ho, closeWriter_full hl, Ran.state_raised, raise_capacityExceeded hf]
    rfl
  · rw [exec_wclose_opened hf ho, closeWriter_oneByte hl, Ran.state_raised,
      raise_capacityExceeded (s := { s.emitted s.partialByte with olen := s.wlimit }) hf]
    exact ⟨_, rfl, emitted_obufByte_same s _, fun _ => emitted_obufByte_other s _, rfl⟩

/-! ## The frame WCLOSE completes (R71, R72, R168) -/

/-- A content byte that is not the last one carries eight bits (R72). -/
theorem frameBits_cons (d : Byte) {f : List Byte} (h : 2 ≤ f.length) :
    frameBits (d :: f) = topBits 8 d ++ frameBits f := by
  match f, h with
  | _ :: _ :: _, _ => rfl

theorem frameBits_append (f : List Byte) (d : Byte) {c : Byte} (hc : c.toNat ≤ 8) :
    frameBits (f ++ [d, c]) = f.flatMap (topBits 8) ++ topBits c.toNat d := by
  induction f with
  | nil => exact if_pos hc
  | cons x f ih => rw [List.cons_append, frameBits_cons x (by simp), ih, List.flatMap_cons, List.append_assoc]

/-- R166: the pending bits stand left-aligned in the partial byte, oldest first. -/
theorem topBits_partialByte (s : State) : topBits s.wn.toNat s.partialByte = s.pendingBits := by
  have hn := s.wn.isLt
  refine List.map_congr_left fun i hi => ?_
  rw [List.mem_range] at hi
  rw [State.partialByte, BitVec.getLsbD_shiftLeft, show 7 - i - (8 - s.wn.toNat) = s.wn.toNat - 1 - i by omega]
  simp [show 7 - i < 8 by omega, show ¬ 7 - i < 8 - s.wn.toNat by omega]

theorem closed_frameBits {s : State} (h : s.olen.toNat + 2 ≤ s.wlimit.toNat) :
    frameBits s.closed.outputFrame = s.writerBits := by
  have hn := s.wn.isLt
  have hc := wn_byte_toNat s
  rw [closed_outputFrame h, frameBits_append _ _ (by omega), hc, topBits_partialByte, State.writerBits]

/-- Settles O40: `State.closed`, its two bytes, and the bits of its frame. -/
theorem wcloseCompletesTheFrame : Obligations.WcloseCompletesTheFrame := by
  intro s hf _ ho h
  have hexec : exec .wclose s = .next s.closed := by rw [exec_wclose_opened hf ho, closeWriter_closed h, Ran.state_ok]
  have hcount : (s.closed.obufByte (s.olen.toNat + 1)).toNat = s.wn.toNat := by
    rw [closed_obufByte_count h, wn_byte_toNat]
  exact ⟨s.closed, hexec, closed_frame s, closed_olen h, closed_obufByte_partial h, hcount,
    fun _ => closed_obufByte_other h, closed_frameBits h⟩

/-- Settles O42: each bit counts one more (`writeBits_eq_ok`), and WCLOSE appends two bytes, the second of them WN. -/
theorem writerBitAccounting : Obligations.WriterBitAccounting := by
  intro s t w bits ho hlen hn h
  obtain ⟨-, hframe, hcount⟩ := writeBits_eq_ok h
  have hB : bits.length = 8 * t.olen.toNat + t.wn.toNat := by rw [hcount, hlen, hn]; simp
  refine ⟨hB, ?_, fun u hu => ?_⟩
  · rw [hframe]; exact ho
  · have hn7 := t.wn.isLt
    have hroom := closeWriter_eq_ok hu
    have holen := closed_olen hroom
    obtain rfl : t.closed = u := Ran.ok.inj ((closeWriter_closed hroom w).symm.trans hu)
    refine ⟨rfl, by omega, ?_⟩
    rw [holen, show t.olen.toNat + 2 - 1 = t.olen.toNat + 1 by omega, closed_obufByte_count hroom, wn_byte_toNat]
    omega

/-! ## ENCODE (R169) -/

theorem writeBitCore_obufByte {s t : State} {w : Word} {b : Bool} (h : writeBitCore w b s = .ok t) {k : Nat}
    (hk : k < s.olen.toNat ∨ t.olen.toNat ≤ k) : t.obufByte k = s.obufByte k := by
  rcases writeBitCore_eq_ok h with ⟨-, rfl⟩ | ⟨-, hl, rfl⟩
  · rfl
  · have hsucc := olen_succ hl
    exact emitted_obufByte_other s _ (hk.elim Nat.ne_of_lt fun hk => by change (s.olen + 1).toNat ≤ k at hk; omega)

/-- OLEN never goes down while bits are written. -/
theorem writeBits_olen_le {s t : State} {w : Word} {bits : List Bool} (h : writeBits w bits s = .ok t) :
    s.olen.toNat ≤ t.olen.toNat := by
  obtain ⟨-, -, hcount⟩ := writeBits_eq_ok h
  have := t.wn.isLt
  omega

/-- Of OBUF only the bytes from the old OLEN up to the new one are written. -/
theorem writeBits_obufByte {s t : State} {w : Word} {bits : List Bool} (h : writeBits w bits s = .ok t) {k : Nat}
    (hk : k < s.olen.toNat ∨ t.olen.toNat ≤ k) : t.obufByte k = s.obufByte k := by
  induction bits generalizing s with
  | nil => cases h; rfl
  | cons b bs ih =>
    obtain ⟨u, hu, ht⟩ := Ran.andThen_eq_ok h
    have hcount := writeBitCore_count hu
    have hwn := u.wn.isLt
    have hut := writeBits_olen_le ht
    exact (ih ht (by omega)).trans (writeBitCore_obufByte hu (by omega))

/-- Settles O43: with room for the code's bytes `writeBits` completes, and appends the code's bits. -/
theorem encodeAppendsTheCode : Obligations.EncodeAppendsTheCode := by
  intro s c hf _ htv ho hc hroom
  obtain ⟨t, ht⟩ := writeBits_room (s.ctAt c).bits (encode (.encodeSym c)) (by rwa [bits_length])
  obtain ⟨hbits, hframe, -⟩ := writeBits_eq_ok ht
  exact ⟨t, by rw [exec_encode_opened hf htv ho hc, ht, Ran.state_ok], hbits, hframe, fun _ => writeBits_obufByte ht⟩

/-- R168: the bits written are counted by OLEN and WN. -/
theorem writerBits_length (s : State) : s.writerBits.length = 8 * s.olen.toNat + s.wn.toNat := by
  simp [State.writerBits, State.outputFrame, State.pendingBits, List.length_flatMap, topBits_length, Function.comp_def,
    Nat.mul_comm]

/-- Where bits complete more bytes than WLIMIT allows, those before the one that completes the byte too many are
written, and that one raises CAPACITY_EXCEEDED. -/
theorem writeBits_over {s : State} (hle : s.olen.toNat ≤ s.wlimit.toNat) {bits : List Bool}
    (hover : s.wlimit.toNat < (8 * s.olen.toNat + s.wn.toNat + bits.length) / 8) (w : Word) :
    ∃ t, writeBits w (bits.take (8 * s.wlimit.toNat + 7 - (8 * s.olen.toNat + s.wn.toNat))) s = .ok t ∧
      t.olen = s.wlimit ∧ t.wn = 7 ∧
      writeBits w bits s =
        .raised (raise .capacityExceeded (zext32 s.wlimit) (zext32 s.wlimit) w { t with wstate := .failed }) := by
  have hn := s.wn.isLt
  generalize hm : 8 * s.wlimit.toNat + 7 - (8 * s.olen.toNat + s.wn.toNat) = n
  have hlt : n < bits.length := by omega
  have hlen : (bits.take n).length = n := by rw [List.length_take]; omega
  obtain ⟨t, ht⟩ := writeBits_room (s := s) (bits.take n) w (by rw [hlen]; omega)
  obtain ⟨-, hframe, hcount⟩ := writeBits_eq_ok ht
  have htn := t.wn.isLt
  have hlim : t.wlimit = s.wlimit := by rw [hframe]
  have holen : t.olen = s.wlimit := BitVec.eq_of_toNat_eq (by omega)
  have hwn : t.wn = 7 := BitVec.eq_of_toNat_eq (show t.wn.toNat = 7 by omega)
  refine ⟨t, ht, holen, hwn, ?_⟩
  calc writeBits w bits s
      = writeBits w (bits.take n ++ bits[n] :: bits.drop (n + 1)) s := by
        rw [← List.drop_eq_getElem_cons hlt, List.take_append_drop]
    _ = (writeBitCore w bits[n] t).andThen (writeBits w (bits.drop (n + 1))) := by
        rw [writeBits_append, ht, Ran.andThen_ok, writeBits]
    _ = _ := by
        rw [writeBitCore_full hwn (by rw [holen, hlim]), Ran.andThen_raised, holen, hlim]

/-- Settles O45: `writeBits_over` splits the code at the bit that is lost. -/
theorem encodeOverTheLimitKeepsEarlierBits : Obligations.EncodeOverTheLimitKeepsEarlierBits := by
  intro s c hf hi htv ho hc hover
  obtain ⟨hle, -⟩ := hi.writerOk
  obtain ⟨t, ht, holen, hwn, hraised⟩ := writeBits_over hle (by rwa [bits_length]) (encode (.encodeSym c))
  obtain ⟨hbits, hframe, -⟩ := writeBits_eq_ok ht
  have htf : t.fault = .noFault := by rw [hframe]; exact hf
  have hn := s.wn.isLt
  rw [exec_encode_opened hf htv ho hc, hraised, Ran.state_raised, raise_capacityExceeded htf]
  refine ⟨_, rfl, holen, hwn, hbits.trans ?_, fun k hk => writeBits_obufByte ht (by rwa [holen]), ?_⟩
  · have hwritten : s.writerBits.length ≤ 8 * s.wlimit.toNat + 7 := by rw [writerBits_length]; omega
    rw [List.take_append, writerBits_length, List.take_of_length_le hwritten]
  · rw [hframe]; rfl

/-! ## The frame read back (R191, R198) -/

theorem inputFrame_getLastD {s : State} (h : 1 ≤ s.ilen.toNat) :
    s.inputFrame.getLastD 0 = s.ibufByte (s.ilen.toNat - 1) := by
  obtain ⟨n, hn⟩ := Nat.exists_eq_add_of_le' h
  simp [State.inputFrame, hn, List.range_succ]

/-- R191, R193: ROPEN over a frame of at least two bytes, the second of which is no bad trailing byte, opens the reader
on the frame's bits. -/
theorem openReader_opens {s : State} (h2 : 2 ≤ s.ilen.toNat) (ht : s.ilen.toNat = 2 → (s.ibufByte 1).toNat ≤ 8)
    (w : Word) :
    ∃ t, openReader w s = .ok t ∧ t.rstate = .opened ∧ t.readerBits = frameBits s.inputFrame ∧
      t.trailingByte = s.ibufByte (s.ilen.toNat - 1) := by
  rw [← inputFrame_getLastD (by omega)]
  rcases Nat.eq_or_lt_of_le h2 with he | hl
  · have hframe : s.inputFrame = [s.ibufByte 0, s.ibufByte 1] := by rw [State.inputFrame, ← he]; rfl
    refine ⟨_, openReader_two he.symm (ht he.symm) w, rfl, ?_, ?_⟩
    · rw [readerBits_final rfl, hframe, frameBits, if_pos (ht he.symm)]
      exact congrArg (topBits · (s.ibufByte 0)) (lowNibble_toNat (ht he.symm))
    · rw [hframe]; rfl
  · obtain ⟨n, hn⟩ := Nat.exists_eq_add_of_lt hl
    have hframe : s.inputFrame = s.ibufByte 0 :: s.ibufByte 1 :: s.ibufByte 2 ::
        (List.range (s.ilen.toNat - 3)).map fun j => s.ibufByte (3 + j) := by
      rw [State.inputFrame, show s.ilen.toNat = 3 + (s.ilen.toNat - 3) by omega, List.range_add, List.map_append,
        List.map_map, Nat.add_sub_cancel_left]
      rfl
    refine ⟨_, openReader_long hl w, rfl, ?_, ?_⟩
    · rw [hframe, frameBits]
      rfl
    · rw [hframe]
      rfl

/-- Settles O50: the frame carries the writer's bits (`closed_frameBits`), and ROPEN opens the reader on them. -/
theorem readerDeliversWhatTheWriterTook : Obligations.ReaderDeliversWhatTheWriterTook := by
  intro s t r u hf _ ho hclose hclosed hrf _ hframe hopen
  obtain ⟨hroom, rfl⟩ := exec_wclose_closed hf ho hclose hclosed
  have hn := s.wn.isLt
  have hcount := wn_byte_toNat s
  have hlen : r.ilen.toNat = s.olen.toNat + 2 := by
    rw [← closed_olen hroom]
    simpa [State.inputFrame, State.outputFrame] using congrArg List.length hframe
  have hlast : r.ibufByte (r.ilen.toNat - 1) = s.wn.setWidth 8 := by
    rw [← inputFrame_getLastD (by omega), hframe, closed_outputFrame hroom]
    simp
  obtain ⟨v, hv, hrstate, hbits, htrail⟩ := openReader_opens (s := r) (by omega)
    (fun h2 => by rw [h2] at hlast; rw [hlast]; omega) (encode .ropen)
  simp only [exec, execRopen, unlessFaulted_run hrf, Ran.outcome_eq, hv, Ran.state_ok] at hopen
  cases hopen
  refine ⟨hrstate, ?_, ?_⟩
  · rw [hbits, hframe, closed_frameBits hroom]
  · rw [htrail, hlast]; omega

end Sys2Proof.Machine

/-! # The reader and the symbol decoder (spec/44_reader.md R191 to R205) -/

namespace Sys2Proof.Machine

/-! ## What each command answers with no fault recorded -/

theorem hasNext_eq_false {s : State} (ha : s.aftv = false) (hr : s.rem = 0) : s.hasNext = false := by
  simp [State.hasNext, ha, hr]

section
variable {s : State} (hf : s.fault = .noFault)
include hf

theorem raiseReaderState_first (w : Word) :
    raiseReaderState w s = { s with
      fault := .readerState, faultInfo0 := s.rstate.code.setWidth 32, faultInfo1 := 0, faultCmd := w } :=
  raise_first hf ..

theorem exec_ropen : exec .ropen s = .next (openReader (encode .ropen) s).state := by
  simp only [exec, execRopen, unlessFaulted_run hf, Ran.outcome_eq]

theorem exec_rbit_notOpened (ho : s.rstate ≠ .opened) :
    exec .rbit s = .next (raiseReaderState (encode .rbit) s) := by
  simp only [exec, execRbit, unlessFaulted_run hf, if_pos ho]

theorem exec_rbit_end (ho : s.rstate = .opened) (hn : s.hasNext = false) :
    exec .rbit s = .next (raise .endOfStream (zext32 s.rbase) (zext32 s.rlen) (encode .rbit) s) := by
  simp only [exec, execRbit, unlessFaulted_run hf, if_neg (not_not.2 ho), if_pos hn]

theorem exec_rbit_read (hn : s.hasNext = true) :
    exec .rbit s =
      .next (readBitCore (encode .rbit) { s with result := zext32 (BitVec.ofBool s.nextBit) }).state := by
  have ho := ((hasNext_iff s).1 hn).1
  simp only [exec, execRbit, unlessFaulted_run hf, if_neg (not_not.2 ho), hn, Bool.true_eq_false, if_false,
    Ran.outcome_eq]

theorem exec_rhasnext_notOpened (ho : s.rstate ≠ .opened) :
    exec .rhasnext s = .next (raiseReaderState (encode .rhasnext) s) := by
  simp only [exec, execRhasnext, unlessFaulted_run hf, if_pos ho]

theorem exec_rhasnext_opened (ho : s.rstate = .opened) :
    exec .rhasnext s = .next { s with result := zext32 (BitVec.ofBool s.hasNext) } := by
  simp only [exec, execRhasnext, unlessFaulted_run hf, if_neg (not_not.2 ho)]

theorem exec_decode_noTree (hs : s.tstate = .none) :
    exec .decodeSym s = .next (raise .noTree 0 0 (encode .decodeSym) s) := by
  simp only [exec, execDecode, unlessFaulted_run hf, hs]

theorem exec_decode_notOpened (hs : s.tstate ≠ .none) (ho : s.rstate ≠ .opened) :
    exec .decodeSym s = .next (raiseReaderState (encode .decodeSym) s) := by
  cases ht : s.tstate with
  | none => exact absurd ht hs
  | empty | valid => simp only [exec, execDecode, unlessFaulted_run hf, ht, if_pos ho]

theorem exec_decode_sentinel (hs : s.tstate = .empty) (ho : s.rstate = .opened) :
    exec .decodeSym s = .next { s with result := 0x40000000 } := by
  simp only [exec, execDecode, unlessFaulted_run hf, hs, if_neg (not_not.2 ho)]

theorem exec_decode_tree (hs : s.tstate = .valid) (ho : s.rstate = .opened) :
    exec .decodeSym s = decodeLoop (encode .decodeSym) nodeCount s := by
  simp only [exec, execDecode, unlessFaulted_run hf, hs, if_neg (not_not.2 ho)]

end

/-! ## RHASNEXT (R197) -/

/-- Settles O49: both answers of RHASNEXT, and STATUS bit 8 by `status_layout`. -/
theorem rhasnextReportsHasNext : Obligations.RhasnextReportsHasNext := by
  refine ⟨by decide, fun s hf => ⟨fun ho => ?opened, fun ho => ?notOpened⟩, fun s => ?status⟩
  case opened =>
    have hiff : s.hasNext = true ↔ s.aftv = true ∨ 0 < s.rem.toNat := by simp only [hasNext_iff, ho, true_and]
    rw [exec_rhasnext_opened hf ho]
    by_cases h : s.aftv = true ∨ 0 < s.rem.toNat
    · rw [if_pos h, hiff.2 h]; rfl
    · rw [if_neg h, Bool.eq_false_iff.2 (mt hiff.1 h)]; rfl
  case notOpened =>
    rw [exec_rhasnext_notOpened hf ho, raiseReaderState_first hf]
    rfl
  case status =>
    obtain ⟨-, -, -, -, -, hbit, -⟩ := status_layout s
    rw [hbit]
    exact ⟨fun ho => by simp only [hasNext_iff, ho, true_and],
      fun ho => Bool.eq_false_iff.2 fun h => ho ((hasNext_iff s).1 h).1⟩

/-! ## ROPEN (R191) -/

/-- ROPEN that completes leaves everything but the reader and CURSOR, and RLEN, RBASE, CUR and NXT are the frame's. -/
theorem openReader_ok_frame {s t : State} {w : Word} (h : openReader w s = .ok t) :
    t = { s with
      rlen := s.ilen, rbase := 0, cur := s.ibufByte 0, nxt := s.ibufByte 1, aft := t.aft, aftv := t.aftv,
      rem := t.rem, rstate := .opened, cursor := if s.tstate = .none then 0 else s.root } := by
  have hcursor : (if s.tstate ≠ .none then s.root else 0) = if s.tstate = .none then 0 else s.root := ite_not ..
  rcases Nat.lt_trichotomy s.ilen.toNat 2 with hshort | htwo | hlong
  · rw [openReader_short hshort] at h; cases h
  · by_cases ht : (s.ibufByte 1).toNat ≤ 8
    · rw [openReader_two htwo ht, hcursor] at h; cases h; rfl
    · rw [openReader_two_bad htwo (by omega)] at h; cases h
  · rw [openReader_long hlong, hcursor] at h; cases h; rfl

/-- R72: how many bits the placed frame carries. -/
theorem inputFrame_bits_length {s : State} (h2 : 2 ≤ s.ilen.toNat)
    (hc : (s.ibufByte (s.ilen.toNat - 1)).toNat ≤ 8) :
    (frameBits s.inputFrame).length = 8 * (s.ilen.toNat - 2) + (s.ibufByte (s.ilen.toNat - 1)).toNat := by
  obtain ⟨n, hn⟩ := Nat.exists_eq_add_of_le' h2
  have hframe : s.inputFrame = (List.range n).map s.ibufByte ++ [s.ibufByte n, s.ibufByte (s.ilen.toNat - 1)] := by
    simp [State.inputFrame, hn, List.range_succ]
  rw [hframe, frameBits_length _ _ hc, List.length_map, List.length_range, hn, Nat.add_sub_cancel]

/-- Settles O46: `openReader_opens` gives the bits, `openReader_ok_frame` the rest of the state. -/
theorem ropenOpensTheFrame : Obligations.RopenOpensTheFrame := by
  intro s hf _ h2 ht
  obtain ⟨t, hopen, ho, hbits, htrail⟩ := openReader_opens h2 ht (encode .ropen)
  refine ⟨t, ?_, ho, hbits, htrail, fun hc => ?_, openReader_ok_frame hopen⟩
  · rw [exec_ropen hf, hopen, Ran.state_ok]
  · rw [hbits, inputFrame_bits_length h2 hc]

/-! ## RBIT (R196) -/

/-- Settles O47: `readBitCore_delivers`, from the state in which RESULT holds the bit. -/
theorem rbitDeliversTheNextBit : Obligations.RbitDeliversTheNextBit := by
  intro s hi ho
  have hiff := hasNext_iff_bits hi.readerOk ho
  refine ⟨hiff, fun b bs hf hbits hg => ?_⟩
  have hn : s.hasNext = true := hiff.2 (by rw [hbits]; exact List.cons_ne_nil b bs)
  obtain ⟨t, hread, hdel, htrail, -, hframe⟩ :=
    readBitCore_delivers (s := { s with result := zext32 (BitVec.ofBool s.nextBit) }) hi.readerOk hn hg (encode .rbit)
  obtain ⟨hb, hbs⟩ : b = s.nextBit ∧ bs = t.readerBits := List.cons.inj (hbits.symm.trans hdel)
  rw [State.sameButWindow] at hframe
  have hresult : t.result = zext32 (BitVec.ofBool s.nextBit) := by rw [hframe]
  refine ⟨hb, t, ?_, ?_, hbs.symm, htrail, ?_⟩
  · rw [exec_rbit_read hf hn, hread, Ran.state_ok]
  · rw [hresult, hb]; rfl
  · rw [hresult]; exact hframe

/-- R195, R199: with no fault recorded, what readBitCore leaves when it finds a trailing byte above 8. -/
theorem readBitCore_formats_state {s : State} (hf : s.fault = .noFault) (h : s.formatNext) (w : Word) :
    readBitCore w s = .raised { s with
      cur := s.nxt, nxt := s.aft, rbase := s.rbase + 1, aft := 0, aftv := false, rem := 0, rstate := .failed,
      fault := .format, faultInfo0 := BitVec.ofNat 32 (s.rbase.toNat + 2), faultInfo1 := s.aft.setWidth 32,
      faultCmd := w } := by
  rw [(readBitCore_formats h w).1, raise_first]
  · rfl
  · exact hf

/-- Settles O48: ROPEN's two bad frames, and the three ways RBIT can fail. -/
theorem ropenAndRbitFaults : Obligations.RopenAndRbitFaults := by
  intro s hf
  refine ⟨fun hshort => ?short, fun htwo ht => ?badTwo, fun ho => ?notOpened, fun ho ha hr => ?ended,
    fun _ ho ha hr hl ht => ?format⟩
  case short =>
    rw [exec_ropen hf, openReader_short hshort, Ran.state_raised, raise_first]
    · rfl
    · exact hf
  case badTwo =>
    rw [exec_ropen hf, openReader_two_bad htwo ht, Ran.state_raised, raise_first]
    · rfl
    · exact hf
  case notOpened =>
    rw [exec_rbit_notOpened hf ho, raiseReaderState_first hf]
    rfl
  case ended =>
    rw [exec_rbit_end hf ho (hasNext_eq_false ha hr), raise_first hf]
    rfl
  case format =>
    rw [exec_rbit_read hf ((hasNext_iff s).2 ⟨ho, .inl ha⟩),
      readBitCore_formats_state (s := { s with result := zext32 (BitVec.ofBool s.nextBit) }) hf ⟨ha, hr, hl, ht⟩]
    rfl

/-! ## DECODE's loop (R201) -/

section
variable {s : State} (w : Word) (fuel : Nat)

theorem decodeLoop_done (hn : s.hasNext = false) :
    decodeLoop w (fuel + 1) s = .next { s with result := doneResult s.cursor s.root } := by
  rw [decodeLoop, if_pos hn]

theorem decodeLoop_format (hf : s.fault = .noFault) (ho : s.rstate = .opened) (h : s.formatNext) :
    decodeLoop w (fuel + 1) s = .next { s with
      cur := s.nxt, nxt := s.aft, rbase := s.rbase + 1, aft := 0, aftv := false, rem := 0, rstate := .failed,
      fault := .format, faultInfo0 := BitVec.ofNat 32 (s.rbase.toNat + 2), faultInfo1 := s.aft.setWidth 32,
      faultCmd := w } := by
  have hn : s.hasNext = true := (hasNext_iff s).2 ⟨ho, .inl h.1⟩
  simp only [decodeLoop, hn, Bool.true_eq_false, if_false, readBitCore_formats_state hf h]

variable {t u : State} (hn : s.hasNext = true) (hread : readBitCore w s = .ok t)
include hn hread

theorem decodeLoop_raised (h : decodeStep w s.nextBit t = .raised u) : decodeLoop w (fuel + 1) s = .next u := by
  simp only [decodeLoop, hn, Bool.true_eq_false, if_false, hread, h]

theorem decodeLoop_emitted (h : decodeStep w s.nextBit t = .emitted u) : decodeLoop w (fuel + 1) s = .next u := by
  simp only [decodeLoop, hn, Bool.true_eq_false, if_false, hread, h]

theorem decodeLoop_moved (h : decodeStep w s.nextBit t = .moved u) :
    decodeLoop w (fuel + 1) s = decodeLoop w fuel u := by
  simp only [decodeLoop, hn, Bool.true_eq_false, if_false, hread, h]

end

theorem decodeStep_noChild {s : State} {b : Bool} (w : Word) (hc : s.childOf s.cursor b = none) :
    decodeStep w b s = .raised (raise .noChild (ixWord s.cursor) (zext32 (BitVec.ofBool b)) w s) := by
  simp only [decodeStep, hc]

/-- Settles O52: DECODE's checks in their order, and `decodeLoop_format` at the first round. -/
theorem decodeFaultsAndSentinel : Obligations.DecodeFaultsAndSentinel := by
  intro s hf
  refine ⟨fun hs => ?noTree, fun hs ho => ?notOpened, fun hs ho => exec_decode_sentinel hf hs ho,
    fun _ hs ho ha hr hl ht => ?format⟩
  case noTree =>
    rw [exec_decode_noTree hf hs, raise_first hf]
    rfl
  case notOpened =>
    rw [exec_decode_notOpened hf hs ho, raiseReaderState_first hf]
    rfl
  case format =>
    rw [exec_decode_tree hf hs ho]
    exact decodeLoop_format _ _ hf ho ⟨ha, hr, hl, ht⟩

/-! ## DECODE's loop follows the tree walk -/

/-- DECODE's loop has come from `s` to `t`: it has taken bits and moved the cursor to `n`, and the bits `rest` remain. -/
structure Reaches (s t : State) (n : NodeIx) (rest : List Bool) : Prop where
  bits : t.readerBits = rest
  trailing : t.trailingByte = s.trailingByte
  ahead : t.bytesAhead <:+ s.bytesAhead
  reader : ReaderOk t
  frame : t = { s with
    cursor := n, cur := t.cur, nxt := t.nxt, aft := t.aft, aftv := t.aftv, rem := t.rem, rbase := t.rbase }

theorem Reaches.trans {s t u : State} {n m : NodeIx} {rest rest' : List Bool} (h₁ : Reaches s t n rest)
    (h₂ : Reaches t u m rest') : Reaches s u m rest' where
  bits := h₂.bits
  trailing := h₂.trailing.trans h₁.trailing
  ahead := h₂.ahead.trans h₁.ahead
  reader := h₂.reader
  frame := by
    have hframe := h₂.frame
    rw [h₁.frame] at hframe
    exact hframe

/-- The cursor of a state that DECODE's loop has come to may be put at a child of the node. -/
theorem Reaches.move {s t : State} {n : NodeIx} {rest : List Bool} (h : Reaches s t n rest) (c : NodeIx) :
    Reaches s { t with cursor := c } c rest where
  bits := h.bits
  trailing := h.trailing
  ahead := h.ahead
  reader := h.reader
  frame := by rw [h.frame]

section
variable {s t : State} {n : NodeIx} {rest : List Bool} (h : Reaches s t n rest)
include h

theorem Reaches.cursor_eq : t.cursor = n := by rw [h.frame]
theorem Reaches.node_eq : t.node = s.node := by rw [h.frame]
theorem Reaches.root_eq : t.root = s.root := by rw [h.frame]
theorem Reaches.rstate_eq : t.rstate = s.rstate := by rw [h.frame]
theorem Reaches.rlen_eq : t.rlen = s.rlen := by rw [h.frame]
theorem Reaches.result_eq : t.result = s.result := by rw [h.frame]
theorem Reaches.fault_eq : t.fault = s.fault := by rw [h.frame]
theorem Reaches.faultInfo0_eq : t.faultInfo0 = s.faultInfo0 := by rw [h.frame]
theorem Reaches.faultInfo1_eq : t.faultInfo1 = s.faultInfo1 := by rw [h.frame]
theorem Reaches.faultCmd_eq : t.faultCmd = s.faultCmd := by rw [h.frame]

end

/-- A bit that readBitCore delivers: the reader has come one bit on. -/
theorem readBitCore_reaches {s : State} (hr : ReaderOk s) (ho : s.rstate = .opened) (hg : ¬ s.formatNext) {b : Bool}
    {bs : List Bool} (hbits : s.readerBits = b :: bs) (w : Word) :
    s.hasNext = true ∧ s.nextBit = b ∧ ∃ t, readBitCore w s = .ok t ∧ Reaches s t s.cursor bs := by
  have hn : s.hasNext = true := (hasNext_iff_bits hr ho).2 (by rw [hbits]; exact List.cons_ne_nil b bs)
  obtain ⟨t, hread, hdel, htrail, hrt, hframe⟩ := readBitCore_delivers hr hn hg w
  obtain ⟨hb, hbs⟩ : b = s.nextBit ∧ bs = t.readerBits := List.cons.inj (hbits.symm.trans hdel)
  refine ⟨hn, hb.symm, t, hread, hbs.symm, htrail, ?_, hrt, hframe⟩
  rcases readBitCore_bytesAhead hr ho hread with he | he
  · rw [he]
  · rw [he]; exact List.suffix_cons _ _

/-- What DECODE's loop answers, by how the walk of the bits before `tail` ends: a symbol or an absent child ends the
command; where the bits end, the loop goes on from the node reached with `tail`. -/
def LoopFollows (w : Word) (s : State) (tail : List Bool) (r : Result) : Decoded → Prop
  | .symbol c rest => ∃ t n, Reaches s t n (rest ++ tail) ∧
      r = .next { t with result := decodedResult c, cursor := t.root }
  | .noChild n b rest => ∃ t, Reaches s t n (rest ++ tail) ∧
      r = .next (raise .noChild (ixWord n) (zext32 (BitVec.ofBool b)) w t)
  | .ended n => ∃ t fuel, Reaches s t n tail ∧ r = decodeLoop w (fuel + 1) t

theorem LoopFollows.of_reaches {w : Word} {s t : State} {n : NodeIx} {rest tail : List Bool} {r : Result} {d : Decoded}
    (hst : Reaches s t n rest) (h : LoopFollows w t tail r d) : LoopFollows w s tail r d := by
  cases d with
  | symbol c rest =>
    obtain ⟨u, m, hu, he⟩ := h
    exact ⟨u, m, hst.trans hu, he⟩
  | noChild n b rest =>
    obtain ⟨u, hu, he⟩ := h
    exact ⟨u, hst.trans hu, he⟩
  | ended n =>
    obtain ⟨u, fuel, hu, he⟩ := h
    exact ⟨u, fuel, hst.trans hu, he⟩

/-- DECODE's loop follows the tree walk bit by bit, as long as no bit it takes makes the reader find a bad trailing byte:
either the trailing byte is legal, or a further bit comes after the walk's (R201, R202). -/
theorem decodeLoop_follows (w : Word) {s : State} (bits : List Bool) {tail : List Bool} {fuel : Nat} (hf : LinksFall s)
    (hr : ReaderOk s) (ho : s.rstate = .opened) (hfuel : s.cursor.val < fuel) (hbits : s.readerBits = bits ++ tail)
    (hgood : tail ≠ [] ∨ s.trailingByte.toNat ≤ 8) :
    LoopFollows w s tail (decodeLoop w fuel s) (s.decodeFrom s.cursor bits) := by
  induction bits generalizing s fuel with
  | nil =>
    obtain ⟨fuel, rfl⟩ := Nat.exists_eq_add_of_lt hfuel
    exact ⟨s, _, ⟨hbits, rfl, List.suffix_rfl, hr, rfl⟩, rfl⟩
  | cons b bits ih =>
    obtain ⟨fuel, rfl⟩ := Nat.exists_eq_add_one_of_ne_zero (Nat.ne_zero_of_lt hfuel)
    have hg : ¬ s.formatNext := by
      rcases hgood with htail | ht
      · intro h
        obtain ⟨-, hone, -⟩ := readBitCore_formats h w
        rw [hbits, List.cons_append] at hone
        exact htail (List.append_eq_nil_iff.1 (List.cons.inj hone).2).2
      · exact not_formatNext ht
    obtain ⟨hn, rfl, t, hread, hst⟩ := readBitCore_reaches hr ho hg (b := b) (bs := bits ++ tail) hbits w
    rw [← decodeFrom_congr hst.node_eq, ← hst.cursor_eq]
    have hft : LinksFall t := by rw [hst.frame]; exact ⟨hf.leaf, hf.left, hf.right⟩
    cases hc : t.childOf t.cursor s.nextBit with
    | none =>
      rw [decodeLoop_raised w fuel hn hread (decodeStep_noChild w hc)]
      simp only [State.decodeFrom, hc]
      refine ⟨t, ?_, rfl⟩
      rw [hst.cursor_eq]; exact hst
    | some c =>
      by_cases hk : (t.nodeAt c).kind = .leaf
      · rw [decodeLoop_emitted w fuel hn hread (decodeStep_leaf w hc hk)]
        simp only [State.decodeFrom, hc, if_pos hk]
        exact ⟨t, _, hst, rfl⟩
      · rw [decodeLoop_moved w fuel hn hread (decodeStep_inner w hc hk)]
        simp only [State.decodeFrom, hc, if_neg hk]
        have hlt := childOf_lt hft hc
        rw [hst.cursor_eq] at hlt
        have hfollow := ih (s := { t with cursor := c }) (fuel := fuel) ⟨hft.leaf, hft.left, hft.right⟩ hst.reader
          (hst.rstate_eq.trans ho) (show c.val < fuel by omega) hst.bits
          (hgood.imp_right fun h => hst.trailing ▸ h)
        rw [decodeFrom_congr (s := t) (t := { t with cursor := c }) rfl] at hfollow
        exact hfollow.of_reaches (hst.move c)

/-- DECODE follows the tree walk (`decodeLoop_follows`) from its own state. -/
theorem exec_decode_follows {s : State} (hf : s.fault = .noFault) (hi : Inv s) (hs : s.tstate = .valid)
    (ho : s.rstate = .opened) {bits tail : List Bool} (hbits : s.readerBits = bits ++ tail)
    (hgood : tail ≠ [] ∨ s.trailingByte.toNat ≤ 8) :
    LoopFollows (encode .decodeSym) s tail (exec .decodeSym s) (s.decodeFrom s.cursor bits) := by
  rw [exec_decode_tree hf hs ho]
  exact decodeLoop_follows _ bits (hi.validLayout hs).linksFall hi.readerOk ho s.cursor.isLt hbits hgood

/-- A command that ended with NO_CHILD, its record written out (R202). -/
theorem Reaches.raise_noChild {s t : State} {n : NodeIx} {rest : List Bool} (h : Reaches s t n rest)
    (hf : s.fault = .noFault) (b : Bool) :
    raise .noChild (ixWord n) (zext32 (BitVec.ofBool b)) (encode .decodeSym) t = { t with
      fault := .noChild, faultInfo0 := BitVec.ofNat 32 n.val, faultInfo1 := (BitVec.ofBool b).setWidth 32,
      faultCmd := 0x43000000 } :=
  raise_first (h.fault_eq.trans hf) ..

/-- DECODE over a frame with a legal trailing byte, where the walk ends with the bits (R201, R204). -/
theorem Reaches.decodeLoop_ended {s t : State} {n : NodeIx} (h : Reaches s t n []) (ho : s.rstate = .opened) (w : Word)
    (fuel : Nat) :
    decodeLoop w (fuel + 1) t = .next { t with result := if n = s.root then 0x40000000 else 0x60000000 } := by
  have hn : t.hasNext = false := Bool.eq_false_iff.2 fun hn =>
    (hasNext_iff_bits h.reader (h.rstate_eq.trans ho)).1 hn h.bits
  rw [decodeLoop_done w fuel hn, h.cursor_eq, h.root_eq, doneResult]
  by_cases hroot : n = s.root
  · rw [if_pos hroot, if_neg (not_not.2 hroot)]; rfl
  · rw [if_neg hroot, if_pos hroot]; rfl

/-- Settles O51: the walk of all the reader's bits (`exec_decode_follows`), by its three ends. -/
theorem decodeWalksTheTree : Obligations.DecodeWalksTheTree := by
  intro s hf hi hs ho ht
  have hfollow := exec_decode_follows hf hi hs ho (List.append_nil _).symm (.inr ht)
  cases hd : s.decodeFrom s.cursor s.readerBits with
  | symbol c rest =>
    rw [hd] at hfollow
    obtain ⟨t, n, h, he⟩ := hfollow
    refine ⟨_, he, h.trailing, ?_, fun c' rest' e => ?_, nofun, nofun⟩
    · rw [h.frame]
    · cases e
      exact ⟨rfl, h.root_eq, h.bits.trans (List.append_nil _), h.fault_eq.trans hf, h.faultInfo0_eq, h.faultInfo1_eq,
        h.faultCmd_eq⟩
  | ended n =>
    rw [hd] at hfollow
    obtain ⟨t, fuel, h, he⟩ := hfollow
    rw [h.decodeLoop_ended ho] at he
    refine ⟨_, he, h.trailing, ?_, nofun, fun n' e => ?_, nofun⟩
    · rw [h.frame]
    · cases e
      exact ⟨rfl, h.cursor_eq, h.bits, h.fault_eq.trans hf, h.faultInfo0_eq, h.faultInfo1_eq, h.faultCmd_eq⟩
  | noChild n b rest =>
    rw [hd] at hfollow
    obtain ⟨t, h, he⟩ := hfollow
    rw [h.raise_noChild hf] at he
    refine ⟨_, he, h.trailing, ?_, nofun, nofun, fun n' b' rest' e => ?_⟩
    · rw [h.frame]
    · cases e
      exact ⟨h.result_eq, h.cursor_eq, h.bits.trans (List.append_nil _), rfl, rfl, rfl, rfl⟩

/-! ## DECODE over a bad trailing byte (R195, R199) -/

/-- The last bit an open reader takes before a bad trailing byte is the one whose advance finds it. -/
theorem formatNext_of_last {s : State} (hr : ReaderOk s) (ho : s.rstate = .opened) (ht : 8 < s.trailingByte.toNat)
    {b : Bool} (hbits : s.readerBits = [b]) : s.formatNext := by
  obtain ⟨ha, -⟩ := hasNext_of_bad_trailing hr ho ht
  obtain ⟨-, -, -, hwindow, -⟩ := hr
  obtain ⟨hrem, hlen⟩ := hwindow ho ha
  have hcount : s.rem.toNat + (frameBits s.bytesAhead).length = 1 := by
    rw [← topBits_length s.rem.toNat s.cur, ← List.length_append]
    exact congrArg List.length hbits
  have hend : s.rbase.toNat + 3 = s.rlen.toNat := by
    by_contra hne
    obtain ⟨n, hn⟩ : ∃ n, s.rlen.toNat - (s.rbase.toNat + 3) = n + 1 := Nat.exists_eq_add_one_of_ne_zero (by omega)
    rw [State.bytesAhead, if_pos ha, frameBits_cons _ (by simp [hn]), List.length_append, topBits_length] at hcount
    omega
  have haft : s.trailingByte = s.aft := by simp [State.trailingByte, State.bytesAhead, ha, hend]
  exact ⟨ha, rem_eq_one (by omega), hend, haft ▸ ht⟩

/-- Where one bit is left before a bad trailing byte, NXT is the last content byte and AFT the trailing byte. -/
theorem Reaches.last_bit {s t : State} {n : NodeIx} {b : Bool} (h : Reaches s t n [b]) (ho : s.rstate = .opened)
    (ht : 8 < s.trailingByte.toNat) :
    t.formatNext ∧ t.nxt = s.bytesAhead.dropLast.getLastD 0 ∧ t.aft = s.trailingByte ∧
      t.rbase.toNat + 3 = s.rlen.toNat := by
  have hlast := formatNext_of_last h.reader (h.rstate_eq.trans ho) (h.trailing.symm ▸ ht) h.bits
  obtain ⟨-, -, hahead⟩ := readBitCore_formats hlast 0
  obtain ⟨-, -, hlen, -⟩ := id hlast
  refine ⟨hlast, ?_, ?_, h.rlen_eq ▸ hlen⟩
  · obtain ⟨before, hbefore⟩ := h.ahead
    rw [← hbefore, hahead]
    simp
  · rw [← h.trailing, State.trailingByte, hahead]
    rfl

/-- Settles O59: the walk of the bits before the last (`exec_decode_follows`), by its three ends; where they end, the last
bit is `formatNext`'s. -/
theorem decodeOverABadTrailingByte : Obligations.DecodeOverABadTrailingByte := by
  intro s hf hi hs ho ht
  have hne : s.readerBits ≠ [] := (hasNext_iff_bits hi.readerOk ho).1 (hasNext_of_bad_trailing hi.readerOk ho ht).2
  obtain ⟨bits, b, hbits⟩ := (List.eq_nil_or_concat' s.readerBits).resolve_left hne
  have hfollow := exec_decode_follows hf hi hs ho hbits (.inl (List.cons_ne_nil b []))
  refine ⟨bits, b, ?_⟩
  cases hd : s.decodeFrom s.cursor bits with
  | symbol c rest =>
    rw [hd] at hfollow
    obtain ⟨t, n, h, he⟩ := hfollow
    refine ⟨_, hbits, he, ?_, fun c' rest' e => ?_, nofun, nofun⟩
    · rw [h.frame]
    · cases e
      exact ⟨rfl, h.root_eq, h.bits, h.trailing, h.rstate_eq.trans ho, h.fault_eq.trans hf, h.faultInfo0_eq,
        h.faultInfo1_eq, h.faultCmd_eq⟩
  | noChild n b' rest =>
    rw [hd] at hfollow
    obtain ⟨t, h, he⟩ := hfollow
    rw [h.raise_noChild hf] at he
    refine ⟨_, hbits, he, ?_, nofun, fun n' b'' rest' e => ?_, nofun⟩
    · rw [h.frame]
    · cases e
      exact ⟨h.result_eq, h.cursor_eq, h.bits, h.trailing, h.rstate_eq.trans ho, rfl, rfl, rfl, rfl⟩
  | ended n =>
    rw [hd] at hfollow
    obtain ⟨t, fuel, h, he⟩ := hfollow
    obtain ⟨hlast, hnxt, haft, hlen⟩ := h.last_bit ho ht
    have hbase := rbase_succ (s := t) (by rw [h.rlen_eq]; omega)
    rw [decodeLoop_format _ _ (h.fault_eq.trans hf) (h.rstate_eq.trans ho) hlast] at he
    refine ⟨_, hbits, he, ?_, nofun, nofun, fun n' e => ?_⟩
    · rw [h.frame]
    · cases e
      refine ⟨h.result_eq, h.cursor_eq, rfl, rfl, ?_, ?_, rfl, hnxt, haft, rfl, rfl, rfl, ?_⟩
      · exact congrArg (BitVec.ofNat 32) (show t.rbase.toNat + 2 = s.rlen.toNat - 1 by omega)
      · exact congrArg (BitVec.setWidth 32) haft
      · show (t.rbase + 1).toNat + 2 = s.rlen.toNat
        omega

end Sys2Proof.Machine

/-! # The control commands (spec/45_control.md R230 to R232) -/

namespace Sys2Proof.Machine

/-! ## SRST (R231) -/

theorem softReset_ibufByte (s : State) (k : Nat) : (softReset s).ibufByte k = s.ibufByte k := rfl

theorem softReset_obufByte (s : State) (k : Nat) : (softReset s).obufByte k = s.obufByte k := rfl

/-- Settles O19: `softReset` is `State.resetWith` of the configuration but for the buffers and the host's side of the bus;
the epoch it keeps is the one the unwritten bytes of the buffers were drawn in. -/
theorem srstResetsAllButTheBuffers : Obligations.SrstResetsAllButTheBuffers := by
  refine ⟨by decide, fun s => ?_⟩
  have hfreq := resetWith_freqAt s.cfg s.epoch
  have hnode := resetWith_nodeAt s.cfg s.epoch
  have hct := resetWith_ctAt s.cfg s.epoch
  have hstatus := resetWith_status s.cfg s.epoch
  exact ⟨softReset s, rfl, rfl, rfl, rfl, rfl, rfl, rfl, hfreq, hnode, rfl, rfl, rfl, rfl, rfl, rfl, hct, rfl, rfl, rfl,
    rfl, rfl, rfl, rfl, rfl, rfl, rfl, rfl, rfl, rfl, rfl, rfl, hstatus, rfl, rfl, rfl, softReset_ibufByte s,
    softReset_obufByte s⟩

/-! ## NOP and CLRFAULT (R230, R232) -/

/-- With no fault recorded the other fault registers are 0 already (R28), so CLRFAULT has no effect (R232). -/
theorem clearFault_eq_self {s : State} (h : FaultRecordOk s) (hf : s.fault = .noFault) : clearFault s = s := by
  obtain ⟨h0, h1, hcmd⟩ := h.1 hf
  cases s
  cases hf; cases h0; cases h1; cases hcmd
  rfl

/-- R97: OPD of format N must be 0. -/
theorem illegalWord_nop_operand : illegalWord 0x00000001 := by decide

/-- Settles O20: NOP by `execNop_eq`, its word with an operand as an illegal word (O3), CLRFAULT as `clearFault`. -/
theorem nopAndClrfaultChangeNoUnit : Obligations.NopAndClrfaultChangeNoUnit := by
  refine ⟨by decide, execNop_eq, fun s rest hb hf => ?_, by decide, fun s => rfl, fun s hi hf => ?_⟩
  · exact (illegalWordsRaiseIllegalCommand s _ rest hb hf).1 illegalWord_nop_operand
  · exact congrArg Host.Outcome.next (clearFault_eq_self hi.faultRecordOk hf)

end Sys2Proof.Machine

/-! # Accesses while a fault is recorded (spec/60_exceptions.md R245) -/

namespace Sys2Proof.Machine

/-! ## CMD writes -/

/-- R245: the drop, at a command's own first check and, for a word that names no command, before ILLEGAL_COMMAND (R247). -/
theorem cmdWrite_dropped {s : State} {w : Word} (hf : s.fault ≠ .noFault) (hsrst : w ≠ encode .srst)
    (hclr : w ≠ encode .clrfault) : cmdWrite w s = .next s := by
  cases hd : decode w with
  | ok i =>
    have hw : w = encode i := eq_encode_of_decode hd
    rw [cmdWrite_encode i w s hd]
    exact exec_faulted hf (fun hi => hsrst (hi ▸ hw)) (fun hi => hclr (hi ▸ hw))
  | error r =>
    simp only [cmdWrite, hd]
    exact unlessFaulted_drop hf _

/-- R24: a CMD write of a command's own word runs the command. -/
theorem step_command_encode {s : State} {i : Instr} {rest : List BusOp}
    (h : s.bus = BusOp.command (encode i) :: rest) : step s = exec i { s with bus := rest } :=
  stepRunsDecodedCommand.1 s (encode i) rest i h (decode_encode i)

/-! ## The statement about faulted states -/

/-- Settles O5: a CMD write is dropped by `cmdWrite_dropped` unless its word is the encoding of SRST or CLRFAULT, which run and
leave FAULT 0; every other access takes the step it takes in any state. -/
theorem commandsAreDroppedWhileFaulted : Obligations.CommandsAreDroppedWhileFaulted := by
  intro s rest hf
  refine ⟨fun w hb hsrst hclr => ?dropped, fun hb => ?srst, fun hb => ?clrfault, fun a t => step_read,
    fun v => step_write_arg, fun v hb => ((argAndIlenWrites s v rest).2 hb).1,
    fun k v hc hk hb => step_write_ibufByte hb (targetOf_ibuf hc hk)⟩
  case dropped =>
    rw [step_command hb]
    exact cmdWrite_dropped (s := { s with bus := rest }) hf hsrst hclr
  case srst => exact ⟨_, step_command_encode (i := .srst) hb, rfl⟩
  case clrfault => exact ⟨_, step_command_encode (i := .clrfault) hb, rfl⟩

end Sys2Proof.Machine
